-- ==== Sys2Proof/Word.lean ====
section
/-!
DEFINITION. The words of the block: a byte of DMEM and a 32-bit word of the register window
(spec/10_state.md R33, R34; spec/20_memory.md R52).
-/

namespace Sys2Proof

/-- One byte of DMEM (10_state.md R33). -/
abbrev Byte := BitVec 8

/-- One 32-bit word: a host access, a command word, an ARG register, RESULT (10_state.md R34, R35). -/
abbrev Word := BitVec 32

end Sys2Proof
end

