-- ==== Sys2Proof/Syntax.lean ====
section
/-!
DEFINITION. The command set as syntax: one constructor of `Instr` per row of
spec/opcode_table.json (spec/30_encoding.md R83), with the fields the row uses.
-/

namespace Sys2Proof

/-- A big register number, naming X0 to X7 (30_encoding.md R82, 10_state.md R21). -/
abbrev XReg := Fin 8

/-- A context slot (10_state.md R26; 30_encoding.md R82). -/
inductive CtxSlot where
  /-- 0: the user context, written by MCTX. -/
  | u
  /-- 1: the reducer over p. -/
  | p
  /-- 2: the reducer over q. -/
  | q
  /-- 3: the reducer over the public modulus. -/
  | n
  deriving DecidableEq, Repr

/-- The commands of 30_encoding.md R83, operands in the order rd, rs1, rs2, rs3, ctx, f, sel. -/
inductive Instr where
  /-- 0x01 (42_montgomery.md R125) -/
  | mctx (rs1 : XReg)
  /-- 0x02 (42_montgomery.md R127) -/
  | tomont (rd rs1 : XReg) (ctx : CtxSlot)
  /-- 0x03 (42_montgomery.md R129) -/
  | frommont (rd rs1 : XReg) (ctx : CtxSlot)
  /-- 0x04 (42_montgomery.md R131) -/
  | montmul (rd rs1 rs2 : XReg) (ctx : CtxSlot)
  /-- 0x05 (42_montgomery.md R133) -/
  | ctxrd (rd : XReg) (ctx : CtxSlot) (sel : BitVec 4)
  /-- 0x08 (43_modexp.md R151) -/
  | modpow (rd rs1 rs2 : XReg) (ctx : CtxSlot)
  /-- 0x10 with f = 0 (45_private_key.md R181) -/
  | loadkey (rs1 rs2 rs3 : XReg)
  /-- 0x10 with f = 1 (45_private_key.md R183) -/
  | loadkeyd (rs1 rs2 : XReg)
  /-- 0x11 (44_public_key.md R161) -/
  | loadpub (rs1 rs2 : XReg)
  /-- 0x12 (45_private_key.md R185) -/
  | keyrd (rd : XReg) (sel : BitVec 4)
  /-- 0x13 (45_private_key.md R189) -/
  | decrypt (rd rs1 : XReg)
  /-- 0x14 (44_public_key.md R163) -/
  | encrypt (rd rs1 : XReg)
  /-- 0x15 (45_private_key.md R187) -/
  | crtcomb (rd rs1 rs2 : XReg)
  /-- 0x20 (41_codec.md R101) -/
  | b2i (rd : XReg) (f : Bool)
  /-- 0x21 (41_codec.md R103) -/
  | i2b (rs1 : XReg)
  /-- 0x22 (41_codec.md R105) -/
  | strip
  /-- 0x23 (41_codec.md R107) -/
  | hash
  /-- 0x30 (45_private_key.md R190) -/
  | decbytes
  /-- 0x31 (44_public_key.md R165) -/
  | encbytes
  /-- 0x32 (45_private_key.md R192) -/
  | sign
  /-- 0x33 (44_public_key.md R167) -/
  | verify
  /-- 0x34 (44_public_key.md R169) -/
  | verifymsg
  deriving DecidableEq, Repr

end Sys2Proof
end

