-- ==== Sys2Proof/WellFormed.lean ====
section
/-!
DEFINITION. Which terms of `Instr` are commands of the block: the selectors are the legal ones
(spec/30_encoding.md R84, R87; spec/42_montgomery.md R133; spec/45_private_key.md R184).
-/

namespace Sys2Proof

/-- CTXRD has the selectors 0 to 4 (42_montgomery.md R133). -/
def ctxSelLegal (sel : BitVec 4) : Bool := decide (sel.toNat ≤ 4)

/-- KEYRD has the selectors 0 to 9 (45_private_key.md R184). -/
def keySelLegal (sel : BitVec 4) : Bool := decide (sel.toNat ≤ 9)

/-- Every register number, slot and flag is legal (30_encoding.md R82); only selectors can be wrong. -/
def Instr.wellFormed : Instr → Bool
  | .mctx _ => true
  | .tomont _ _ _ => true
  | .frommont _ _ _ => true
  | .montmul _ _ _ _ => true
  | .ctxrd _ _ sel => ctxSelLegal sel
  | .modpow _ _ _ _ => true
  | .loadkey _ _ _ => true
  | .loadkeyd _ _ => true
  | .loadpub _ _ => true
  | .keyrd _ sel => keySelLegal sel
  | .decrypt _ _ => true
  | .encrypt _ _ => true
  | .crtcomb _ _ _ => true
  | .b2i _ _ => true
  | .i2b _ => true
  | .strip => true
  | .hash => true
  | .decbytes => true
  | .encbytes => true
  | .sign => true
  | .verify => true
  | .verifymsg => true

end Sys2Proof
end

