-- ==== Sys2Proof/Decode.lean ====
section
/-!
DEFINITION. From command words to commands and back: the table of spec/opcode_table.json, the
decoder of spec/30_encoding.md R84 and an encoder from the field layout of R81 and R83.
-/

namespace Sys2Proof

/-- Why a word is no command. All three raise IllegalCommand (30_encoding.md R84). -/
inductive DecodeError where
  /-- Bits 31:27 are not 0 (R86). -/
  | reservedBits
  /-- No row of the table matches: an unused opcode or a non-zero unused field (R85, R87). -/
  | noRow
  /-- A selector above the legal ones (R87). -/
  | badSelector
  deriving DecidableEq, Repr

/-- `w[hi:lo]` (00_scope.md R10). -/
def field (w : Word) (hi lo : Nat) : Nat := (w.toNat >>> lo) % 2 ^ (hi - lo + 1)

/-- A 3-bit register field at bit `lo` (30_encoding.md R82). -/
def regField (w : Word) (lo : Nat) : XReg := Fin.ofNat 8 (field w (lo + 2) lo)

/-- `ctxslot` (30_encoding.md R82): 0 = U, 1 = P, 2 = Q, 3 = N, of a 2-bit number. -/
def ctxSlot : Nat → CtxSlot
  | 0 => .u
  | 1 => .p
  | 2 => .q
  | _ => .n

/-- The number of a context slot (30_encoding.md R82). -/
def CtxSlot.number : CtxSlot → Nat
  | .u => 0
  | .p => 1
  | .q => 2
  | .n => 3

/-- The fields of a command word (30_encoding.md R81, R84). -/
structure Fields where
  rd : XReg
  rs1 : XReg
  rs2 : XReg
  rs3 : XReg
  ctx : CtxSlot
  f : Bool
  sel : BitVec 4
  deriving DecidableEq, Repr

/-- The fields of a word, as R84 returns them. -/
def fieldsOf (cw : Word) : Fields where
  rd := regField cw 8
  rs1 := regField cw 11
  rs2 := regField cw 14
  rs3 := regField cw 17
  ctx := ctxSlot (field cw 21 20)
  f := field cw 22 22 == 1
  sel := BitVec.ofNat 4 (field cw 26 23)

/-- A row of the opcode table: the words `cw` with `cw AND mask = pattern` are this command's. -/
structure Row where
  mnemonic : String
  pattern : Word
  mask : Word
  build : Fields → Instr

/-- A word is one of the row's (30_encoding.md R84). -/
def Row.fits (r : Row) (cw : Word) : Bool := cw &&& r.mask == r.pattern

/-- The rows of units montgomery_multiplier and modular_exponentiator. -/
def montgomeryRows : List Row :=
  [ ⟨"MCTX", 0x00000001, 0xFFFFC7FF, fun x => .mctx x.rs1⟩,
    ⟨"TOMONT", 0x00000002, 0xFFCFC0FF, fun x => .tomont x.rd x.rs1 x.ctx⟩,
    ⟨"FROMMONT", 0x00000003, 0xFFCFC0FF, fun x => .frommont x.rd x.rs1 x.ctx⟩,
    ⟨"MONTMUL", 0x00000004, 0xFFCE00FF, fun x => .montmul x.rd x.rs1 x.rs2 x.ctx⟩,
    ⟨"CTXRD", 0x00000005, 0xF84FF8FF, fun x => .ctxrd x.rd x.ctx x.sel⟩,
    ⟨"MODPOW", 0x00000008, 0xFFCE00FF, fun x => .modpow x.rd x.rs1 x.rs2 x.ctx⟩ ]

/-- The key and transform rows, opcodes 0x10 to 0x15. -/
def keyRows : List Row :=
  [ ⟨"LOADKEY", 0x00000010, 0xFFF007FF, fun x => .loadkey x.rs1 x.rs2 x.rs3⟩,
    ⟨"LOADKEYD", 0x00400010, 0xFFFE07FF, fun x => .loadkeyd x.rs1 x.rs2⟩,
    ⟨"LOADPUB", 0x00000011, 0xFFFE07FF, fun x => .loadpub x.rs1 x.rs2⟩,
    ⟨"KEYRD", 0x00000012, 0xF87FF8FF, fun x => .keyrd x.rd x.sel⟩,
    ⟨"DECRYPT", 0x00000013, 0xFFFFC0FF, fun x => .decrypt x.rd x.rs1⟩,
    ⟨"ENCRYPT", 0x00000014, 0xFFFFC0FF, fun x => .encrypt x.rd x.rs1⟩,
    ⟨"CRTCOMB", 0x00000015, 0xFFFE00FF, fun x => .crtcomb x.rd x.rs1 x.rs2⟩ ]

/-- The byte commands, opcodes 0x20 to 0x34. -/
def byteRows : List Row :=
  [ ⟨"B2I", 0x00000020, 0xFFBFF8FF, fun x => .b2i x.rd x.f⟩,
    ⟨"I2B", 0x00000021, 0xFFFFC7FF, fun x => .i2b x.rs1⟩,
    ⟨"STRIP", 0x00000022, 0xFFFFFFFF, fun _ => .strip⟩,
    ⟨"HASH", 0x00000023, 0xFFFFFFFF, fun _ => .hash⟩,
    ⟨"DECBYTES", 0x00000030, 0xFFFFFFFF, fun _ => .decbytes⟩,
    ⟨"ENCBYTES", 0x00000031, 0xFFFFFFFF, fun _ => .encbytes⟩,
    ⟨"SIGN", 0x00000032, 0xFFFFFFFF, fun _ => .sign⟩,
    ⟨"VERIFY", 0x00000033, 0xFFFFFFFF, fun _ => .verify⟩,
    ⟨"VERIFYMSG", 0x00000034, 0xFFFFFFFF, fun _ => .verifymsg⟩ ]

/-- The opcode table (spec/opcode_table.json, 30_encoding.md R83), in its order. -/
def opcodeTable : List Row := montgomeryRows ++ keyRows ++ byteRows

/-- The decoder of 30_encoding.md R84, total on the 32-bit words. The check on a selector is that of
`Instr.wellFormed`. -/
def decode (cw : Word) : Except DecodeError Instr :=
  if field cw 31 27 ≠ 0 then .error .reservedBits
  else
    match opcodeTable.find? (fun r => r.fits cw) with
    | none => .error .noRow
    | some r =>
      let i := r.build (fieldsOf cw)
      if i.wellFormed then .ok i else .error .badSelector

/-- A command word from its fields (30_encoding.md R81, R83). -/
def mkWord (op : Nat) (rd rs1 rs2 rs3 : XReg) (ctx : CtxSlot) (f : Bool) (sel : BitVec 4) : Word :=
  BitVec.ofNat 32 (op + rd.val <<< 8 + rs1.val <<< 11 + rs2.val <<< 14 + rs3.val <<< 17
    + ctx.number <<< 20 + f.toNat <<< 22 + sel.toNat <<< 23)

/-- The word of a command: its opcode, the fields it uses, and 0 in every field it does not use
(30_encoding.md R83, R85). -/
def encode : Instr → Word
  | .mctx rs1 => mkWord 0x01 0 rs1 0 0 .u false 0
  | .tomont rd rs1 c => mkWord 0x02 rd rs1 0 0 c false 0
  | .frommont rd rs1 c => mkWord 0x03 rd rs1 0 0 c false 0
  | .montmul rd rs1 rs2 c => mkWord 0x04 rd rs1 rs2 0 c false 0
  | .ctxrd rd c sel => mkWord 0x05 rd 0 0 0 c false sel
  | .modpow rd rs1 rs2 c => mkWord 0x08 rd rs1 rs2 0 c false 0
  | .loadkey rs1 rs2 rs3 => mkWord 0x10 0 rs1 rs2 rs3 .u false 0
  | .loadkeyd rs1 rs2 => mkWord 0x10 0 rs1 rs2 0 .u true 0
  | .loadpub rs1 rs2 => mkWord 0x11 0 rs1 rs2 0 .u false 0
  | .keyrd rd sel => mkWord 0x12 rd 0 0 0 .u false sel
  | .decrypt rd rs1 => mkWord 0x13 rd rs1 0 0 .u false 0
  | .encrypt rd rs1 => mkWord 0x14 rd rs1 0 0 .u false 0
  | .crtcomb rd rs1 rs2 => mkWord 0x15 rd rs1 rs2 0 .u false 0
  | .b2i rd f => mkWord 0x20 rd 0 0 0 .u f 0
  | .i2b rs1 => mkWord 0x21 0 rs1 0 0 .u false 0
  | .strip => mkWord 0x22 0 0 0 0 .u false 0
  | .hash => mkWord 0x23 0 0 0 0 .u false 0
  | .decbytes => mkWord 0x30 0 0 0 0 .u false 0
  | .encbytes => mkWord 0x31 0 0 0 0 .u false 0
  | .sign => mkWord 0x32 0 0 0 0 .u false 0
  | .verify => mkWord 0x33 0 0 0 0 .u false 0
  | .verifymsg => mkWord 0x34 0 0 0 0 .u false 0

/-- The command of the `nbits` low bits of `w`, every bit above them 0. A command word is one 32-bit
word written whole to CMD (30_encoding.md R80), so bit 0 of `w` is bit 0 of the word. -/
def decodeTableWord (nbits w : Nat) : Option Instr :=
  (decode (BitVec.ofNat 32 (w % 2 ^ nbits))).toOption

end Sys2Proof
end

