-- ==== Sys2Proof/Machine/Arith.lean ====
section
/-!
DEFINITION. The arithmetic and byte-string primitives of spec/00_scope.md R10 and R11. Numbers are
unbounded naturals (R9).
-/

namespace Sys2Proof.Machine

open Sys2Proof

/-- `bitLength(v)`: 0 for 0, otherwise the least n with v < 2^n (R10). -/
def bitLength (v : Nat) : Nat := if v = 0 then 0 else Nat.log2 v + 1

/-- `byteLen(v)`: the "modulus byte-size" of a modulus (R10). -/
def byteLen (v : Nat) : Nat := (bitLength v + 7) / 8

/-- The extended Euclid loop for an inverse mod `m`: `r0`, `r1` are the remainders, and `s0`, `s1` their
multipliers mod `m`. `fuel` at least `r1` is enough. -/
def euclidLoop (m : Nat) : Nat → Nat → Nat → Nat → Nat → Nat
  | 0, _, _, s0, _ => s0
  | fuel + 1, r0, r1, s0, s1 =>
    if r1 = 0 then s0
    else euclidLoop m fuel r1 (r0 % r1) s1 ((s0 + (m - r0 / r1 * s1 % m)) % m)

/-- The y with 0 ≤ y < m and (x·y) mod m = 1 mod m, where one exists: gcd(x mod m, m) = 1 (R10). -/
def modInv (x m : Nat) : Nat := euclidLoop m m m (x % m) 0 (1 % m)

/-- `inv(x, m)`, with `none` for ⊥ (R10). -/
def inv? (x m : Nat) : Option Nat := if Nat.gcd (x % m) m ≠ 1 then none else some (modInv x m)

/-- `int_be(s)`: the first byte is the most significant (R11). -/
def intBe (s : List Byte) : Nat := s.foldl (fun acc b => acc * 256 + b.toNat) 0

/-- `be_bytes(v, L)`: the string of length L whose value is v, for v < 256^L (R11). -/
def beBytes (v : Nat) : Nat → List Byte
  | 0 => []
  | L + 1 => beBytes (v / 256) L ++ [BitVec.ofNat 8 v]

end Sys2Proof.Machine
end

