-- ==== Sys2Proof/Config.lean ====
section
/-!
DEFINITION. What is fixed for one configuration of the block (spec/00_scope.md R7), and the free
values, which the spec leaves open (spec/93_implementation_defined.md I3, I13).
-/

namespace Sys2Proof

/-- Which digest function the configuration has (00_scope.md R7, 41_codec.md R106). -/
inductive DigestAlg where
  /-- SHA-256, the digest the spec names (92_eei_decisions.md D17). -/
  | sha256
  /-- Any other total digest function: its bytes are free values (log 11). -/
  | other
  deriving DecidableEq, Repr

/-- The parameters of 00_scope.md R7. NX = 8 is fixed there and is the type `Fin 8` of a register
number. Constant during a run; held in `State.cfg` (log 1). -/
structure Config where
  /-- MAX_KEY_BITS, the ceiling on bitLength(N). XLEN equals it (R7). -/
  maxKeyBits : Nat
  /-- DMEM_BYTES. -/
  dmemBytes : Nat
  /-- DLEN, the digest length in bytes. -/
  dlen : Nat
  /-- DIGEST. -/
  digestAlg : DigestAlg
  /-- DIGEST_PRESENT. -/
  digestPresent : Bool
  /-- DEFAULT_E, the public exponent of LOADKEYD. -/
  defaultE : Nat
  /-- BASE, the bus address of the register window. -/
  base : Nat
  deriving DecidableEq, Repr

/-- XLEN, the width of a big register, is MAX_KEY_BITS (00_scope.md R7, 10_state.md R21). -/
abbrev Config.xlen (c : Config) : Nat := c.maxKeyBits

/-- The defaults of 00_scope.md R7. BASE is OPEN there: 0 is a DESIGN CHOICE, unsafe if a claim rests
on it (log 2); no statement does. -/
def Config.default : Config where
  maxKeyBits := 1024
  dmemBytes := 4096
  dlen := 32
  digestAlg := .sha256
  digestPresent := true
  defaultE := 65537
  base := 0

/-- The constraints of 00_scope.md R7 on the parameters. SHA-256 has DLEN = 32 (R106). -/
abbrev Config.wf (c : Config) : Prop :=
  (c.maxKeyBits % 32 = 0 ∧ 32 ≤ c.maxKeyBits ∧ c.maxKeyBits ≤ 2048) ∧
  (c.dmemBytes % 4 = 0 ∧ 4 ≤ c.dmemBytes ∧ c.dmemBytes ≤ 57344) ∧
  (1 ≤ c.dlen ∧ c.dlen ≤ 255) ∧
  (c.digestAlg = .sha256 → c.dlen = 32) ∧
  c.defaultE < 2 ^ c.maxKeyBits ∧
  c.base % 0x10000 = 0

/-- FREE VALUE (20_memory.md R68, 93_implementation_defined.md I3): the n-th word that a host read of X,
DMEM or RESULT returns while BUSY. No body: nothing constrains it (log 7). -/
opaque Config.freeWord : Nat → Word

/-- FREE VALUE (00_scope.md R7, 41_codec.md R106): byte j of the digest of a string under a digest
function that is not SHA-256. No body (log 11). -/
opaque Config.otherDigestByte : List Byte → Nat → Byte

end Sys2Proof
end

