-- ==== Sys2Proof/Machine/State.lean ====
section
/-!
DEFINITION. The state of the block (spec/10_state.md R20 to R45), the events that act on it, its state
after power-on reset (spec/70_reset_and_hazards.md R240), and the reasons a step can stop.
-/

namespace Sys2Proof.Machine

open Sys2Proof

/-- The engine's phase (10_state.md R23). -/
inductive Phase where
  | idle
  | busy
  deriving DecidableEq, Repr

/-- The errors a command can complete with (60_exceptions.md R211). Code 0, "None", is `Option.none` of
`State.errcode`; codes 11 to 255 are reserved and never produced. -/
inductive Err where
  /-- Code 1. -/
  | invalidModulus
  /-- Code 2. -/
  | keyTooLarge
  /-- Code 3. -/
  | inputTooLarge
  /-- Code 4: reserved, never raised (60_exceptions.md R212). -/
  | malformedKeyRecord
  /-- Code 5. -/
  | digestUnavailable
  /-- Code 6. -/
  | keyNotInvertible
  /-- Code 7. -/
  | notReady
  /-- Code 8. -/
  | valueTooWide
  /-- Code 9. -/
  | illegalCommand
  /-- Code 10. -/
  | rangeError
  deriving DecidableEq, Repr

/-- A context record (10_state.md R25). `R` is recomputed from `w`, as R25 allows. -/
structure Ctx where
  valid : Bool
  M : Nat
  w : Nat
  Rinv : Nat
  Rminus1 : Nat
  Mstar : Nat
  deriving DecidableEq, Repr

/-- The private-key slot (10_state.md R28). -/
structure Priv where
  valid : Bool
  p : Nat
  q : Nat
  e : Nat
  N : Nat
  d : Nat
  dp : Nat
  dq : Nat
  qInv : Nat
  k : Nat
  deriving DecidableEq, Repr

/-- The public-key slot (10_state.md R30). -/
structure Pub where
  valid : Bool
  N : Nat
  e : Nat
  k : Nat
  deriving DecidableEq, Repr

/-- A slot after reset: `valid = 0`. R240 leaves the other fields unspecified and allows any value, "for
example 0"; no command reads them (DESIGN CHOICE 0, log 9). -/
def Ctx.invalid : Ctx := ⟨false, 0, 0, 0, 0, 0⟩

/-- PRIV after reset (log 9). -/
def Priv.invalid : Priv := ⟨false, 0, 0, 0, 0, 0, 0, 0, 0, 0⟩

/-- PUB after reset (log 9). -/
def Pub.invalid : Pub := ⟨false, 0, 0, 0⟩

/-- DMEM (10_state.md R33): its bytes by address, in the canonical form `Mem.wf` of Machine/Ops.lean; an
address not listed reads `Mem.unlisted`. -/
abbrev Mem := List Host.Cell

/-- What a byte of DMEM that nothing has written reads as. The spec leaves it unspecified (10_state.md
R33, 93_implementation_defined.md I2): DESIGN CHOICE 0, unsafe if a claim rests on it (log 8). -/
def Mem.unlisted : Byte := 0

/-- The size of a host access. Only 32-bit accesses are the block's (20_memory.md R52). -/
inductive Width where
  | byte
  | half
  | word
  deriving DecidableEq, Repr

/-- What can act on the block next (10_state.md R20, 20_memory.md R62, 70_reset_and_hazards.md R240).
Addresses are bus addresses: BASE plus the window offset (20_memory.md R50). -/
inductive Event where
  /-- A host write of `v`. -/
  | write (width : Width) (addr : Nat) (v : Word)
  /-- A host read. -/
  | read (width : Width) (addr : Nat)
  /-- The engine's turn: its completion step, when one is enabled (60_exceptions.md R215). -/
  | engine
  /-- Power-on reset, with whatever DMEM then holds (R240; log 17). -/
  | powerOn (contents : Mem)
  deriving DecidableEq, Repr

/-- The state: the tuple of 10_state.md R45, and four fields of the model's own (`cfg`, `sched`, `reads`,
`draws`). `STATUS.BUSY` is `phase = busy`; IRQ, ID, CFG and DMEMSZ are derived (R45). -/
structure State where
  /-- The configuration (00_scope.md R7), constant during a run (log 1). -/
  cfg : Config
  /-- X0 to X7, naturals below 2^XLEN (R21; log 18). -/
  x : Vector Nat 8
  /-- DMEM (R33). -/
  dmem : Mem
  /-- Context slot U (R26). -/
  ctxU : Ctx
  /-- Context slot P. -/
  ctxP : Ctx
  /-- Context slot Q. -/
  ctxQ : Ctx
  /-- Context slot N. -/
  ctxN : Ctx
  /-- PRIV (R28). -/
  priv : Priv
  /-- PUB (R30). -/
  pub : Pub
  /-- ARG0 to ARG3 (R34). -/
  arg0 : Word
  arg1 : Word
  arg2 : Word
  arg3 : Word
  /-- RESULT (R35). -/
  result : Word
  /-- STATUS.DONE (R36). -/
  done : Bool
  /-- STATUS.ERR (R36). -/
  err : Bool
  /-- STATUS.OVR (R36). -/
  ovr : Bool
  /-- ERRCODE.CODE (R37); `none` is code 0. -/
  errcode : Option Err
  /-- CTRL.IE (R38). -/
  ie : Bool
  /-- The engine phase (R23). -/
  phase : Phase
  /-- The pending command word, which CMD reads (R23, R39). -/
  pend : Word
  /-- The model's own: the events still to come, next first (log 3). -/
  sched : List Event
  /-- The model's own: what the host's reads returned, newest first (log 6). -/
  reads : List Word
  /-- The model's own: how many free words have been drawn (log 7). -/
  draws : Nat
  deriving DecidableEq, Repr

/-- Power-on reset of a block of configuration `cfg` whose DMEM then holds `dmem`: the power-on column of
70_reset_and_hazards.md R240. Slot fields other than `valid` are unspecified there (log 9). -/
def State.powerOn (cfg : Config) (dmem : Mem) : State where
  cfg := cfg
  x := Vector.replicate 8 0
  dmem := dmem
  ctxU := Ctx.invalid
  ctxP := Ctx.invalid
  ctxQ := Ctx.invalid
  ctxN := Ctx.invalid
  priv := Priv.invalid
  pub := Pub.invalid
  arg0 := 0
  arg1 := 0
  arg2 := 0
  arg3 := 0
  result := 0
  done := false
  err := false
  ovr := false
  errcode := none
  ie := false
  phase := .idle
  pend := 0
  sched := []
  reads := []
  draws := 0

/-- The machine right after reset (70_reset_and_hazards.md R240), in the default configuration (00_scope.md
R7) and with no byte of DMEM listed. -/
def State.reset : State := State.powerOn Config.default []

/-- Why the machine stops with a fault. No command raises one: a command error is a completion
(60_exceptions.md R215, R218). -/
inductive Fault where
  /-- Raised by `step` at a host access whose bus address is not in the block's window (20_memory.md R50):
  no address of this block. Safe (log 14). -/
  | outsideWindow
  deriving DecidableEq, Repr

/-- Why a step has no meaning. -/
inductive Refusal where
  /-- Raised by an arm of `exec` that has no meaning yet. Safe. -/
  | notModelled (mnemonic : String)
  /-- Raised by `step` at a host access that is not a 32-bit access at an offset that is a multiple of 4: "A
  model refuses such an access" (20_memory.md R52). Safe (log 13). -/
  | unsupportedAccess
  deriving DecidableEq, Repr

end Sys2Proof.Machine
end

