-- ==== Sys2Proof/Machine/Ops.lean ====
section
/-!
DEFINITION. The named operations over memory, registers and slots (spec/00_scope.md R12), the issue and
completion of a command (spec/60_exceptions.md R215 to R219), and the resets
(spec/70_reset_and_hazards.md R240, R241).
-/

namespace Sys2Proof.Machine

open Sys2Proof

/-! ### DMEM -/

/-- The canonical form: addresses strictly rising, no cell equal to what an unlisted address reads as. -/
abbrev Mem.wf (m : Mem) : Prop :=
  m.Pairwise (fun a b => a.1 < b.1) ∧ ∀ c ∈ m, c.2 ≠ Mem.unlisted

/-- Every listed address is below `n`, the size of DMEM (10_state.md R33). -/
abbrev Mem.below (m : Mem) (n : Nat) : Prop := ∀ c ∈ m, c.1 < n

/-- `DMEM[a]` (00_scope.md R12). -/
def Mem.read : Mem → Nat → Byte
  | [], _ => Mem.unlisted
  | c :: m, a => if c.1 = a then c.2 else Mem.read m a

/-- `DMEM[a] <- b`, keeping the canonical form. -/
def Mem.write : Mem → Nat → Byte → Mem
  | [], a, b => if b = Mem.unlisted then [] else [(a, b)]
  | c :: m, a, b =>
    if a < c.1 then (if b = Mem.unlisted then c :: m else (a, b) :: c :: m)
    else if c.1 = a then (if b = Mem.unlisted then m else (a, b) :: m)
    else c :: Mem.write m a b

/-- `MemRead(a, n)`: the bytes in address order (00_scope.md R12). -/
def Mem.readBytes (m : Mem) (a n : Nat) : List Byte := (List.range n).map fun j => m.read (a + j)

/-- `MemWrite(a, n, s)`, with n the length of `s` (00_scope.md R12). -/
def Mem.writeBytes : Mem → Nat → List Byte → Mem
  | m, _, [] => m
  | m, a, b :: s => Mem.writeBytes (m.write a b) (a + 1) s

/-- The canonical DMEM of `n` bytes that holds the given cells, a later one for an address winning. -/
def Mem.ofCells (n : Nat) (cells : List Host.Cell) : Mem :=
  cells.foldl (fun m c => if c.1 < n then m.write c.1 c.2 else m) []

/-- `MemRead` on the block. -/
def State.memRead (s : State) (a n : Nat) : List Byte := s.dmem.readBytes a n

/-- `MemWrite` on the block. -/
def State.memWrite (s : State) (a : Nat) (bytes : List Byte) : State :=
  { s with dmem := s.dmem.writeBytes a bytes }

/-! ### Registers and slots -/

/-- `X[i]` (00_scope.md R12). -/
def State.getX (s : State) (i : XReg) : Nat := s.x[i]

/-- `X[i] <- v` (00_scope.md R12). -/
def State.setX (s : State) (i : XReg) (v : Nat) : State := { s with x := s.x.set i v }

/-- `RESULT <- v` (00_scope.md R12). Every value a command writes fits 32 bits (log 23). -/
def State.setResult (s : State) (v : Nat) : State := { s with result := BitVec.ofNat 32 v }

/-- The context in a slot (10_state.md R26). -/
def State.ctx (s : State) : CtxSlot → Ctx
  | .u => s.ctxU
  | .p => s.ctxP
  | .q => s.ctxQ
  | .n => s.ctxN

/-- `R = 2^w` (10_state.md R25). -/
def Ctx.R (c : Ctx) : Nat := 2 ^ c.w

/-- `ctx[U] <- c` (42_montgomery.md R125). -/
def State.setCtxU (s : State) (c : Ctx) : State := { s with ctxU := c }

/-- `ctx[N] <- c; PUB <- pub` (44_public_key.md R161): the pair is written together (R160). -/
def State.setPub (s : State) (pub : Pub) (cN : Ctx) : State := { s with pub := pub, ctxN := cN }

/-- `PRIV <- priv; ctx[P] <- cP; ctx[Q] <- cQ` (45_private_key.md R181). -/
def State.setPriv (s : State) (priv : Priv) (cP cQ : Ctx) : State :=
  { s with priv := priv, ctxP := cP, ctxQ := cQ }

/-! ### Completion: success, error, acknowledgement -/

/-- The success branch of the completion step, after the command's writes (60_exceptions.md R215). -/
def State.succeed (s : State) : State :=
  { s with done := true, err := false, errcode := none, phase := .idle }

/-- TAKING AN ERROR, the block's exception entry: the error branch of the completion step. Nothing of the
command is kept; only DONE, ERR, ERRCODE and phase change (60_exceptions.md R215, R216, R218). -/
def State.fail (s : State) (e : Err) : State :=
  { s with done := true, err := true, errcode := some e, phase := .idle }

/-- The completion step of a decoded command on the state `s`, whose pseudocode gave `r`: its writes
applied to `s`, or the code it raised (60_exceptions.md R215). -/
def complete (s : State) (r : Except Err State) : Host.Outcome State Fault Refusal :=
  .next (match r with
    | .ok t => t.succeed
    | .error e => s.fail e)

/-- A host write of `v` to STATUS: bits 1, 2 and 3 are W1C (10_state.md R36). With DONE and ERR this is the
return from an error, its acknowledgement (60_exceptions.md R219). -/
def State.acknowledge (s : State) (v : Word) : State :=
  { s with
    done := s.done && !v.getLsbD 1
    err := s.err && !v.getLsbD 2
    ovr := s.ovr && !v.getLsbD 3 }

/-- A host write dropped because the engine is BUSY (20_memory.md R69). -/
def State.drop (s : State) : State := { s with ovr := true }

/-- The effect of a write that is dropped while BUSY (20_memory.md R69) and gives `t` otherwise. -/
def State.unlessBusy (s t : State) : State :=
  match s.phase with
  | .busy => s.drop
  | .idle => t

/-- The issue of the command word `v` by an idle engine (60_exceptions.md R217). -/
def State.issue (s : State) (v : Word) : State :=
  { s with pend := v, phase := .busy, done := false, err := false, errcode := none }

/-! ### Reset -/

/-- The soft reset: every field of the block but DMEM at its reset value (70_reset_and_hazards.md R241).
The model's own fields are not the block's and stay. -/
def State.softReset (s : State) : State :=
  { State.powerOn s.cfg s.dmem with sched := s.sched, reads := s.reads, draws := s.draws }

/-- A power-on reset after which DMEM holds `contents` (70_reset_and_hazards.md R240). -/
def State.powerOnReset (s : State) (contents : List Host.Cell) : State :=
  { State.powerOn s.cfg (Mem.ofCells s.cfg.dmemBytes contents) with
    sched := s.sched, reads := s.reads, draws := s.draws }

end Sys2Proof.Machine
end

