-- ==== Sys2Proof/Machine/Operands.lean ====
section
/-!
DEFINITION. The operand forms of the commands: DMEM regions (spec/20_memory.md R57), context slots
(spec/42_montgomery.md R135), key slots (spec/44_public_key.md R160), the digest unit
(spec/41_codec.md R107). A form that cannot be had raises the error the spec names.
-/

namespace Sys2Proof.Machine

open Sys2Proof

/-- `if not p: raise e` of the pseudocode. -/
def check (p : Bool) (e : Err) : Except Err Unit := if p then .ok () else .error e

/-- `inRange(a, n)`: the sum is not wrapped (20_memory.md R57). -/
def inRange (cfg : Config) (a n : Nat) : Bool := decide (a + n ≤ cfg.dmemBytes)

/-- A region operand out of range raises RangeError (20_memory.md R57). -/
def State.needRegion (s : State) (a n : Nat) : Except Err Unit := check (inRange s.cfg a n) .rangeError

/-- `getCtx(ctx)`: NotReady when the slot is not valid (42_montgomery.md R135). -/
def State.getCtx (s : State) (c : CtxSlot) : Except Err Ctx :=
  if (s.ctx c).valid then .ok (s.ctx c) else .error .notReady

/-- `if not PUB.valid: raise NotReady` (44_public_key.md R160). -/
def State.needPub (s : State) : Except Err Unit := check s.pub.valid .notReady

/-- `if not PRIV.valid: raise NotReady` (45_private_key.md R185 to R192). -/
def State.needPriv (s : State) : Except Err Unit := check s.priv.valid .notReady

/-- `if not DIGEST_PRESENT: raise DigestUnavailable` (41_codec.md R107). -/
def State.needDigest (s : State) : Except Err Unit := check s.cfg.digestPresent .digestUnavailable

/-- ARG0 to ARG3 as naturals: addresses, lengths and bounds (30_encoding.md R82, R88). -/
def State.argNat (s : State) (i : Fin 4) : Nat :=
  match i with
  | 0 => s.arg0.toNat
  | 1 => s.arg1.toNat
  | 2 => s.arg2.toNat
  | 3 => s.arg3.toNat

end Sys2Proof.Machine
end

