-- ==== Sys2Proof/Machine/Sha256.lean ====
section
/-!
DEFINITION. The digest (spec/41_codec.md R106). The spec names SHA-256 and gives no algorithm: the one
below is that of FIPS 180-4, PRESUMED, unsafe (log 10). Another digest function is a free value (log 11).
-/

namespace Sys2Proof.Machine

open Sys2Proof

namespace Sha

/-! ### The constants, computed from the primes as FIPS 180-4 §4.2.2 and §5.3.3 say -/

/-- The 64 primes below 312: each of the primes up to 17 is the number itself or does not divide it. -/
def primes : List Nat :=
  (List.range' 2 310).filter fun n => [2, 3, 5, 7, 11, 13, 17].all fun d => n == d || n % d != 0

/-- The greatest number whose k-th power is at most `v`, bit by bit from bit `bits` − 1 down, over the bits
`r` found so far. -/
def rootFrom (k v : Nat) : (bits : Nat) → (r : Nat) → Nat
  | 0, r => r
  | bits + 1, r => rootFrom k v bits (if (r + 2 ^ bits) ^ k ≤ v then r + 2 ^ bits else r)

/-- The first 32 bits of the fractional part of the k-th root of `p`, for a root below 16. -/
def rootFraction (k p : Nat) : Word := BitVec.ofNat 32 (rootFrom k (p * 2 ^ (32 * k)) 36 0)

/-- The round constants: cube roots of the 64 primes. -/
def roundConstants : List Word := primes.map (rootFraction 3)

/-- Four of the eight working variables: the newest, and the three before it. -/
structure Half where
  v0 : Word
  v1 : Word
  v2 : Word
  v3 : Word
  deriving DecidableEq, Repr

/-- A new value comes in and the oldest goes. -/
def Half.push (h : Half) (w : Word) : Half := ⟨w, h.v0, h.v1, h.v2⟩

/-- Word by word. -/
def Half.add (g h : Half) : Half := ⟨g.v0 + h.v0, g.v1 + h.v1, g.v2 + h.v2, g.v3 + h.v3⟩

def Half.toList (h : Half) : List Word := [h.v0, h.v1, h.v2, h.v3]

/-- A hash value, or the working variables: FIPS 180-4's a, b, c, d and its e, f, g, h. -/
structure Chain where
  lo : Half
  hi : Half
  deriving DecidableEq, Repr

/-- The initial value: square roots of the first eight primes. -/
def Chain.initial : Chain :=
  ⟨⟨rootFraction 2 2, rootFraction 2 3, rootFraction 2 5, rootFraction 2 7⟩,
    ⟨rootFraction 2 11, rootFraction 2 13, rootFraction 2 17, rootFraction 2 19⟩⟩

/-! ### The compression (FIPS 180-4 §4.1.2, §6.2.2) -/

/-- The exclusive or of `x` rotated right by each amount. -/
def rotations (amounts : List Nat) (x : Word) : Word :=
  amounts.foldl (fun acc n => acc ^^^ x.rotateRight n) 0

/-- Ch: bit by bit, `x` chooses `y` or `z`. -/
def choose (x y z : Word) : Word := (x &&& y) ||| (~~~x &&& z)

/-- Maj: bit by bit, what at least two of the three have. -/
def majority (x y z : Word) : Word := (x &&& (y ||| z)) ||| (y &&& z)

/-- The word of the message schedule that follows sixteen, `w` being their list, oldest first. -/
def nextWord (w : List Word) : Word :=
  let early := w.getD 1 0
  let late := w.getD 14 0
  w.getD 0 0 + (rotations [7, 18] early ^^^ early >>> 3) + w.getD 9 0 + (rotations [17, 19] late ^^^ late >>> 10)

/-- One round, `kw` the sum of its constant and its schedule word. -/
def Chain.round (s : Chain) (kw : Word) : Chain :=
  let t := s.hi.v3 + rotations [6, 11, 25] s.hi.v0 + choose s.hi.v0 s.hi.v1 s.hi.v2 + kw
  ⟨s.lo.push (t + rotations [2, 13, 22] s.lo.v0 + majority s.lo.v0 s.lo.v1 s.lo.v2),
    s.hi.push (s.lo.v3 + t)⟩

/-- The rounds, one per constant; the schedule is a window of sixteen words that moves on by one. -/
def Chain.rounds : List Word → List Word → Chain → Chain
  | [], _, s => s
  | k :: ks, w, s => Chain.rounds ks (w.tail ++ [nextWord w]) (s.round (k + w.headD 0))

/-- One block of sixteen words. -/
def Chain.absorb (s : Chain) (w : List Word) : Chain :=
  let t := Chain.rounds roundConstants w s
  ⟨s.lo.add t.lo, s.hi.add t.hi⟩

/-! ### The message (FIPS 180-4 §5.1.1, §5.2.1, §6.2) -/

/-- How many blocks of 64 bytes hold the message, a 1 bit and the length. -/
def blockCount (s : List Byte) : Nat := (s.length + 72) / 64

/-- The padded message as one number: the message, a 1 bit, zeros, and the length in bits in 64 bits. -/
def padded (s : List Byte) : Nat :=
  (intBe s * 256 + 0x80) * 256 ^ (64 * blockCount s - s.length - 1) + 8 * s.length % 2 ^ 64

/-- The sixteen words of a block of the padded message `m`, with `left` blocks after it. -/
def blockWords (m left : Nat) : List Word :=
  (List.range 16).map fun j => BitVec.ofNat 32 (m >>> (512 * left + 32 * (15 - j)))

/-- The value after `n` blocks more. -/
def Chain.absorbAll (m : Nat) : (n : Nat) → Chain → Chain
  | 0, s => s
  | n + 1, s => Chain.absorbAll m n (s.absorb (blockWords m n))

/-- SHA-256: 32 bytes. -/
def sha256 (s : List Byte) : List Byte :=
  let out := Chain.absorbAll (padded s) (blockCount s) Chain.initial
  (out.lo.toList ++ out.hi.toList).flatMap fun w => beBytes w.toNat 4

end Sha

/-- `DIGEST(s)`: DLEN bytes (41_codec.md R106). -/
def digest (cfg : Config) (s : List Byte) : List Byte :=
  match cfg.digestAlg with
  | .sha256 =>
    let h := Sha.sha256 s
    (List.range cfg.dlen).map fun j => h.getD j 0
  | .other => (List.range cfg.dlen).map (Config.otherDigestByte s)

end Sys2Proof.Machine
end

