-- ==== Sys2Proof/Machine/Codec.lean ====
section
/-!
DEFINITION. bigint_codec: toInteger, toBytes, stripPadding, and the commands B2I, I2B, STRIP, HASH
(spec/41_codec.md).
-/

namespace Sys2Proof.Machine

open Sys2Proof

/-- `toInteger(s, bound)` (R100). -/
def toInteger (s : List Byte) (bound : Option Nat) : Except Err Nat :=
  match bound with
  | none => .ok (intBe s)
  | some b => if s.length > b then .error .inputTooLarge else .ok (intBe s)

/-- `toBytes(v, L)`, step for step: the natural encoding, then the sign byte dropped or zeros added
(R102). -/
def toBytes (v L : Nat) : Except Err (List Byte) :=
  let nat := beBytes v (bitLength v / 8 + 1)
  if nat.length = L + 1 ∧ nat.head? = some 0 then .ok (nat.drop 1)
  else if nat.length ≤ L then .ok (List.replicate (L - nat.length) 0 ++ nat)
  else .error .valueTooWide

/-- `stripPadding(s, n)`: the last n bytes (R104). -/
def stripPadding (s : List Byte) (n : Nat) : Except Err (List Byte) :=
  if n > s.length then .error .rangeError else .ok (s.drop (s.length - n))

/-- The pseudocode of R101. -/
def b2i (rd : XReg) (f : Bool) (s : State) : Except Err State := do
  s.needRegion (s.argNat 0) (s.argNat 1)
  let v ← toInteger (s.memRead (s.argNat 0) (s.argNat 1)) (if f then some (s.argNat 2) else none)
  check (decide (v < 2 ^ s.cfg.xlen)) .inputTooLarge
  return s.setX rd v

/-- B2I (R101). -/
def execB2i (rd : XReg) (f : Bool) (s : State) : Host.Outcome State Fault Refusal :=
  complete s (b2i rd f s)

/-- The pseudocode of R103. -/
def i2b (rs1 : XReg) (s : State) : Except Err State := do
  s.needRegion (s.argNat 0) (s.argNat 1)
  let bytes ← toBytes (s.getX rs1) (s.argNat 1)
  return (s.memWrite (s.argNat 0) bytes).setResult (s.argNat 1)

/-- I2B (R103). -/
def execI2b (rs1 : XReg) (s : State) : Host.Outcome State Fault Refusal := complete s (i2b rs1 s)

/-- The pseudocode of R105. -/
def strip (s : State) : Except Err State := do
  s.needRegion (s.argNat 0) (s.argNat 1)
  s.needRegion (s.argNat 2) (s.argNat 3)
  let t ← stripPadding (s.memRead (s.argNat 0) (s.argNat 1)) (s.argNat 3)
  return (s.memWrite (s.argNat 2) t).setResult (s.argNat 3)

/-- STRIP (R105). -/
def execStrip (s : State) : Host.Outcome State Fault Refusal := complete s (strip s)

/-- The pseudocode of R107. -/
def hash (s : State) : Except Err State := do
  s.needDigest
  s.needRegion (s.argNat 0) (s.argNat 1)
  s.needRegion (s.argNat 2) s.cfg.dlen
  let h := digest s.cfg (s.memRead (s.argNat 0) (s.argNat 1))
  return (s.memWrite (s.argNat 2) h).setResult s.cfg.dlen

/-- HASH (R107). -/
def execHash (s : State) : Host.Outcome State Fault Refusal := complete s (hash s)

end Sys2Proof.Machine
end

