-- ==== Sys2Proof/Machine/Montgomery.lean ====
section
/-!
DEFINITION. montgomery_multiplier: the contexts, the domain transforms, the Montgomery multiply, and the
commands MCTX, TOMONT, FROMMONT, MONTMUL, CTXRD (spec/42_montgomery.md).
-/

namespace Sys2Proof.Machine

open Sys2Proof

/-- `w`: the smallest multiple of 8 that is at least bitLength(M) (R121; 90_conflicts.md C1). -/
def ctxWidth (M : Nat) : Nat := 8 * ((bitLength M + 7) / 8)

/-- `buildCtx(M)` (R120, R122, R123). After the gcd check both inverses exist. -/
def buildCtx (M : Nat) : Except Err Ctx :=
  let w := ctxWidth M
  let R := 2 ^ w
  if M = 0 then .error .invalidModulus
  else if Nat.gcd R M ≠ 1 ∨ R ≤ M then .error .invalidModulus
  else .ok
    { valid := true
      M := M
      w := w
      Rinv := modInv R M
      Rminus1 := R - 1
      Mstar := R - modInv M R }

/-- `toMont(c, a)` (R126). -/
def toMont (c : Ctx) (a : Nat) : Nat := a * c.R % c.M

/-- `fromMont(c, a)` (R128). -/
def fromMont (c : Ctx) (a : Nat) : Nat := a * c.Rinv % c.M

/-- `montMul(c, a, b)`: multiply, mask, multiply-add, shift, conditional final reduction, in this order. A
result equal to M is left unreduced (R130, R132). -/
def montMul (c : Ctx) (a b : Nat) : Nat :=
  let t := a * b
  let k := (t * c.Mstar) &&& c.Rminus1
  let u := (t + k * c.M) >>> c.w
  if u > c.M then u % c.M else u

/-- The pseudocode of R125. -/
def mctx (rs1 : XReg) (s : State) : Except Err State := do
  let c ← buildCtx (s.getX rs1)
  return (s.setCtxU c).setResult c.w

/-- MCTX (R125). -/
def execMctx (rs1 : XReg) (s : State) : Host.Outcome State Fault Refusal := complete s (mctx rs1 s)

/-- The pseudocode of R127. -/
def tomont (rd rs1 : XReg) (ctx : CtxSlot) (s : State) : Except Err State := do
  let c ← s.getCtx ctx
  return s.setX rd (toMont c (s.getX rs1))

/-- TOMONT (R127). -/
def execTomont (rd rs1 : XReg) (ctx : CtxSlot) (s : State) : Host.Outcome State Fault Refusal :=
  complete s (tomont rd rs1 ctx s)

/-- The pseudocode of R129. -/
def frommont (rd rs1 : XReg) (ctx : CtxSlot) (s : State) : Except Err State := do
  let c ← s.getCtx ctx
  return s.setX rd (fromMont c (s.getX rs1))

/-- FROMMONT (R129). -/
def execFrommont (rd rs1 : XReg) (ctx : CtxSlot) (s : State) : Host.Outcome State Fault Refusal :=
  complete s (frommont rd rs1 ctx s)

/-- The pseudocode of R131. -/
def montmul (rd rs1 rs2 : XReg) (ctx : CtxSlot) (s : State) : Except Err State := do
  let c ← s.getCtx ctx
  return s.setX rd (montMul c (s.getX rs1) (s.getX rs2))

/-- MONTMUL (R131). -/
def execMontmul (rd rs1 rs2 : XReg) (ctx : CtxSlot) (s : State) : Host.Outcome State Fault Refusal :=
  complete s (montmul rd rs1 rs2 ctx s)

/-- The constant a CTXRD selector names; 5 to 15 are IllegalCommand (R133; 30_encoding.md R84; log 15). -/
def ctxField (c : Ctx) (sel : BitVec 4) : Except Err Nat :=
  match sel.toNat with
  | 0 => .ok c.M
  | 1 => .ok c.w
  | 2 => .ok c.Rinv
  | 3 => .ok c.Rminus1
  | 4 => .ok c.Mstar
  | _ => .error .illegalCommand

/-- The pseudocode of R133; the selector check is decode's and comes first (30_encoding.md R84). -/
def ctxrd (rd : XReg) (ctx : CtxSlot) (sel : BitVec 4) (s : State) : Except Err State := do
  check (ctxSelLegal sel) .illegalCommand
  let c ← s.getCtx ctx
  let v ← ctxField c sel
  return s.setX rd v

/-- CTXRD (R133). -/
def execCtxrd (rd : XReg) (ctx : CtxSlot) (sel : BitVec 4) (s : State) :
    Host.Outcome State Fault Refusal :=
  complete s (ctxrd rd ctx sel s)

end Sys2Proof.Machine
end

