-- ==== Sys2Proof/Machine/Modexp.lean ====
section
/-!
DEFINITION. modular_exponentiator: modPow and the command MODPOW (spec/43_modexp.md).
-/

namespace Sys2Proof.Machine

open Sys2Proof

/-- The loop of R150 over the bits n − 1 down to 0 of `exp`, from the accumulator `x`: always a square, and
a multiply by the base when the bit is set. -/
def modPowLoop (c : Ctx) (bBar exp : Nat) : Nat → Nat → Nat
  | 0, x => x
  | i + 1, x =>
    let sq := montMul c x x
    modPowLoop c bBar exp i (if exp.testBit i then montMul c sq bBar else sq)

/-- `modPow(c, base, exp)` (R150): the accumulator starts at the Montgomery form of 1. -/
def modPow (c : Ctx) (base exp : Nat) : Nat :=
  fromMont c (modPowLoop c (toMont c base) exp (bitLength exp) (toMont c 1))

/-- The pseudocode of R151. -/
def modpow (rd rs1 rs2 : XReg) (ctx : CtxSlot) (s : State) : Except Err State := do
  let c ← s.getCtx ctx
  return s.setX rd (modPow c (s.getX rs1) (s.getX rs2))

/-- MODPOW (R151). -/
def execModpow (rd rs1 rs2 : XReg) (ctx : CtxSlot) (s : State) : Host.Outcome State Fault Refusal :=
  complete s (modpow rd rs1 rs2 ctx s)

end Sys2Proof.Machine
end

