-- ==== Sys2Proof/Machine/PrivateKey.lean ====
section
/-!
DEFINITION. crt_decryption_combiner and signing: LOADKEY, LOADKEYD, KEYRD, CRTCOMB, DECRYPT, DECBYTES, SIGN
(spec/45_private_key.md).
-/

namespace Sys2Proof.Machine

open Sys2Proof

/-- What `keyBuild` returns (R180). -/
structure KeyBundle where
  priv : Priv
  cP : Ctx
  cQ : Ctx
  cN : Ctx
  pub : Pub
  deriving DecidableEq, Repr

/-- `d <- inv(...); if d = ⊥: raise KeyNotInvertible` (R180). -/
def needInverse (x m : Nat) : Except Err Nat :=
  match inv? x m with
  | some y => .ok y
  | none => .error .keyNotInvertible

/-- `keyBuild(p, q, e)`, its checks in the order of R180 (92_eei_decisions.md D54). -/
def keyBuild (cfg : Config) (p q e : Nat) : Except Err KeyBundle := do
  check (p != 0 && q != 0) .invalidModulus
  let phi := (p - 1) * (q - 1)
  check (phi != 0) .keyNotInvertible
  let d ← needInverse e phi
  let qInv ← needInverse q p
  let cP ← buildCtx p
  let cQ ← buildCtx q
  let N := p * q
  let cN ← buildCtx N
  check (decide (bitLength N ≤ cfg.maxKeyBits)) .keyTooLarge
  return {
    priv := { valid := true, p := p, q := q, e := e, N := N, d := d, dp := d % (p - 1),
              dq := d % (q - 1), qInv := qInv, k := byteLen N }
    cP := cP
    cQ := cQ
    cN := cN
    pub := { valid := true, N := N, e := e, k := byteLen N } }

/-- The writes of a successful key load (R181): both key slots and the contexts P, Q and N. -/
def State.loadKey (s : State) (b : KeyBundle) : State :=
  ((s.setPriv b.priv b.cP b.cQ).setPub b.pub b.cN).setResult b.priv.k

/-- The pseudocode of R181. -/
def loadkey (rs1 rs2 rs3 : XReg) (s : State) : Except Err State := do
  let b ← keyBuild s.cfg (s.getX rs1) (s.getX rs2) (s.getX rs3)
  return s.loadKey b

/-- LOADKEY (R181). -/
def execLoadkey (rs1 rs2 rs3 : XReg) (s : State) : Host.Outcome State Fault Refusal :=
  complete s (loadkey rs1 rs2 rs3 s)

/-- The pseudocode of R183. -/
def loadkeyd (rs1 rs2 : XReg) (s : State) : Except Err State := do
  let b ← keyBuild s.cfg (s.getX rs1) (s.getX rs2) s.cfg.defaultE
  return s.loadKey b

/-- LOADKEYD (R183). -/
def execLoadkeyd (rs1 rs2 : XReg) (s : State) : Host.Outcome State Fault Refusal :=
  complete s (loadkeyd rs1 rs2 s)

/-- The value a KEYRD selector names, and the slot it needs (R184); 10 to 15 are IllegalCommand
(30_encoding.md R84; log 15). -/
def State.keyField (s : State) (sel : BitVec 4) : Except Err Nat :=
  match sel.toNat with
  | 0 => .ok s.priv.N
  | 1 => .ok s.priv.e
  | 2 => .ok s.priv.p
  | 3 => .ok s.priv.q
  | 4 => .ok s.priv.d
  | 5 => .ok s.priv.dp
  | 6 => .ok s.priv.dq
  | 7 => .ok s.priv.qInv
  | 8 => .ok s.pub.N
  | 9 => .ok s.pub.e
  | _ => .error .illegalCommand

/-- The pseudocode of R185; the selector check is decode's and comes first (30_encoding.md R84). -/
def keyrd (rd : XReg) (sel : BitVec 4) (s : State) : Except Err State := do
  check (keySelLegal sel) .illegalCommand
  check (decide (8 ≤ sel.toNat) || s.priv.valid) .notReady
  check (decide (sel.toNat ≤ 7) || s.pub.valid) .notReady
  let v ← s.keyField sel
  return s.setX rd v

/-- KEYRD (R185). -/
def execKeyrd (rd : XReg) (sel : BitVec 4) (s : State) : Host.Outcome State Fault Refusal :=
  complete s (keyrd rd sel s)

/-- `crtComb(m1, m2)`, with the floor modulo of 00_scope.md R10 (R186). -/
def crtComb (k : Priv) (m1 m2 : Nat) : Nat :=
  let h := ((k.qInv : Int) * ((m1 : Int) - (m2 : Int)) % (k.p : Int)).toNat
  m2 + h * k.q

/-- The pseudocode of R187. -/
def crtcomb (rd rs1 rs2 : XReg) (s : State) : Except Err State := do
  s.needPriv
  let v := crtComb s.priv (s.getX rs1) (s.getX rs2)
  check (decide (v < 2 ^ s.cfg.xlen)) .valueTooWide
  return s.setX rd v

/-- CRTCOMB (R187). -/
def execCrtcomb (rd rs1 rs2 : XReg) (s : State) : Host.Outcome State Fault Refusal :=
  complete s (crtcomb rd rs1 rs2 s)

/-- `decrypt(c)`: the CRT path, over contexts P and Q only (R188, R189). -/
def State.decryptVal (s : State) (c : Nat) : Nat :=
  crtComb s.priv (modPow s.ctxP c s.priv.dp) (modPow s.ctxQ c s.priv.dq)

/-- The pseudocode of R189. -/
def decrypt (rd rs1 : XReg) (s : State) : Except Err State := do
  s.needPriv
  return s.setX rd (s.decryptVal (s.getX rs1))

/-- DECRYPT (R189). -/
def execDecrypt (rd rs1 : XReg) (s : State) : Host.Outcome State Fault Refusal :=
  complete s (decrypt rd rs1 s)

/-- The pseudocode of R190. -/
def decbytes (s : State) : Except Err State := do
  s.needPriv
  s.needRegion (s.argNat 0) (s.argNat 1)
  s.needRegion (s.argNat 2) s.priv.k
  let c ← toInteger (s.memRead (s.argNat 0) (s.argNat 1)) (some s.priv.k)
  let bytes ← toBytes (s.decryptVal c) s.priv.k
  return (s.memWrite (s.argNat 2) bytes).setResult s.priv.k

/-- DECBYTES (R190). -/
def execDecbytes (s : State) : Host.Outcome State Fault Refusal := complete s (decbytes s)

/-- The pseudocode of R192: the digest is a "ciphertext" with no bound. -/
def sign (s : State) : Except Err State := do
  s.needDigest
  s.needPriv
  s.needRegion (s.argNat 0) (s.argNat 1)
  s.needRegion (s.argNat 2) s.priv.k
  let h := intBe (digest s.cfg (s.memRead (s.argNat 0) (s.argNat 1)))
  let bytes ← toBytes (s.decryptVal h) s.priv.k
  return (s.memWrite (s.argNat 2) bytes).setResult s.priv.k

/-- SIGN (R192). -/
def execSign (s : State) : Host.Outcome State Fault Refusal := complete s (sign s)

end Sys2Proof.Machine
end

