-- ==== Sys2Proof/Machine/PublicKey.lean ====
section
/-!
DEFINITION. rsa_sign_verify_engine, the public-key side: LOADPUB, ENCRYPT, ENCBYTES, VERIFY, VERIFYMSG
(spec/44_public_key.md).
-/

namespace Sys2Proof.Machine

open Sys2Proof

/-- The pseudocode of R161. -/
def loadpub (rs1 rs2 : XReg) (s : State) : Except Err State := do
  let N := s.getX rs1
  let e := s.getX rs2
  let c ← buildCtx N
  return (s.setPub { valid := true, N := N, e := e, k := byteLen N } c).setResult (byteLen N)

/-- LOADPUB (R161). -/
def execLoadpub (rs1 rs2 : XReg) (s : State) : Host.Outcome State Fault Refusal :=
  complete s (loadpub rs1 rs2 s)

/-- `encrypt(m)`, over context N with the exponent of PUB (R162). -/
def State.encryptVal (s : State) (m : Nat) : Nat := modPow s.ctxN m s.pub.e

/-- The pseudocode of R163. -/
def encrypt (rd rs1 : XReg) (s : State) : Except Err State := do
  s.needPub
  return s.setX rd (s.encryptVal (s.getX rs1))

/-- ENCRYPT (R163). -/
def execEncrypt (rd rs1 : XReg) (s : State) : Host.Outcome State Fault Refusal :=
  complete s (encrypt rd rs1 s)

/-- `encryptBytes(b)` (R164). -/
def State.encryptBytes (s : State) (b : List Byte) : Except Err (List Byte) := do
  let m ← toInteger b (some s.pub.k)
  toBytes (s.encryptVal m) s.pub.k

/-- The pseudocode of R165. -/
def encbytes (s : State) : Except Err State := do
  s.needPub
  s.needRegion (s.argNat 0) (s.argNat 1)
  s.needRegion (s.argNat 2) s.pub.k
  let c ← s.encryptBytes (s.memRead (s.argNat 0) (s.argNat 1))
  return (s.memWrite (s.argNat 2) c).setResult s.pub.k

/-- ENCBYTES (R165). -/
def execEncbytes (s : State) : Host.Outcome State Fault Refusal := complete s (encbytes s)

/-- `verify(sig, dig)`: the last DLEN bytes of sig^e mod N against the digest (R166). -/
def State.verifyVal (s : State) (sig dig : List Byte) : Except Err Nat := do
  let v ← toInteger sig (some s.pub.k)
  let bytes ← toBytes (s.encryptVal v) (max s.pub.k s.cfg.dlen)
  let t ← stripPadding bytes s.cfg.dlen
  return if dig.length = s.cfg.dlen ∧ t = dig then 1 else 0

/-- The pseudocode of R167. -/
def verify (s : State) : Except Err State := do
  s.needPub
  s.needRegion (s.argNat 0) (s.argNat 1)
  s.needRegion (s.argNat 2) (s.argNat 3)
  let r ← s.verifyVal (s.memRead (s.argNat 0) (s.argNat 1)) (s.memRead (s.argNat 2) (s.argNat 3))
  return s.setResult r

/-- VERIFY (R167). -/
def execVerify (s : State) : Host.Outcome State Fault Refusal := complete s (verify s)

/-- The pseudocode of R169. -/
def verifymsg (s : State) : Except Err State := do
  s.needDigest
  s.needPub
  s.needRegion (s.argNat 0) (s.argNat 1)
  s.needRegion (s.argNat 2) (s.argNat 3)
  let D := digest s.cfg (s.memRead (s.argNat 0) (s.argNat 1))
  let r ← s.verifyVal (s.memRead (s.argNat 2) (s.argNat 3)) D
  return s.setResult r

/-- VERIFYMSG (R169). -/
def execVerifymsg (s : State) : Host.Outcome State Fault Refusal := complete s (verifymsg s)

end Sys2Proof.Machine
end

