-- ==== Sys2Proof/Machine/Dispatch.lean ====
section
/-! DEFINITION. The completion step of a decoded command (spec/60_exceptions.md R215), arm by arm. -/

namespace Sys2Proof.Machine

open Sys2Proof

def exec (i : Instr) (s : State) : Host.Outcome State Fault Refusal :=
  match i with
  -- montgomery_multiplier
  | .mctx rs1 => Sys2Proof.Machine.execMctx rs1 s
  | .tomont rd rs1 ctx => Sys2Proof.Machine.execTomont rd rs1 ctx s
  | .frommont rd rs1 ctx => Sys2Proof.Machine.execFrommont rd rs1 ctx s
  | .montmul rd rs1 rs2 ctx => Sys2Proof.Machine.execMontmul rd rs1 rs2 ctx s
  | .ctxrd rd ctx sel => Sys2Proof.Machine.execCtxrd rd ctx sel s
  -- modular_exponentiator
  | .modpow rd rs1 rs2 ctx => Sys2Proof.Machine.execModpow rd rs1 rs2 ctx s
  -- crt_decryption_combiner and rsa_sign_verify_engine
  | .loadkey rs1 rs2 rs3 => Sys2Proof.Machine.execLoadkey rs1 rs2 rs3 s
  | .loadkeyd rs1 rs2 => Sys2Proof.Machine.execLoadkeyd rs1 rs2 s
  | .loadpub rs1 rs2 => Sys2Proof.Machine.execLoadpub rs1 rs2 s
  | .keyrd rd sel => Sys2Proof.Machine.execKeyrd rd sel s
  | .decrypt rd rs1 => Sys2Proof.Machine.execDecrypt rd rs1 s
  | .encrypt rd rs1 => Sys2Proof.Machine.execEncrypt rd rs1 s
  | .crtcomb rd rs1 rs2 => Sys2Proof.Machine.execCrtcomb rd rs1 rs2 s
  -- bigint_codec
  | .b2i rd f => Sys2Proof.Machine.execB2i rd f s
  | .i2b rs1 => Sys2Proof.Machine.execI2b rs1 s
  | .strip => Sys2Proof.Machine.execStrip s
  | .hash => Sys2Proof.Machine.execHash s
  -- the byte forms of the key commands
  | .decbytes => Sys2Proof.Machine.execDecbytes s
  | .encbytes => Sys2Proof.Machine.execEncbytes s
  | .sign => Sys2Proof.Machine.execSign s
  | .verify => Sys2Proof.Machine.execVerify s
  | .verifymsg => Sys2Proof.Machine.execVerifymsg s

end Sys2Proof.Machine
end

