-- ==== Sys2Proof/Machine/Flags.lean ====
section
/-!
DEFINITION. The words the status and control registers read as, and the IRQ line (spec/10_state.md R36 to
R43). The block has no arithmetic flags (R44).
-/

namespace Sys2Proof.Machine

open Sys2Proof

/-- The error codes (60_exceptions.md R211). -/
def Err.code : Err → Nat
  | .invalidModulus => 1
  | .keyTooLarge => 2
  | .inputTooLarge => 3
  | .malformedKeyRecord => 4
  | .digestUnavailable => 5
  | .keyNotInvertible => 6
  | .notReady => 7
  | .valueTooWide => 8
  | .illegalCommand => 9
  | .rangeError => 10

/-- STATUS.BUSY is `phase = BUSY` (10_state.md R36, R45). -/
def State.busy (s : State) : Bool :=
  match s.phase with
  | .idle => false
  | .busy => true

/-- STATUS (10_state.md R36). -/
def State.statusWord (s : State) : Word :=
  BitVec.ofNat 32 (s.busy.toNat + s.done.toNat <<< 1 + s.err.toNat <<< 2 + s.ovr.toNat <<< 3)

/-- ERRCODE (10_state.md R37). -/
def State.errcodeWord (s : State) : Word :=
  BitVec.ofNat 32 (match s.errcode with
    | none => 0
    | some e => e.code)

/-- CTRL: SRST reads 0 (10_state.md R38). -/
def State.ctrlWord (s : State) : Word := BitVec.ofNat 32 (s.ie.toNat <<< 1)

/-- ID: ASCII "STAC" (10_state.md R40). -/
def idWord : Word := 0x53544143

/-- CFG (10_state.md R41), with NX − 1 = 7. -/
def cfgWord (c : Config) : Word :=
  BitVec.ofNat 32 (c.maxKeyBits + c.dlen <<< 16 + c.digestPresent.toNat <<< 24 + 7 <<< 25)

/-- The level of the IRQ line (10_state.md R43, 60_exceptions.md R221). -/
def State.irq (s : State) : Bool := s.ie && s.done

end Sys2Proof.Machine
end

