-- ==== Sys2Proof/Machine/Window.lean ====
section
/-!
DEFINITION. The register window: what each offset names, what a host read returns and what a host write
does (spec/20_memory.md R50 to R56, R61, R68, R69; spec/10_state.md R34 to R42).
-/

namespace Sys2Proof.Machine

open Sys2Proof

/-- What a window offset names (20_memory.md R51). -/
inductive WinReg where
  | id
  | cfg
  | dmemsz
  | ctrl
  | cmd
  | status
  | errcode
  | result
  | arg (i : Fin 4)
  /-- Word j of X[i], 0 ≤ j < 64. -/
  | xword (i : XReg) (j : Nat)
  /-- The DMEM bytes a to a + 3. -/
  | dmem (a : Nat)
  | reserved
  deriving DecidableEq, Repr

/-- The named registers below 0x1000 (20_memory.md R51). -/
def controlReg (off : Nat) : WinReg :=
  match off with
  | 0x00 => .id
  | 0x04 => .cfg
  | 0x08 => .dmemsz
  | 0x10 => .ctrl
  | 0x14 => .cmd
  | 0x18 => .status
  | 0x1C => .errcode
  | 0x20 => .result
  | 0x30 => .arg 0
  | 0x34 => .arg 1
  | 0x38 => .arg 2
  | 0x3C => .arg 3
  | _ => .reserved

/-- The map of 20_memory.md R51, for an offset that is a multiple of 4 below 0x10000. -/
def winReg (cfg : Config) (off : Nat) : WinReg :=
  if off < 0x1000 then controlReg off
  else if off < 0x1800 then .xword (Fin.ofNat 8 ((off - 0x1000) / 0x100)) (off % 0x100 / 4)
  else if off < 0x2000 then .reserved
  else if off - 0x2000 < cfg.dmemBytes then .dmem (off - 0x2000)
  else .reserved

/-- Word j of a big register (20_memory.md R54); words at XLEN/32 and above read 0 (R55). -/
def xWord (cfg : Config) (v j : Nat) : Word :=
  if j < cfg.xlen / 32 then BitVec.ofNat 32 (v >>> (32 * j)) else 0

/-- A big register after a write of `w` to its word j (20_memory.md R54, R55): those 32 bits are replaced. -/
def setXWord (cfg : Config) (v j : Nat) (w : Word) : Nat :=
  if j < cfg.xlen / 32 then
    v % 2 ^ (32 * j) + w.toNat * 2 ^ (32 * j) + v / 2 ^ (32 * (j + 1)) * 2 ^ (32 * (j + 1))
  else v

/-- The DMEM word at a: byte a in the low lane (20_memory.md R56). -/
def dmemWord (m : Mem) (a : Nat) : Word :=
  BitVec.ofNat 32 ((m.read a).toNat + (m.read (a + 1)).toNat <<< 8 + (m.read (a + 2)).toNat <<< 16
    + (m.read (a + 3)).toNat <<< 24)

/-- The four bytes of a word written to the DMEM window, low lane first (20_memory.md R56). -/
def laneBytes (w : Word) : List Byte :=
  [w.extractLsb' 0 8, w.extractLsb' 8 8, w.extractLsb' 16 8, w.extractLsb' 24 8]

/-- The value an ARG register holds (10_state.md R34). -/
def State.getArg (s : State) (i : Fin 4) : Word :=
  match i with
  | 0 => s.arg0
  | 1 => s.arg1
  | 2 => s.arg2
  | 3 => s.arg3

/-- A write to an ARG register (10_state.md R34). -/
def State.setArg (s : State) (i : Fin 4) (v : Word) : State :=
  match i with
  | 0 => { s with arg0 := v }
  | 1 => { s with arg1 := v }
  | 2 => { s with arg2 := v }
  | 3 => { s with arg3 := v }

/-- What a register of the window reads as, for an idle engine (10_state.md R34 to R42; 20_memory.md R53 to
R56). -/
def State.regValue (s : State) : WinReg → Word
  | .id => idWord
  | .cfg => cfgWord s.cfg
  | .dmemsz => BitVec.ofNat 32 s.cfg.dmemBytes
  | .ctrl => s.ctrlWord
  | .cmd => s.pend
  | .status => s.statusWord
  | .errcode => s.errcodeWord
  | .result => s.result
  | .arg i => s.getArg i
  | .xword i j => xWord s.cfg (s.getX i) j
  | .dmem a => dmemWord s.dmem a
  | .reserved => 0

/-- Whose reads are unspecified while BUSY: any X word, any DMEM word, RESULT (20_memory.md R68). Words
above XLEN are X words here too (log 12). -/
def WinReg.freeWhileBusy : WinReg → Bool
  | .result => true
  | .xword _ _ => true
  | .dmem _ => true
  | _ => false

/-- A host read of an aligned word at a window offset: the value goes to the host, and nothing of the block
changes (20_memory.md R61). An unspecified value is a draw (R68, log 7). -/
def State.hostRead (s : State) (off : Nat) : State :=
  let r := winReg s.cfg off
  if s.busy && r.freeWhileBusy then
    { s with reads := Config.freeWord s.draws :: s.reads, draws := s.draws + 1 }
  else { s with reads := s.regValue r :: s.reads }

/-- A host write of an aligned word at a window offset. Read-only and reserved offsets ignore it
(20_memory.md R53); CTRL and STATUS take it always, and CMD, ARG, X and DMEM only while IDLE (R69). -/
def State.hostWrite (s : State) (off : Nat) (v : Word) : State :=
  match winReg s.cfg off with
  | .ctrl => if v.getLsbD 0 then s.softReset else { s with ie := v.getLsbD 1 }
  | .status => s.acknowledge v
  | .cmd => s.unlessBusy (s.issue v)
  | .arg i => s.unlessBusy (s.setArg i v)
  | .xword i j => s.unlessBusy (s.setX i (setXWord s.cfg (s.getX i) j v))
  | .dmem a => s.unlessBusy (s.memWrite a (laneBytes v))
  | .id => s
  | .cfg => s
  | .dmemsz => s
  | .errcode => s
  | .result => s
  | .reserved => s

/-- The window offset of a bus access, or why it is none: the block's window is 64 KiB at BASE
(20_memory.md R50; log 14), and a model refuses an access that is not 32 bits wide at a multiple of 4
(R52; log 13). -/
def busOffset (cfg : Config) (width : Width) (addr : Nat) :
    Except (Host.Outcome State Fault Refusal) Nat :=
  if addr < cfg.base ∨ cfg.base + 0x10000 ≤ addr then .error (.fault .outsideWindow)
  else if width ≠ .word ∨ (addr - cfg.base) % 4 ≠ 0 then .error (.refused .unsupportedAccess)
  else .ok (addr - cfg.base)

/-- A host read on the bus. -/
def busRead (width : Width) (addr : Nat) (s : State) : Host.Outcome State Fault Refusal :=
  match busOffset s.cfg width addr with
  | .ok off => .next (s.hostRead off)
  | .error stop => stop

/-- A host write on the bus. -/
def busWrite (width : Width) (addr : Nat) (v : Word) (s : State) : Host.Outcome State Fault Refusal :=
  match busOffset s.cfg width addr with
  | .ok off => .next (s.hostWrite off v)
  | .error stop => stop

end Sys2Proof.Machine
end

