-- ==== Sys2Proof/Machine/Engine.lean ====
section
/-!
DEFINITION. The engine's turn and the other events of the block's one total order
(spec/20_memory.md R62; spec/60_exceptions.md R215).
-/

namespace Sys2Proof.Machine

open Sys2Proof

/-- The completion step of the pending word: decode first, IllegalCommand when it is no command
(60_exceptions.md R215, 30_encoding.md R84). -/
def completePending (s : State) : Host.Outcome State Fault Refusal :=
  match decode s.pend with
  | .ok i => exec i s
  | .error _ => .next (s.fail .illegalCommand)

/-- The engine's turn: its completion step, enabled while BUSY (60_exceptions.md R215). An idle engine has
nothing to do, and the block stays as it is (log 5). -/
def engineTurn (s : State) : Host.Outcome State Fault Refusal :=
  match s.phase with
  | .busy => completePending s
  | .idle => .next s

/-- One event acts on the block. -/
def act (e : Event) (s : State) : Host.Outcome State Fault Refusal :=
  match e with
  | .write width addr v => busWrite width addr v s
  | .read width addr => busRead width addr s
  | .engine => engineTurn s
  | .powerOn contents => .next (s.powerOnReset contents)

/-- The host's write of the word `w` to CMD of an idle engine, and the engine's turn next: what it takes for
the very next step to complete `w` (60_exceptions.md R215, R217; log 16). -/
def State.place (s : State) (w : Word) : State :=
  { s.issue w with sched := .engine :: s.sched }

end Sys2Proof.Machine
end

