-- ==== Sys2Proof/Machine/Step.lean ====
section
/-! DEFINITION. One step: the next event of the schedule, or, when none is left, the engine's turn. -/

namespace Sys2Proof.Machine

open Sys2Proof

/-- One step of the block. The events of `sched` come in their order (20_memory.md R62); when the host has no
access left the engine moves, so every issued command completes (70_reset_and_hazards.md R252; log 4). -/
def step (s : State) : Host.Outcome State Fault Refusal :=
  match s.sched with
  | [] => engineTurn s
  | e :: rest => act e { s with sched := rest }

/-- `s` with the command of the `nbits` low bits of `w`, every bit above them 0, issued and about to
complete: the block has no program counter, and a command runs when its word is written to CMD (10_state.md
R22; log 3, log 16). -/
def State.withFetchWord (s : State) (nbits w : Nat) : State := s.place (BitVec.ofNat 32 (w % 2 ^ nbits))

end Sys2Proof.Machine
end

