-- ==== Sys2Proof/Machine/Driver.lean ====
section
/-!
DEFINITION. The notation of host programs: the assembler syntax of spec/30_encoding.md R90, and the
pseudo-instructions of R91 as lists of events. They are written in the host's program and are no part of
the block.
-/

namespace Sys2Proof.Machine

open Sys2Proof

/-! ### R90 -/

/-- `x0` to `x7`. -/
def asmReg (r : XReg) : String := "x" ++ toString r.val

/-- The context suffix. -/
def asmCtx : CtxSlot → String
  | .u => ".U"
  | .p => ".P"
  | .q => ".Q"
  | .n => ".N"

/-- The selector names of CTXRD, 0 to 4. -/
def asmCtxSel (sel : BitVec 4) : String := ["M", "W", "RINV", "RMINUS1", "MSTAR"].getD sel.toNat "?"

/-- The selector names of KEYRD, 0 to 9. -/
def asmKeySel (sel : BitVec 4) : String :=
  ["N", "E", "P", "Q", "D", "DP", "DQ", "QINV", "PUBN", "PUBE"].getD sel.toNat "?"

/-- A mnemonic and its operands. -/
def asmLine (mnemonic : String) (operands : List String) : String :=
  mnemonic ++ " " ++ String.intercalate ", " operands

/-- The assembly of a command (R90), operands in field order. -/
def asm : Instr → String
  | .mctx rs1 => asmLine "MCTX" [asmReg rs1]
  | .tomont rd rs1 c => asmLine ("TOMONT" ++ asmCtx c) [asmReg rd, asmReg rs1]
  | .frommont rd rs1 c => asmLine ("FROMMONT" ++ asmCtx c) [asmReg rd, asmReg rs1]
  | .montmul rd rs1 rs2 c => asmLine ("MONTMUL" ++ asmCtx c) [asmReg rd, asmReg rs1, asmReg rs2]
  | .ctxrd rd c sel => asmLine ("CTXRD" ++ asmCtx c) [asmReg rd, asmCtxSel sel]
  | .modpow rd rs1 rs2 c => asmLine ("MODPOW" ++ asmCtx c) [asmReg rd, asmReg rs1, asmReg rs2]
  | .loadkey rs1 rs2 rs3 => asmLine "LOADKEY" [asmReg rs1, asmReg rs2, asmReg rs3]
  | .loadkeyd rs1 rs2 => asmLine "LOADKEYD" [asmReg rs1, asmReg rs2]
  | .loadpub rs1 rs2 => asmLine "LOADPUB" [asmReg rs1, asmReg rs2]
  | .keyrd rd sel => asmLine "KEYRD" [asmReg rd, asmKeySel sel]
  | .decrypt rd rs1 => asmLine "DECRYPT" [asmReg rd, asmReg rs1]
  | .encrypt rd rs1 => asmLine "ENCRYPT" [asmReg rd, asmReg rs1]
  | .crtcomb rd rs1 rs2 => asmLine "CRTCOMB" [asmReg rd, asmReg rs1, asmReg rs2]
  | .b2i rd f => asmLine (if f then "B2I.B" else "B2I") [asmReg rd]
  | .i2b rs1 => asmLine "I2B" [asmReg rs1]
  | .strip => "STRIP"
  | .hash => "HASH"
  | .decbytes => "DECBYTES"
  | .encbytes => "ENCBYTES"
  | .sign => "SIGN"
  | .verify => "VERIFY"
  | .verifymsg => "VERIFYMSG"

/-! ### R91 -/

/-- `W off, v`: one 32-bit write at BASE + off. -/
def evW (cfg : Config) (off : Nat) (v : Word) : Event := .write .word (cfg.base + off) v

/-- `R off`: one 32-bit read at BASE + off. -/
def evR (cfg : Config) (off : Nat) : Event := .read .word (cfg.base + off)

/-- `LDX xi, v`. -/
def evLdx (cfg : Config) (i : XReg) (v : Nat) : List Event :=
  (List.range (cfg.xlen / 32)).map fun j =>
    evW cfg (0x1000 + 0x100 * i.val + 4 * j) (BitVec.ofNat 32 (v >>> (32 * j)))

/-- `RDX xi`. -/
def evRdx (cfg : Config) (i : XReg) : List Event :=
  (List.range (cfg.xlen / 32)).map fun j => evR cfg (0x1000 + 0x100 * i.val + 4 * j)

/-- `ARGS a0, a1, a2, a3`. -/
def evArgs (cfg : Config) (a0 a1 a2 a3 : Word) : List Event :=
  [evW cfg 0x30 a0, evW cfg 0x34 a1, evW cfg 0x38 a2, evW cfg 0x3C a3]

/-- `PUTB a, s`, a a multiple of 4: the string in 4-byte groups, padded with zero bytes. -/
def evPutb (cfg : Config) (a : Nat) (s : List Byte) : List Event :=
  (List.range ((s.length + 3) / 4)).map fun g =>
    evW cfg (0x2000 + a + 4 * g)
      (BitVec.ofNat 32 ((s.getD (4 * g) 0).toNat + (s.getD (4 * g + 1) 0).toNat <<< 8
        + (s.getD (4 * g + 2) 0).toNat <<< 16 + (s.getD (4 * g + 3) 0).toNat <<< 24))

/-- `GETB a, n`: reads of the words that cover the n bytes from a. -/
def evGetb (cfg : Config) (a n : Nat) : List Event :=
  if n = 0 then [] else
    (List.range ((a % 4 + n + 3) / 4)).map fun g => evR cfg (0x2000 + a / 4 * 4 + 4 * g)

/-- `EXEC` of the command word `w`: the CMD write, then WAIT. The engine's turn comes after `polls` polls of
STATUS that find BUSY = 1, and one more poll finds BUSY = 0. -/
def evExec (cfg : Config) (w : Word) (polls : Nat) : List Event :=
  evW cfg 0x14 w :: List.replicate polls (evR cfg 0x18) ++ [.engine, evR cfg 0x18]

end Sys2Proof.Machine
end

