-- ==== Sys2Proof/Safety.lean ====
section
/-!
DEFINITION. The terms the statements use: what a good slot is, the invariant of the block, and the states a
completion and the resets give, written from the rules and not from the operations of Machine/.
-/

namespace Sys2Proof.Machine

open Sys2Proof

/-! ### Good slots -/

/-- What the arithmetic needs of a context (42_montgomery.md R120, R123): an odd modulus M below R = 2^w, for any
width w at all, and the constants by the equations they solve. -/
structure CtxLaws (c : Ctx) : Prop where
  odd : c.M % 2 = 1
  M_lt : c.M < 2 ^ c.w
  Rinv_lt : c.Rinv < c.M
  Rinv_eq : 2 ^ c.w * c.Rinv % c.M = 1 % c.M
  Rminus1_eq : c.Rminus1 = 2 ^ c.w - 1
  Mstar_pos : 1 ≤ c.Mstar
  Mstar_lt : c.Mstar ≤ 2 ^ c.w - 1
  Mstar_eq : c.M * c.Mstar % 2 ^ c.w = 2 ^ c.w - 1

/-- A context as 10_state.md R25 and 42_montgomery.md R121, R123 and R124 describe it: the laws, a modulus that fits
a register, and for w the smallest multiple of 8 not below its bit length. -/
structure CtxGood (xlen : Nat) (c : Ctx) : Prop extends CtxLaws c where
  fits : c.M < 2 ^ xlen
  w_mul8 : c.w % 8 = 0
  w_ge : bitLength c.M ≤ c.w
  w_least : c.w < bitLength c.M + 8
  w_le : c.w ≤ xlen

/-- A private key as 45_private_key.md R180 and R182 describe it. -/
structure PrivGood (cfg : Config) (k : Priv) : Prop where
  p_odd : k.p % 2 = 1
  q_odd : k.q % 2 = 1
  p_ge : 3 ≤ k.p
  q_ge : 3 ≤ k.q
  coprime : Nat.gcd k.q k.p = 1
  e_fits : k.e < 2 ^ cfg.xlen
  N_eq : k.N = k.p * k.q
  N_fits : k.N < 2 ^ cfg.maxKeyBits
  d_lt : k.d < (k.p - 1) * (k.q - 1)
  d_eq : k.d * k.e % ((k.p - 1) * (k.q - 1)) = 1 % ((k.p - 1) * (k.q - 1))
  dp_eq : k.dp = k.d % (k.p - 1)
  dq_eq : k.dq = k.d % (k.q - 1)
  qInv_lt : k.qInv < k.p
  qInv_eq : k.q * k.qInv % k.p = 1 % k.p
  k_eq : k.k = byteLen k.N

/-- A public key as 44_public_key.md R161 describes it. -/
structure PubGood (cfg : Config) (k : Pub) : Prop where
  N_odd : k.N % 2 = 1
  N_fits : k.N < 2 ^ cfg.xlen
  e_fits : k.e < 2 ^ cfg.xlen
  k_eq : k.k = byteLen k.N

/-! ### The invariant -/

/-- The invariant of the block, in parts that each come from a rule. -/
structure State.Inv (s : State) : Prop where
  /-- The configuration is a legal one (00_scope.md R7). -/
  cfg : s.cfg.wf
  /-- Every register holds a natural below 2^XLEN (10_state.md R21). -/
  x : ∀ i : XReg, s.getX i < 2 ^ s.cfg.xlen
  /-- DMEM is canonical and lies in the array (10_state.md R33). -/
  memWf : s.dmem.wf
  memBelow : s.dmem.below s.cfg.dmemBytes
  /-- A valid context slot holds a good context (10_state.md R25). -/
  slotU : s.ctxU.valid = true → CtxGood s.cfg.xlen s.ctxU
  slotP : s.ctxP.valid = true → CtxGood s.cfg.xlen s.ctxP
  slotQ : s.ctxQ.valid = true → CtxGood s.cfg.xlen s.ctxQ
  slotN : s.ctxN.valid = true → CtxGood s.cfg.xlen s.ctxN
  /-- Slots P and Q are valid exactly when PRIV is, slot N exactly when PUB is (42_montgomery.md R135). -/
  validP : s.ctxP.valid = s.priv.valid
  validQ : s.ctxQ.valid = s.priv.valid
  validN : s.ctxN.valid = s.pub.valid
  /-- A valid key is a good one, and its contexts are over its moduli (10_state.md R26, R28, R30;
  44_public_key.md R160). -/
  priv : s.priv.valid = true → PrivGood s.cfg s.priv ∧ s.ctxP.M = s.priv.p ∧ s.ctxQ.M = s.priv.q
  pub : s.pub.valid = true → PubGood s.cfg s.pub ∧ s.ctxN.M = s.pub.N
  /-- BUSY = 1 implies DONE = 0 and ERR = 0 (10_state.md R36), and ERRCODE is 0 while BUSY (R37). -/
  busy : s.phase = .busy → s.done = false ∧ s.err = false ∧ s.errcode = none
  /-- ERR = 1 comes with a code (60_exceptions.md R215). -/
  errHasCode : s.err = true → s.errcode ≠ none
  /-- Code 4 is never raised (60_exceptions.md R212). -/
  noCode4 : s.errcode ≠ some .malformedKeyRecord

/-! ### States a completion gives -/

/-- A failed completion: every field unchanged but DONE, ERR, ERRCODE and phase (60_exceptions.md R216). -/
def State.failed (s : State) (e : Err) : State :=
  { s with done := true, err := true, errcode := some e, phase := .idle }

/-- A successful completion whose only write is `v` to X[rd]: RESULT and everything else unchanged. -/
def State.wroteX (s : State) (rd : XReg) (v : Nat) : State :=
  { s with x := s.x.set rd v, done := true, err := false, errcode := none, phase := .idle }

/-- A successful completion whose only write is `v` to RESULT. -/
def State.wroteResult (s : State) (v : Nat) : State :=
  { s with result := BitVec.ofNat 32 v, done := true, err := false, errcode := none, phase := .idle }

/-- A successful completion that leaves DMEM as `m` and RESULT as `v`. -/
def State.wroteMem (s : State) (m : Mem) (v : Nat) : State :=
  { s with dmem := m, result := BitVec.ofNat 32 v, done := true, err := false, errcode := none,
           phase := .idle }

/-- A successful load of the user context, RESULT := w. -/
def State.wroteCtxU (s : State) (c : Ctx) : State :=
  { s with ctxU := c, result := BitVec.ofNat 32 c.w, done := true, err := false, errcode := none,
           phase := .idle }

/-- A successful load of the public key and its context, RESULT := k. -/
def State.wrotePub (s : State) (pub : Pub) (cN : Ctx) : State :=
  { s with pub := pub, ctxN := cN, result := BitVec.ofNat 32 pub.k, done := true, err := false,
           errcode := none, phase := .idle }

/-- A successful load of a private key, its derived public key and the three contexts, RESULT := k. -/
def State.wroteKey (s : State) (priv : Priv) (cP cQ : Ctx) (pub : Pub) (cN : Ctx) : State :=
  { s with priv := priv, ctxP := cP, ctxQ := cQ, pub := pub, ctxN := cN,
           result := BitVec.ofNat 32 priv.k, done := true, err := false, errcode := none,
           phase := .idle }

/-- `m` is `s`'s DMEM with `n` bytes from address `a` replaced, byte j by `f j`; every other byte is
unchanged, read byte by byte. -/
def State.MemBecomes (s : State) (m : Mem) (a n : Nat) (f : Nat → Byte) : Prop :=
  ∀ b, m.read b = if a ≤ b ∧ b < a + n then f (b - a) else s.dmem.read b

/-- Byte j of the big-endian rendering of `v` at `n` bytes, the most significant first (00_scope.md R11). -/
def byteOf (v n j : Nat) : Byte := BitVec.ofNat 8 (v / 256 ^ (n - 1 - j))

/-- The power-on column of 70_reset_and_hazards.md R240, DMEM and the configuration apart; nothing is said of a
slot but its `valid`. -/
structure State.AtReset (t : State) : Prop where
  x : ∀ i : XReg, t.getX i = 0
  slots : ∀ c : CtxSlot, (t.ctx c).valid = false
  priv : t.priv.valid = false
  pub : t.pub.valid = false
  args : t.arg0 = 0 ∧ t.arg1 = 0 ∧ t.arg2 = 0 ∧ t.arg3 = 0
  result : t.result = 0
  status : t.phase = .idle ∧ t.done = false ∧ t.err = false ∧ t.ovr = false
  errcode : t.errcode = none
  ie : t.ie = false
  pend : t.pend = 0
  irq : t.irq = false

/-! ### The next event -/

/-- `s` with the engine's turn next. -/
def State.onEngine (s : State) : State := { s with sched := .engine :: s.sched }

/-- `s` with a 32-bit host write of `v` at window offset `off` next. -/
def State.onWrite (s : State) (off : Nat) (v : Word) : State :=
  { s with sched := .write .word (s.cfg.base + off) v :: s.sched }

/-- `s` with a 32-bit host read at window offset `off` next. -/
def State.onRead (s : State) (off : Nat) : State :=
  { s with sched := .read .word (s.cfg.base + off) :: s.sched }

/-- `s` after a host read that returned `v`: nothing of the block has changed (20_memory.md R61). -/
def State.gaveHost (s : State) (v : Word) : State := { s with reads := v :: s.reads }

/-- A host access the block takes: 32 bits wide, at a multiple of 4 in the window (20_memory.md R52). -/
def Event.legal (cfg : Config) : Event → Prop
  | .write w a _ => w = .word ∧ cfg.base ≤ a ∧ a < cfg.base + 0x10000 ∧ (a - cfg.base) % 4 = 0
  | .read w a => w = .word ∧ cfg.base ≤ a ∧ a < cfg.base + 0x10000 ∧ (a - cfg.base) % 4 = 0
  | .engine => True
  | .powerOn _ => True

/-- An event that resets the block: a power-on reset, or a write to CTRL with bit 0 set (10_state.md R38;
70_reset_and_hazards.md R240, R241). -/
def Event.resets (cfg : Config) : Event → Prop
  | .write w a v => w = .word ∧ a = cfg.base + 0x10 ∧ v.getLsbD 0 = true
  | .read _ _ => False
  | .engine => False
  | .powerOn _ => True

/-- The next event resets the block. -/
def State.nextResets (s : State) : Prop := ∃ e rest, s.sched = e :: rest ∧ e.resets s.cfg

/-- The next step is the completion step of the command `i` (60_exceptions.md R215). -/
def State.completes (s : State) (i : Instr) : Prop :=
  (s.sched = [] ∨ ∃ rest, s.sched = .engine :: rest) ∧ s.phase = .busy ∧ decode s.pend = .ok i

/-! ### Tables of the rules -/

/-- The window offsets that R51 of 20_memory.md reserves. -/
def reservedOffset (cfg : Config) (off : Nat) : Prop :=
  off = 0x0C ∨ (0x24 ≤ off ∧ off < 0x30) ∨ (0x40 ≤ off ∧ off < 0x1000) ∨
    (0x1800 ≤ off ∧ off < 0x2000) ∨ 0x2000 + cfg.dmemBytes ≤ off

/-- The window offsets whose writes R69 of 20_memory.md drops while BUSY: CMD, ARG0 to ARG3, any X word, any
DMEM word. -/
def droppedWhileBusy (cfg : Config) (off : Nat) : Prop :=
  off = 0x14 ∨ off = 0x30 ∨ off = 0x34 ∨ off = 0x38 ∨ off = 0x3C ∨
    (0x1000 ≤ off ∧ off < 0x1800) ∨ (0x2000 ≤ off ∧ off < 0x2000 + cfg.dmemBytes)

/-- The big register a command writes, if any (10_state.md R21 and the command rules). -/
def destX : Instr → Option XReg
  | .tomont rd _ _ => some rd
  | .frommont rd _ _ => some rd
  | .montmul rd _ _ _ => some rd
  | .ctxrd rd _ _ => some rd
  | .modpow rd _ _ _ => some rd
  | .keyrd rd _ => some rd
  | .decrypt rd _ => some rd
  | .encrypt rd _ => some rd
  | .crtcomb rd _ _ => some rd
  | .b2i rd _ => some rd
  | .mctx _ | .loadkey _ _ _ | .loadkeyd _ _ | .loadpub _ _ | .i2b _ | .strip | .hash | .decbytes
  | .encbytes | .sign | .verify | .verifymsg => none

/-- The DMEM region a command writes: its address and length (30_encoding.md R88). -/
def destRegion (s : State) : Instr → Option (Nat × Nat)
  | .i2b _ => some (s.argNat 0, s.argNat 1)
  | .strip => some (s.argNat 2, s.argNat 3)
  | .hash => some (s.argNat 2, s.cfg.dlen)
  | .decbytes => some (s.argNat 2, s.priv.k)
  | .encbytes => some (s.argNat 2, s.pub.k)
  | .sign => some (s.argNat 2, s.priv.k)
  | .mctx _ | .tomont _ _ _ | .frommont _ _ _ | .montmul _ _ _ _ | .ctxrd _ _ _ | .modpow _ _ _ _
  | .loadkey _ _ _ | .loadkeyd _ _ | .loadpub _ _ | .keyrd _ _ | .decrypt _ _ | .encrypt _ _
  | .crtcomb _ _ _ | .b2i _ _ | .verify | .verifymsg => none

/-- The commands that write RESULT on success (60_exceptions.md R213). -/
def writesResult : Instr → Bool
  | .mctx _ | .loadkey _ _ _ | .loadkeyd _ _ | .loadpub _ _ | .i2b _ | .strip | .hash | .decbytes
  | .encbytes | .sign | .verify | .verifymsg => true
  | .tomont _ _ _ | .frommont _ _ _ | .montmul _ _ _ _ | .ctxrd _ _ _ | .modpow _ _ _ _ | .keyrd _ _
  | .decrypt _ _ | .encrypt _ _ | .crtcomb _ _ _ | .b2i _ _ => false

/-- MCTX, the one writer of ctx[U] (10_state.md R26). -/
def loadsUserCtx : Instr → Bool
  | .mctx _ => true
  | .tomont _ _ _ | .frommont _ _ _ | .montmul _ _ _ _ | .ctxrd _ _ _ | .modpow _ _ _ _
  | .loadkey _ _ _ | .loadkeyd _ _ | .loadpub _ _ | .keyrd _ _ | .decrypt _ _ | .encrypt _ _
  | .crtcomb _ _ _ | .b2i _ _ | .i2b _ | .strip | .hash | .decbytes | .encbytes | .sign | .verify
  | .verifymsg => false

/-- LOADKEY and LOADKEYD, the writers of PRIV, ctx[P] and ctx[Q] (10_state.md R26, R29). -/
def loadsPriv : Instr → Bool
  | .loadkey _ _ _ | .loadkeyd _ _ => true
  | .mctx _ | .tomont _ _ _ | .frommont _ _ _ | .montmul _ _ _ _ | .ctxrd _ _ _ | .modpow _ _ _ _
  | .loadpub _ _ | .keyrd _ _ | .decrypt _ _ | .encrypt _ _ | .crtcomb _ _ _ | .b2i _ _ | .i2b _
  | .strip | .hash | .decbytes | .encbytes | .sign | .verify | .verifymsg => false

/-- LOADPUB, LOADKEY and LOADKEYD, the writers of PUB and ctx[N] (10_state.md R26, R30). -/
def loadsPub : Instr → Bool
  | .loadkey _ _ _ | .loadkeyd _ _ | .loadpub _ _ => true
  | .mctx _ | .tomont _ _ _ | .frommont _ _ _ | .montmul _ _ _ _ | .ctxrd _ _ _ | .modpow _ _ _ _
  | .keyrd _ _ | .decrypt _ _ | .encrypt _ _ | .crtcomb _ _ _ | .b2i _ _ | .i2b _ | .strip | .hash
  | .decbytes | .encbytes | .sign | .verify | .verifymsg => false

/-- The commands that read a slot and raise NotReady when it is not valid (70_reset_and_hazards.md R243). -/
def needsSlot : Instr → Bool
  | .tomont _ _ _ | .frommont _ _ _ | .montmul _ _ _ _ | .ctxrd _ _ _ | .modpow _ _ _ _ | .keyrd _ _
  | .crtcomb _ _ _ | .decrypt _ _ | .encrypt _ _ | .decbytes | .encbytes | .sign | .verify
  | .verifymsg => true
  | .mctx _ | .loadkey _ _ _ | .loadkeyd _ _ | .loadpub _ _ | .b2i _ _ | .i2b _ | .strip
  | .hash => false

/-- The codes a decoded command can raise: the rows of 60_exceptions.md R213 less IllegalCommand, which
decode raises. -/
def mayRaise : Instr → List Err
  | .mctx _ => [.invalidModulus]
  | .tomont _ _ _ | .frommont _ _ _ | .montmul _ _ _ _ | .ctxrd _ _ _ | .modpow _ _ _ _ => [.notReady]
  | .loadkey _ _ _ | .loadkeyd _ _ => [.invalidModulus, .keyTooLarge, .keyNotInvertible]
  | .loadpub _ _ => [.invalidModulus]
  | .keyrd _ _ => [.notReady]
  | .decrypt _ _ | .encrypt _ _ => [.notReady]
  | .crtcomb _ _ _ => [.notReady, .valueTooWide]
  | .b2i _ _ => [.inputTooLarge, .rangeError]
  | .i2b _ => [.valueTooWide, .rangeError]
  | .strip => [.rangeError]
  | .hash => [.digestUnavailable, .rangeError]
  | .decbytes | .encbytes => [.inputTooLarge, .notReady, .rangeError]
  | .sign => [.digestUnavailable, .notReady, .rangeError]
  | .verify => [.inputTooLarge, .notReady, .rangeError]
  | .verifymsg => [.inputTooLarge, .digestUnavailable, .notReady, .rangeError]

/-- The opcode values 30_encoding.md R83 uses. -/
def usedOpcodes : List Nat :=
  [0x01, 0x02, 0x03, 0x04, 0x05, 0x08, 0x10, 0x11, 0x12, 0x13, 0x14, 0x15, 0x20, 0x21, 0x22, 0x23,
   0x30, 0x31, 0x32, 0x33, 0x34]

/-- The values of a big-endian byte string (00_scope.md R11): the sum over its bytes. -/
def bytesValue (s : State) (a n : Nat) : Nat :=
  ((List.range n).map fun j => (s.dmem.read (a + j)).toNat * 256 ^ (n - 1 - j)).sum

/-- `m` is what the CRT path gives for `c` under the key `k`: the one number below N with the residues
c^dp mod p and c^dq mod q (45_private_key.md R187, R188). -/
def IsCrtPower (k : Priv) (c m : Nat) : Prop :=
  m < k.N ∧ m % k.p = c ^ k.dp % k.p ∧ m % k.q = c ^ k.dq % k.q

/-- PUB is the public key derived from PRIV (10_state.md R30), with p and q prime. -/
def State.PrimeKey (s : State) : Prop :=
  s.priv.valid = true ∧ s.priv.p.Prime ∧ s.priv.q.Prime ∧ s.pub.valid = true ∧
    s.pub.N = s.priv.N ∧ s.pub.e = s.priv.e

/-- What a successful load of the key (p, q, e) leaves (45_private_key.md R180, R181): a good private key
with these p, q and e, good contexts over p, q and N, and the derived public key. -/
def State.KeyLoads (s : State) (p q e : Nat) (o : Host.Outcome State Fault Refusal) : Prop :=
  ∃ priv cP cQ cN,
    o = .next (s.wroteKey priv cP cQ ⟨true, priv.N, priv.e, priv.k⟩ cN) ∧
    priv.valid = true ∧ priv.p = p ∧ priv.q = q ∧ priv.e = e ∧ PrivGood s.cfg priv ∧
    cP.valid = true ∧ cP.M = p ∧ CtxGood s.cfg.xlen cP ∧
    cQ.valid = true ∧ cQ.M = q ∧ CtxGood s.cfg.xlen cQ ∧
    cN.valid = true ∧ cN.M = p * q ∧ CtxGood s.cfg.xlen cN

/-- The error a load of (p, q, e) completes with, in the order of 45_private_key.md R180, and none when it
succeeds. -/
def keyLoadError (cfg : Config) (p q e : Nat) : Option Err :=
  if p = 0 ∨ q = 0 then some .invalidModulus
  else if (p - 1) * (q - 1) = 0 then some .keyNotInvertible
  else if Nat.gcd e ((p - 1) * (q - 1)) ≠ 1 then some .keyNotInvertible
  else if Nat.gcd q p ≠ 1 then some .keyNotInvertible
  else if p % 2 = 0 ∨ q % 2 = 0 then some .invalidModulus
  else if 2 ^ cfg.maxKeyBits ≤ p * q then some .keyTooLarge
  else none

/-- The bit fields (lowest bit, width) that the commands of an opcode do not use (30_encoding.md R83), reserved
bits apart. For 0x10 these are the fields neither LOADKEY nor LOADKEYD uses. -/
def unusedFields : List (Nat × List (Nat × Nat)) :=
  let rd := (8, 3)
  let rs1 := (11, 3)
  let rs2 := (14, 3)
  let rs3 := (17, 3)
  let ctx := (20, 2)
  let f := (22, 1)
  let sel := (23, 4)
  [ (0x01, [rd, rs2, rs3, ctx, f, sel]), (0x02, [rs2, rs3, f, sel]), (0x03, [rs2, rs3, f, sel]),
    (0x04, [rs3, f, sel]), (0x05, [rs1, rs2, rs3, f]), (0x08, [rs3, f, sel]), (0x10, [rd, ctx, sel]),
    (0x11, [rd, rs3, ctx, f, sel]), (0x12, [rs1, rs2, rs3, ctx, f]), (0x13, [rs2, rs3, ctx, f, sel]),
    (0x14, [rs2, rs3, ctx, f, sel]) ] ++
  [ (0x15, [rs3, ctx, f, sel]), (0x20, [rs1, rs2, rs3, ctx, sel]), (0x21, [rd, rs2, rs3, ctx, f, sel]),
    (0x22, [rd, rs1, rs2, rs3, ctx, f, sel]), (0x23, [rd, rs1, rs2, rs3, ctx, f, sel]),
    (0x30, [rd, rs1, rs2, rs3, ctx, f, sel]), (0x31, [rd, rs1, rs2, rs3, ctx, f, sel]),
    (0x32, [rd, rs1, rs2, rs3, ctx, f, sel]), (0x33, [rd, rs1, rs2, rs3, ctx, f, sel]),
    (0x34, [rd, rs1, rs2, rs3, ctx, f, sel]) ]

/-- A word with a non-zero field that its opcode's commands do not use; rs3 of LOADKEYD is such a field
(30_encoding.md R85). -/
def unusedFieldSet (w : Word) : Prop :=
  (∃ op fs, (op, fs) ∈ unusedFields ∧ w.toNat % 256 = op ∧
    ∃ f ∈ fs, w.toNat / 2 ^ f.1 % 2 ^ f.2 ≠ 0) ∨
  (w.toNat % 256 = 0x10 ∧ w.toNat / 2 ^ 22 % 2 = 1 ∧ w.toNat / 2 ^ 17 % 8 ≠ 0)

/-- A word with a reserved bit, an unused opcode or a reserved selector (30_encoding.md R86, R87). -/
def reservedWord (w : Word) : Prop :=
  w.toNat / 2 ^ 27 ≠ 0 ∨ w.toNat % 256 ∉ usedOpcodes ∨
    (w.toNat % 256 = 0x05 ∧ 4 < w.toNat / 2 ^ 23 % 16) ∨
    (w.toNat % 256 = 0x12 ∧ 9 < w.toNat / 2 ^ 23 % 16)

/-- The error of the first check that fails; `none` when all pass. -/
def firstOf (checks : List (Bool × Err)) : Option Err := (checks.find? fun c => c.1).map fun c => c.2

/-- The region (a, n) is not in range (20_memory.md R57). -/
def outOfRange (s : State) (a n : Nat) : Bool := decide (s.cfg.dmemBytes < a + n)

/-- The checks of each command in their order, after decode (60_exceptions.md R214 and the command rules):
the error of the first that fails, and none when the command succeeds. -/
def firstError (s : State) : Instr → Option Err
  | .mctx rs1 => firstOf [(decide (s.getX rs1 % 2 = 0), .invalidModulus)]
  | .tomont _ _ c => firstOf [(!(s.ctx c).valid, .notReady)]
  | .frommont _ _ c => firstOf [(!(s.ctx c).valid, .notReady)]
  | .montmul _ _ _ c => firstOf [(!(s.ctx c).valid, .notReady)]
  | .ctxrd _ c _ => firstOf [(!(s.ctx c).valid, .notReady)]
  | .modpow _ _ _ c => firstOf [(!(s.ctx c).valid, .notReady)]
  | .loadkey rs1 rs2 rs3 => keyLoadError s.cfg (s.getX rs1) (s.getX rs2) (s.getX rs3)
  | .loadkeyd rs1 rs2 => keyLoadError s.cfg (s.getX rs1) (s.getX rs2) s.cfg.defaultE
  | .loadpub rs1 _ => firstOf [(decide (s.getX rs1 % 2 = 0), .invalidModulus)]
  | .keyrd _ sel =>
    firstOf [(decide (sel.toNat ≤ 7) && !s.priv.valid, .notReady),
      (decide (8 ≤ sel.toNat) && !s.pub.valid, .notReady)]
  | .decrypt _ _ => firstOf [(!s.priv.valid, .notReady)]
  | .encrypt _ _ => firstOf [(!s.pub.valid, .notReady)]
  | .crtcomb _ rs1 rs2 =>
    firstOf [(!s.priv.valid, .notReady),
      (decide (2 ^ s.cfg.xlen ≤ crtComb s.priv (s.getX rs1) (s.getX rs2)), .valueTooWide)]
  | .b2i _ f =>
    firstOf [(outOfRange s s.arg0.toNat s.arg1.toNat, .rangeError),
      (f && decide (s.arg2.toNat < s.arg1.toNat), .inputTooLarge),
      (decide (2 ^ s.cfg.xlen ≤ bytesValue s s.arg0.toNat s.arg1.toNat), .inputTooLarge)]
  | .i2b rs1 =>
    firstOf [(outOfRange s s.arg0.toNat s.arg1.toNat, .rangeError),
      (decide (256 ^ s.arg1.toNat ≤ s.getX rs1), .valueTooWide)]
  | .strip =>
    firstOf [(outOfRange s s.arg0.toNat s.arg1.toNat, .rangeError),
      (outOfRange s s.arg2.toNat s.arg3.toNat, .rangeError),
      (decide (s.arg1.toNat < s.arg3.toNat), .rangeError)]
  | .hash =>
    firstOf [(!s.cfg.digestPresent, .digestUnavailable),
      (outOfRange s s.arg0.toNat s.arg1.toNat, .rangeError),
      (outOfRange s s.arg2.toNat s.cfg.dlen, .rangeError)]
  | .decbytes =>
    firstOf [(!s.priv.valid, .notReady), (outOfRange s s.arg0.toNat s.arg1.toNat, .rangeError),
      (outOfRange s s.arg2.toNat s.priv.k, .rangeError),
      (decide (s.priv.k < s.arg1.toNat), .inputTooLarge)]
  | .encbytes =>
    firstOf [(!s.pub.valid, .notReady), (outOfRange s s.arg0.toNat s.arg1.toNat, .rangeError),
      (outOfRange s s.arg2.toNat s.pub.k, .rangeError),
      (decide (s.pub.k < s.arg1.toNat), .inputTooLarge)]
  | .sign =>
    firstOf [(!s.cfg.digestPresent, .digestUnavailable), (!s.priv.valid, .notReady),
      (outOfRange s s.arg0.toNat s.arg1.toNat, .rangeError),
      (outOfRange s s.arg2.toNat s.priv.k, .rangeError)]
  | .verify =>
    firstOf [(!s.pub.valid, .notReady), (outOfRange s s.arg0.toNat s.arg1.toNat, .rangeError),
      (outOfRange s s.arg2.toNat s.arg3.toNat, .rangeError),
      (decide (s.pub.k < s.arg1.toNat), .inputTooLarge)]
  | .verifymsg =>
    firstOf [(!s.cfg.digestPresent, .digestUnavailable), (!s.pub.valid, .notReady),
      (outOfRange s s.arg0.toNat s.arg1.toNat, .rangeError),
      (outOfRange s s.arg2.toNat s.arg3.toNat, .rangeError),
      (decide (s.pub.k < s.arg3.toNat), .inputTooLarge)]

end Sys2Proof.Machine
end

