-- ==== Sys2Proof/Certificates/Slice0/Obligations.lean ====
section
/-!
DEFINITION. The statements for the provers. `exec i s` is the completion step of the command `i` in the state
`s`; `s.wroteX`, `s.wroteMem`, `s.wroteResult`, `s.wroteCtxU`, `s.wrotePub`, `s.wroteKey` (Safety.lean) are `s`
with only the named fields changed, so a statement that gives the next state gives its frame too.
-/

open Sys2Proof Sys2Proof.Machine

/-! ### Encoding -/

/-- Words written out from the encodings of 30_encoding.md R83 and 95_test_vectors.md decode to the commands they
stand for. -/
def Obligations.SpecCommandWordsDecode : Prop :=
  decode 0x00008B04 = .ok (.montmul 3 1 2 .u) ∧
  decode 0x00044010 = .ok (.loadkey 0 1 2) ∧
  decode 0x00404010 = .ok (.loadkeyd 0 1) ∧
  decode 0x00001C14 = .ok (.encrypt 4 3) ∧
  decode 0x02000612 = .ok (.keyrd 6 4) ∧
  decode 0x0031A708 = .ok (.modpow 7 4 6 .n) ∧
  decode 0x02300005 = .ok (.ctxrd 0 .n 4) ∧
  decode 0x00400020 = .ok (.b2i 0 true) ∧
  decode 0x00000034 = .ok .verifymsg

/-- Decoding the word of a well-formed command gives the command back, with every operand at every value
(30_encoding.md R81 to R84). -/
def Obligations.DecodeOfEncodeIsTheCommand : Prop :=
  ∀ i : Instr, i.wellFormed = true → decode (encode i) = .ok i

/-- A word that decodes is the word of the command it decodes to, and that command is well formed
(30_encoding.md R83 to R87): no two words are one command. -/
def Obligations.DecodedWordIsItsEncoding : Prop :=
  ∀ (w : Word) (i : Instr), decode w = .ok i → i.wellFormed = true ∧ encode i = w

/-- "The rows are pairwise disjoint: no word matches two rows" (30_encoding.md R84). -/
def Obligations.OpcodeRowsArePairwiseDisjoint : Prop :=
  opcodeTable.length = 22 ∧
  ∀ (w : Word) (i j : Fin opcodeTable.length),
    (opcodeTable.get i).fits w = true → (opcodeTable.get j).fits w = true → i = j

/-- 30_encoding.md R86 and R87: a pending word with a reserved bit, an unused opcode or a reserved selector
completes with IllegalCommand and changes nothing else. -/
def Obligations.ReservedWordsAreIllegal : Prop :=
  ∀ s : State, s.phase = .busy → reservedWord s.pend →
    step s.onEngine = .next (s.failed .illegalCommand)

/-- 30_encoding.md R85: a non-zero unused field is illegal, and the decoder takes exactly one word for each
command. -/
def Obligations.UnusedFieldsMustBeZero : Prop :=
  (∀ s : State, s.phase = .busy → unusedFieldSet s.pend →
    step s.onEngine = .next (s.failed .illegalCommand)) ∧
  (∀ i : Instr, i.wellFormed = true → ∀ w : Word, decode w = .ok i ↔ w = encode i)

/-! ### Issue and completion -/

/-- A step runs the decoded command (60_exceptions.md R215): when the engine's turn is next, or no event is left
in the schedule (log 4), and the pending word decodes, the step is that command's completion. -/
def Obligations.StepRunsTheDecodedCommand : Prop :=
  ∀ (s : State) (i : Instr), s.phase = .busy → decode s.pend = .ok i →
    step s.onEngine = exec i s ∧ (s.sched = [] → step s = exec i s)

/-- The host's view of a placed word (log 16, the model's choice): the very next step is the completion of the
command, in the state its issue leaves (60_exceptions.md R217). -/
def Obligations.PlacedWordIsTheNextCommand : Prop :=
  ∀ (s : State) (i : Instr), i.wellFormed = true →
    step (s.withFetchWord 32 (encode i).toNat) =
      exec i { s with pend := encode i, phase := .busy, done := false, err := false, errcode := none }

/-- 60_exceptions.md R216: every command completes; a failure changes DONE, ERR, ERRCODE and phase only; a success
changes those, and of the rest at most what its pseudocode writes: its register, its DMEM region, RESULT, its
slots. -/
def Obligations.EveryCommandSucceedsOrFailsWhole : Prop :=
  ∀ (i : Instr) (s : State), ∃ t, exec i s = .next t ∧
    ((∃ e, t = s.failed e) ∨
      (t.done = true ∧ t.err = false ∧ t.errcode = none ∧ t.phase = .idle ∧
        (∀ r, destX i ≠ some r → t.getX r = s.getX r) ∧
        (∀ a, (∀ b n, destRegion s i = some (b, n) → a < b ∨ b + n ≤ a) →
          t.dmem.read a = s.dmem.read a) ∧
        (writesResult i = false → t.result = s.result) ∧
        (loadsUserCtx i = false → t.ctxU = s.ctxU) ∧
        (loadsPriv i = false → t.priv = s.priv ∧ t.ctxP = s.ctxP ∧ t.ctxQ = s.ctxQ) ∧
        (loadsPub i = false → t.pub = s.pub ∧ t.ctxN = s.ctxN) ∧
        t.arg0 = s.arg0 ∧ t.arg1 = s.arg1 ∧ t.arg2 = s.arg2 ∧ t.arg3 = s.arg3 ∧
        t.ie = s.ie ∧ t.ovr = s.ovr ∧ t.pend = s.pend ∧ t.cfg = s.cfg ∧
        t.sched = s.sched ∧ t.reads = s.reads ∧ t.draws = s.draws))

/-- 60_exceptions.md R214 with the error lists of the command rules: the first failing check, in the order of
`firstError`, decides the error; a command none of whose checks fails succeeds. -/
def Obligations.FirstFailingCheckDecides : Prop :=
  ∀ (i : Instr) (s : State), s.Inv → i.wellFormed = true →
    (∀ e, firstError s i = some e → exec i s = .next (s.failed e)) ∧
    (firstError s i = none → ∃ t, exec i s = .next t ∧
      t.done = true ∧ t.err = false ∧ t.errcode = none ∧ t.phase = .idle)

/-- 60_exceptions.md R213 and R212: a decoded command raises only the codes its row marks, so never code 4. -/
def Obligations.ErrorsAreThoseOfTheMatrix : Prop :=
  ∀ (i : Instr) (s t : State), s.Inv → i.wellFormed = true → exec i s = .next t → t.err = true →
    ∃ e, e ∈ mayRaise i ∧ t = s.failed e ∧ e ≠ .malformedKeyRecord

/-- 70_reset_and_hazards.md R252 says that an issued command completes, unless a reset abandons it, and gives no
bound: whatever legal accesses the host makes, a busy engine is idle again, and unless a reset comes it is its
completion that has set DONE. The bound, one step more than the schedule is long, is the model's choice (log 4). -/
def Obligations.IssuedCommandCompletes : Prop :=
  ∀ s : State, s.phase = .busy → (∀ e ∈ s.sched, e.legal s.cfg) →
    ∃ k t, k ≤ s.sched.length + 1 ∧ core.run k s = .next t ∧ t.phase = .idle ∧
      ((∀ e ∈ s.sched, ¬ e.resets s.cfg) → t.done = true)

/-! ### montgomery_multiplier -/

/-- MCTX (42_montgomery.md R125): over an odd modulus it succeeds with a good context, RESULT := w; over an even one
it fails with InvalidModulus. -/
def Obligations.MctxOutcome : Prop :=
  ∀ (rs1 : XReg) (s : State), s.Inv →
    (s.getX rs1 % 2 = 1 →
      ∃ c, exec (.mctx rs1) s = .next (s.wroteCtxU c) ∧ c.valid = true ∧ c.M = s.getX rs1 ∧
        CtxGood s.cfg.xlen c) ∧
    (s.getX rs1 % 2 = 0 → exec (.mctx rs1) s = .next (s.failed .invalidModulus))

/-- TOMONT and FROMMONT (42_montgomery.md R126 to R129, R135): X[rs1]·R mod M, and the one number below M whose
product with R has the residue of X[rs1]; NotReady when the slot is not valid. -/
def Obligations.DomainTransformOutcome : Prop :=
  ∀ (rd rs1 : XReg) (c : CtxSlot) (s : State), s.Inv →
    ((s.ctx c).valid = true →
      exec (.tomont rd rs1 c) s =
        .next (s.wroteX rd (s.getX rs1 * 2 ^ (s.ctx c).w % (s.ctx c).M)) ∧
      ∃ v, exec (.frommont rd rs1 c) s = .next (s.wroteX rd v) ∧
        v = s.getX rs1 * (s.ctx c).Rinv % (s.ctx c).M ∧ v < (s.ctx c).M ∧
        v * 2 ^ (s.ctx c).w % (s.ctx c).M = s.getX rs1 % (s.ctx c).M) ∧
    ((s.ctx c).valid = false →
      exec (.tomont rd rs1 c) s = .next (s.failed .notReady) ∧
      exec (.frommont rd rs1 c) s = .next (s.failed .notReady))

/-- MONTMUL (42_montgomery.md R131, R132): the result v is at most M, v·R ≡ X[rs1]·X[rs2] mod M, and v is M exactly
when the product is j·M with 1 ≤ j ≤ R; NotReady when the slot is not valid. -/
def Obligations.MontmulOutcome : Prop :=
  ∀ (rd rs1 rs2 : XReg) (c : CtxSlot) (s : State), s.Inv →
    ((s.ctx c).valid = true →
      ∃ v, exec (.montmul rd rs1 rs2 c) s = .next (s.wroteX rd v) ∧ v ≤ (s.ctx c).M ∧
        v * 2 ^ (s.ctx c).w % (s.ctx c).M = s.getX rs1 * s.getX rs2 % (s.ctx c).M ∧
        (v = (s.ctx c).M ↔
          ∃ j, 1 ≤ j ∧ j ≤ 2 ^ (s.ctx c).w ∧ s.getX rs1 * s.getX rs2 = j * (s.ctx c).M)) ∧
    ((s.ctx c).valid = false → exec (.montmul rd rs1 rs2 c) s = .next (s.failed .notReady))

/-- 42_montgomery.md R132, its seven laws in order, for a good context and any naturals a and b. -/
def Obligations.MontMulLaws : Prop :=
  ∀ (xlen : Nat) (c : Ctx), CtxGood xlen c →
    (∀ a b : Nat,
      (a * b + ((a * b * c.Mstar) &&& c.Rminus1) * c.M) % 2 ^ c.w = 0 ∧
      montMul c a b % c.M = a * b * c.Rinv % c.M ∧
      montMul c a b ≤ c.M ∧
      (montMul c a b = c.M ↔ ∃ j, 1 ≤ j ∧ j ≤ 2 ^ c.w ∧ a * b = j * c.M) ∧
      (a < c.M → b < c.M →
        let u := (a * b + ((a * b * c.Mstar) &&& c.Rminus1) * c.M) / 2 ^ c.w
        u < 2 * c.M ∧ montMul c a b = (if u > c.M then u - c.M else u) ∧
        (montMul c a b = c.M ↔ ∃ j, 1 ≤ j ∧ a * b = j * c.M)) ∧
      (c.M.Prime → a < c.M → b < c.M → montMul c a b ≠ c.M)) ∧
    (1 < c.M → ¬ c.M.Prime → ∃ a b, a < c.M ∧ b < c.M ∧ montMul c a b = c.M)

/-- CTXRD (42_montgomery.md R133): the selectors 0 to 4 are M, w, Rinv, Rminus1, Mstar; NotReady when the slot is
not valid. -/
def Obligations.CtxrdOutcome : Prop :=
  ∀ (rd : XReg) (c : CtxSlot) (sel : BitVec 4) (s : State), sel.toNat ≤ 4 →
    ((s.ctx c).valid = true →
      exec (.ctxrd rd c sel) s = .next (s.wroteX rd
        ([(s.ctx c).M, (s.ctx c).w, (s.ctx c).Rinv, (s.ctx c).Rminus1, (s.ctx c).Mstar].getD
          sel.toNat 0))) ∧
    ((s.ctx c).valid = false → exec (.ctxrd rd c sel) s = .next (s.failed .notReady))

/-- 42_montgomery.md R134: the Montgomery property, for all naturals, as functions and as the commands TOMONT,
TOMONT, MONTMUL, FROMMONT. The first TOMONT may overwrite neither the second operand nor the second result. -/
def Obligations.MontgomeryProperty : Prop :=
  (∀ (xlen : Nat) (c : Ctx), CtxGood xlen c → ∀ a b : Nat,
    fromMont c (montMul c (toMont c a) (toMont c b)) = a * b % c.M) ∧
  (∀ (s : State) (c : CtxSlot) (ra rb rx ry rz ro : XReg), s.Inv → (s.ctx c).valid = true →
    rx ≠ rb → rx ≠ ry →
    ∃ s1 s2 s3 s4,
      exec (.tomont rx ra c) s = .next s1 ∧ exec (.tomont ry rb c) s1 = .next s2 ∧
      exec (.montmul rz rx ry c) s2 = .next s3 ∧ exec (.frommont ro rz c) s3 = .next s4 ∧
      s4.getX ro = s.getX ra * s.getX rb % (s.ctx c).M)

/-- 70_reset_and_hazards.md R243: while no slot is valid, every command that reads a slot raises NotReady (with the
digest unit absent, SIGN and VERIFYMSG raise DigestUnavailable first, 60_exceptions.md R214), and no other command
does. -/
def Obligations.AfterResetOnlySlotFreeCommandsRun : Prop :=
  ∀ (i : Instr) (s : State), i.wellFormed = true → (∀ c, (s.ctx c).valid = false) →
    s.priv.valid = false → s.pub.valid = false →
    (needsSlot i = true →
      exec i s = .next (s.failed
        (if (i = .sign ∨ i = .verifymsg) ∧ s.cfg.digestPresent = false then .digestUnavailable
          else .notReady))) ∧
    (needsSlot i = false → ∀ t, exec i s = .next t → t.err = true → t.errcode ≠ some .notReady)

/-! ### modular_exponentiator -/

/-- 43_modexp.md R152: modPow is exponentiation, whatever the width w of the context: `CtxLaws` asks for M < 2^w
alone, so two contexts over one M may have two widths. -/
def Obligations.ModPowIsExponentiation : Prop :=
  ∀ c : Ctx, CtxLaws c → ∀ b e : Nat,
    modPow c b e = b ^ e % c.M ∧ modPow c b 0 = 1 % c.M ∧
    (∀ c' : Ctx, CtxLaws c' → c'.M = c.M → modPow c' b e = modPow c b e)

/-- MODPOW (43_modexp.md R151, R152): X[rd] := X[rs1]^X[rs2] mod M; NotReady when the slot is not valid. -/
def Obligations.ModpowOutcome : Prop :=
  ∀ (rd rs1 rs2 : XReg) (c : CtxSlot) (s : State), s.Inv →
    ((s.ctx c).valid = true →
      exec (.modpow rd rs1 rs2 c) s =
        .next (s.wroteX rd (s.getX rs1 ^ s.getX rs2 % (s.ctx c).M))) ∧
    ((s.ctx c).valid = false → exec (.modpow rd rs1 rs2 c) s = .next (s.failed .notReady))

/-! ### rsa_sign_verify_engine, the public-key side -/

/-- LOADPUB (44_public_key.md R161): over an odd N it loads PUB and a good ctx[N], RESULT := byteLen(N); over an
even N it fails with InvalidModulus. -/
def Obligations.LoadpubOutcome : Prop :=
  ∀ (rs1 rs2 : XReg) (s : State), s.Inv →
    (s.getX rs1 % 2 = 1 →
      ∃ cN, exec (.loadpub rs1 rs2) s =
          .next (s.wrotePub ⟨true, s.getX rs1, s.getX rs2, byteLen (s.getX rs1)⟩ cN) ∧
        cN.valid = true ∧ cN.M = s.getX rs1 ∧ CtxGood s.cfg.xlen cN) ∧
    (s.getX rs1 % 2 = 0 → exec (.loadpub rs1 rs2) s = .next (s.failed .invalidModulus))

/-- ENCRYPT (44_public_key.md R162, R163): X[rd] := X[rs1]^e mod N; NotReady when PUB is not valid. -/
def Obligations.EncryptOutcome : Prop :=
  ∀ (rd rs1 : XReg) (s : State), s.Inv →
    (s.pub.valid = true →
      exec (.encrypt rd rs1) s = .next (s.wroteX rd (s.getX rs1 ^ s.pub.e % s.pub.N))) ∧
    (s.pub.valid = false → exec (.encrypt rd rs1) s = .next (s.failed .notReady))

/-- ENCBYTES (44_public_key.md R164, R165): the k bytes at ARG2 become the big-endian rendering of m^e mod N, m the
value of the source region; every other byte is unchanged; RESULT := k. -/
def Obligations.EncbytesOutcome : Prop :=
  ∀ s : State, s.Inv → s.pub.valid = true →
    s.arg0.toNat + s.arg1.toNat ≤ s.cfg.dmemBytes → s.arg2.toNat + s.pub.k ≤ s.cfg.dmemBytes →
    s.arg1.toNat ≤ s.pub.k →
    ∃ m, exec .encbytes s = .next (s.wroteMem m s.pub.k) ∧ m.wf ∧
      s.MemBecomes m s.arg2.toNat s.pub.k
        (byteOf (bytesValue s s.arg0.toNat s.arg1.toNat ^ s.pub.e % s.pub.N) s.pub.k)

/-- VERIFY (44_public_key.md R166, R167): RESULT is 1 when the digest region has DLEN bytes and its value is the
last DLEN bytes of sig^e mod N, and 0 otherwise; no error either way. -/
def Obligations.VerifyOutcome : Prop :=
  ∀ s : State, s.Inv → s.pub.valid = true →
    s.arg0.toNat + s.arg1.toNat ≤ s.cfg.dmemBytes → s.arg2.toNat + s.arg3.toNat ≤ s.cfg.dmemBytes →
    s.arg1.toNat ≤ s.pub.k →
    exec .verify s = .next (s.wroteResult
      (if s.arg3.toNat = s.cfg.dlen ∧
          bytesValue s s.arg2.toNat s.arg3.toNat =
            bytesValue s s.arg0.toNat s.arg1.toNat ^ s.pub.e % s.pub.N % 256 ^ s.cfg.dlen
        then 1 else 0))

/-- VERIFYMSG (44_public_key.md R169): as VERIFY, with the digest of the data region. Which function the digest is
plays no part. -/
def Obligations.VerifymsgOutcome : Prop :=
  ∀ s : State, s.Inv → s.cfg.digestPresent = true → s.pub.valid = true →
    s.arg0.toNat + s.arg1.toNat ≤ s.cfg.dmemBytes → s.arg2.toNat + s.arg3.toNat ≤ s.cfg.dmemBytes →
    s.arg3.toNat ≤ s.pub.k →
    exec .verifymsg s = .next (s.wroteResult
      (if intBe (digest s.cfg (s.dmem.readBytes s.arg0.toNat s.arg1.toNat)) =
          bytesValue s s.arg2.toNat s.arg3.toNat ^ s.pub.e % s.pub.N % 256 ^ s.cfg.dlen
        then 1 else 0))

/-! ### crt_decryption_combiner and signing -/

/-- LOADKEY and LOADKEYD (45_private_key.md R180 to R183): when no check fails they load the key, with every
field as R180 and R182 describe it. -/
def Obligations.KeyLoadsBuildTheKey : Prop :=
  ∀ (rs1 rs2 rs3 : XReg) (s : State), s.Inv →
    (keyLoadError s.cfg (s.getX rs1) (s.getX rs2) (s.getX rs3) = none →
      s.KeyLoads (s.getX rs1) (s.getX rs2) (s.getX rs3) (exec (.loadkey rs1 rs2 rs3) s)) ∧
    (keyLoadError s.cfg (s.getX rs1) (s.getX rs2) s.cfg.defaultE = none →
      s.KeyLoads (s.getX rs1) (s.getX rs2) s.cfg.defaultE (exec (.loadkeyd rs1 rs2) s))

/-- LOADKEY and LOADKEYD (45_private_key.md R180): the first failing check decides, and the old key stays. -/
def Obligations.KeyLoadErrorsInOrder : Prop :=
  ∀ (rs1 rs2 rs3 : XReg) (s : State) (err : Err),
    (keyLoadError s.cfg (s.getX rs1) (s.getX rs2) (s.getX rs3) = some err →
      exec (.loadkey rs1 rs2 rs3) s = .next (s.failed err)) ∧
    (keyLoadError s.cfg (s.getX rs1) (s.getX rs2) s.cfg.defaultE = some err →
      exec (.loadkeyd rs1 rs2) s = .next (s.failed err))

/-- KEYRD (45_private_key.md R184, R185): the selectors 0 to 7 need PRIV, 8 and 9 need PUB. -/
def Obligations.KeyrdOutcome : Prop :=
  ∀ (rd : XReg) (sel : BitVec 4) (s : State), sel.toNat ≤ 9 →
    ((if sel.toNat ≤ 7 then s.priv.valid else s.pub.valid) = true →
      exec (.keyrd rd sel) s = .next (s.wroteX rd
        ([s.priv.N, s.priv.e, s.priv.p, s.priv.q, s.priv.d, s.priv.dp, s.priv.dq, s.priv.qInv,
          s.pub.N, s.pub.e].getD sel.toNat 0))) ∧
    ((if sel.toNat ≤ 7 then s.priv.valid else s.pub.valid) = false →
      exec (.keyrd rd sel) s = .next (s.failed .notReady))

/-- CRTCOMB (45_private_key.md R186, R187): with h the one number below p congruent to qInv·(m1 − m2), the result is
m2 + h·q, ValueTooWide when it does not fit XLEN bits; for m1 < p and m2 < q it is the one number below N with
these residues; NotReady when PRIV is not valid. -/
def Obligations.CrtcombOutcome : Prop :=
  ∀ (rd rs1 rs2 : XReg) (s : State), s.Inv →
    (s.priv.valid = true →
      ∃ h : Nat, h < s.priv.p ∧
        (s.priv.p : Int) ∣ (s.priv.qInv : Int) * ((s.getX rs1 : Int) - (s.getX rs2 : Int)) - (h : Int) ∧
        (s.getX rs2 + h * s.priv.q < 2 ^ s.cfg.xlen →
          exec (.crtcomb rd rs1 rs2) s = .next (s.wroteX rd (s.getX rs2 + h * s.priv.q))) ∧
        (2 ^ s.cfg.xlen ≤ s.getX rs2 + h * s.priv.q →
          exec (.crtcomb rd rs1 rs2) s = .next (s.failed .valueTooWide)) ∧
        (s.getX rs1 < s.priv.p → s.getX rs2 < s.priv.q →
          s.getX rs2 + h * s.priv.q < s.priv.N ∧
          (s.getX rs2 + h * s.priv.q) % s.priv.p = s.getX rs1 ∧
          (s.getX rs2 + h * s.priv.q) % s.priv.q = s.getX rs2)) ∧
    (s.priv.valid = false → exec (.crtcomb rd rs1 rs2) s = .next (s.failed .notReady))

/-- DECRYPT (45_private_key.md R188, R189): the one number below N with the residues c^dp mod p and c^dq mod q;
NotReady when PRIV is not valid. -/
def Obligations.DecryptOutcome : Prop :=
  ∀ (rd rs1 : XReg) (s : State), s.Inv →
    (s.priv.valid = true →
      ∃ m, exec (.decrypt rd rs1) s = .next (s.wroteX rd m) ∧ IsCrtPower s.priv (s.getX rs1) m) ∧
    (s.priv.valid = false → exec (.decrypt rd rs1) s = .next (s.failed .notReady))

/-- DECBYTES (45_private_key.md R190): the k bytes at ARG2 become the rendering of the decryption of the source
region's value; every other byte is unchanged; RESULT := k. -/
def Obligations.DecbytesOutcome : Prop :=
  ∀ s : State, s.Inv → s.priv.valid = true →
    s.arg0.toNat + s.arg1.toNat ≤ s.cfg.dmemBytes → s.arg2.toNat + s.priv.k ≤ s.cfg.dmemBytes →
    s.arg1.toNat ≤ s.priv.k →
    ∃ m v, exec .decbytes s = .next (s.wroteMem m s.priv.k) ∧ m.wf ∧
      IsCrtPower s.priv (bytesValue s s.arg0.toNat s.arg1.toNat) v ∧
      s.MemBecomes m s.arg2.toNat s.priv.k (byteOf v s.priv.k)

/-- SIGN (45_private_key.md R192): the k bytes at ARG2 become the rendering of the decryption of the digest of the
data, the digest read as a number without a bound; RESULT := k. -/
def Obligations.SignOutcome : Prop :=
  ∀ s : State, s.Inv → s.cfg.digestPresent = true → s.priv.valid = true →
    s.arg0.toNat + s.arg1.toNat ≤ s.cfg.dmemBytes → s.arg2.toNat + s.priv.k ≤ s.cfg.dmemBytes →
    ∃ m v, exec .sign s = .next (s.wroteMem m s.priv.k) ∧ m.wf ∧
      IsCrtPower s.priv (intBe (digest s.cfg (s.dmem.readBytes s.arg0.toNat s.arg1.toNat))) v ∧
      s.MemBecomes m s.arg2.toNat s.priv.k (byteOf v s.priv.k)

/-- 45_private_key.md R191: with p and q prime, decryption by the CRT path is c^d mod N, for every natural c; and
DECRYPT gives what the oracle MODPOW.N with the exponent d gives. -/
def Obligations.CrtDecryptIsDirectExponentiation : Prop :=
  ∀ s : State, s.Inv → s.priv.valid = true → s.priv.p.Prime → s.priv.q.Prime →
    (∀ c : Nat, s.decryptVal c = c ^ s.priv.d % s.priv.N) ∧
    (∀ rd rs1 : XReg,
      exec (.decrypt rd rs1) s = .next (s.wroteX rd (s.getX rs1 ^ s.priv.d % s.priv.N))) ∧
    (∀ rd rs1 rs2 : XReg, s.pub.valid = true → s.pub.N = s.priv.N → s.getX rs2 = s.priv.d →
      exec (.modpow rd rs1 rs2 .n) s = exec (.decrypt rd rs1) s)

/-- 45_private_key.md R193: the RSA round trips, for every natural m, as functions and as the commands ENCRYPT then
DECRYPT and DECRYPT then ENCRYPT. -/
def Obligations.RsaRoundTrip : Prop :=
  ∀ s : State, s.Inv → s.PrimeKey →
    (∀ m : Nat, s.decryptVal (s.encryptVal m) = m % s.priv.N ∧
      s.encryptVal (s.decryptVal m) = m % s.priv.N) ∧
    (∀ rc ro rm : XReg,
      (∃ t u, exec (.encrypt rc rm) s = .next t ∧ exec (.decrypt ro rc) t = .next u ∧
        u.getX ro = s.getX rm % s.priv.N) ∧
      (∃ t u, exec (.decrypt rc rm) s = .next t ∧ exec (.encrypt ro rc) t = .next u ∧
        u.getX ro = s.getX rm % s.priv.N))

/-- 44_public_key.md R168 law 1, as commands: what SIGN wrote verifies. The digest is below N, and the signature
does not overwrite the data. -/
def Obligations.SignedMessageVerifies : Prop :=
  ∀ s : State, s.Inv → s.PrimeKey → s.cfg.digestPresent = true →
    s.arg0.toNat + s.arg1.toNat ≤ s.cfg.dmemBytes → s.arg2.toNat + s.priv.k ≤ s.cfg.dmemBytes →
    (s.arg0.toNat + s.arg1.toNat ≤ s.arg2.toNat ∨ s.arg2.toNat + s.priv.k ≤ s.arg0.toNat) →
    intBe (digest s.cfg (s.dmem.readBytes s.arg0.toNat s.arg1.toNat)) < s.priv.N →
    ∃ t, exec .sign s = .next t ∧
      let u := { t with arg3 := BitVec.ofNat 32 s.priv.k }
      exec .verifymsg u = .next (u.wroteResult 1)

/-! ### bigint_codec -/

/-- B2I (41_codec.md R101): X[rd] := the big-endian value of the source region. -/
def Obligations.B2iOutcome : Prop :=
  ∀ (rd : XReg) (f : Bool) (s : State), s.arg0.toNat + s.arg1.toNat ≤ s.cfg.dmemBytes →
    (f = true → s.arg1.toNat ≤ s.arg2.toNat) →
    bytesValue s s.arg0.toNat s.arg1.toNat < 2 ^ s.cfg.xlen →
    exec (.b2i rd f) s = .next (s.wroteX rd (bytesValue s s.arg0.toNat s.arg1.toNat))

/-- I2B (41_codec.md R103): the ARG1 bytes at ARG0 become the big-endian rendering of X[rs1]; every other byte is
unchanged; RESULT := ARG1. -/
def Obligations.I2bOutcome : Prop :=
  ∀ (rs1 : XReg) (s : State), s.Inv → s.arg0.toNat + s.arg1.toNat ≤ s.cfg.dmemBytes →
    s.getX rs1 < 256 ^ s.arg1.toNat →
    ∃ m, exec (.i2b rs1) s = .next (s.wroteMem m s.arg1.toNat) ∧ m.wf ∧
      s.MemBecomes m s.arg0.toNat s.arg1.toNat (byteOf (s.getX rs1) s.arg1.toNat)

/-- STRIP (41_codec.md R104, R105; 20_memory.md R70): the ARG3 bytes at ARG2 become the last ARG3 bytes of the
source as they were before; every other byte is unchanged; RESULT := ARG3. -/
def Obligations.StripOutcome : Prop :=
  ∀ s : State, s.Inv → s.arg0.toNat + s.arg1.toNat ≤ s.cfg.dmemBytes →
    s.arg2.toNat + s.arg3.toNat ≤ s.cfg.dmemBytes → s.arg3.toNat ≤ s.arg1.toNat →
    ∃ m, exec .strip s = .next (s.wroteMem m s.arg3.toNat) ∧ m.wf ∧
      s.MemBecomes m s.arg2.toNat s.arg3.toNat
        (fun j => s.dmem.read (s.arg0.toNat + (s.arg1.toNat - s.arg3.toNat) + j))

/-- HASH (41_codec.md R106, R107): the DLEN bytes at ARG2 become the digest of the source; every other byte is
unchanged; RESULT := DLEN. -/
def Obligations.HashOutcome : Prop :=
  ∀ s : State, s.Inv → s.cfg.digestPresent = true →
    s.arg0.toNat + s.arg1.toNat ≤ s.cfg.dmemBytes → s.arg2.toNat + s.cfg.dlen ≤ s.cfg.dmemBytes →
    ∃ m, exec .hash s = .next (s.wroteMem m s.cfg.dlen) ∧ m.wf ∧
      (digest s.cfg (s.dmem.readBytes s.arg0.toNat s.arg1.toNat)).length = s.cfg.dlen ∧
      s.MemBecomes m s.arg2.toNat s.cfg.dlen
        (fun j => (digest s.cfg (s.dmem.readBytes s.arg0.toNat s.arg1.toNat)).getD j 0)

/-- 41_codec.md R109: the closed form of toBytes, be_bytes(v, L) being the one string of length L whose value is
v. -/
def Obligations.ToBytesClosedForm : Prop :=
  ∀ v L : Nat,
    (v < 256 ^ L → ∃ b, toBytes v L = .ok b ∧ b.length = L ∧ intBe b = v ∧
      ∀ b' : List Byte, b'.length = L → intBe b' = v → b' = b) ∧
    (256 ^ L ≤ v → toBytes v L = .error .valueTooWide)

/-- 41_codec.md R108: toBytes undoes toInteger; and as commands, B2I then I2B with the same region restores its
bytes, whatever DMEM holds in between. -/
def Obligations.CodecRoundTrip : Prop :=
  (∀ b : List Byte, ∃ v, toInteger b (some b.length) = .ok v ∧ toBytes v b.length = .ok b) ∧
  (∀ (rd : XReg) (f : Bool) (s : State) (m : Mem), s.arg0.toNat + s.arg1.toNat ≤ s.cfg.dmemBytes →
    (f = true → s.arg1.toNat ≤ s.arg2.toNat) →
    bytesValue s s.arg0.toNat s.arg1.toNat < 2 ^ s.cfg.xlen → m.wf →
    ∃ t u, exec (.b2i rd f) s = .next t ∧ exec (.i2b rd) { t with dmem := m } = .next u ∧
      ∀ a, u.dmem.read a =
        if s.arg0.toNat ≤ a ∧ a < s.arg0.toNat + s.arg1.toNat then s.dmem.read a else m.read a)

/-! ### The register window -/

/-- Accesses the block does not take (20_memory.md R50, R52): a model refuses a sub-word or misaligned access (log
13); an address outside the window is not the block's, and the model's choice is a fault (log 14). -/
def Obligations.AccessesTheBlockDoesNotTake : Prop :=
  ∀ (s : State) (width : Width) (addr : Nat) (v : Word) (rest : List Event),
    (s.cfg.base ≤ addr → addr < s.cfg.base + 0x10000 →
      (width ≠ .word ∨ (addr - s.cfg.base) % 4 ≠ 0) →
      step { s with sched := .write width addr v :: rest } = .refused .unsupportedAccess ∧
      step { s with sched := .read width addr :: rest } = .refused .unsupportedAccess) ∧
    ((addr < s.cfg.base ∨ s.cfg.base + 0x10000 ≤ addr) →
      step { s with sched := .write width addr v :: rest } = .fault .outsideWindow ∧
      step { s with sched := .read width addr :: rest } = .fault .outsideWindow)

/-- 20_memory.md R54 and R55: word j of X[i] holds bits 32j+31 to 32j; a write replaces them and leaves the rest;
words at XLEN/32 and above read 0 and ignore writes. The engine is idle (R68, R69). -/
def Obligations.XWindowWords : Prop :=
  ∀ (s : State) (i : XReg) (j : Nat) (v : Word), s.Inv → s.phase = .idle → j < 64 →
    (j < s.cfg.xlen / 32 →
      step (s.onRead (0x1000 + 0x100 * i.val + 4 * j)) =
        .next (s.gaveHost (BitVec.ofNat 32 (s.getX i / 2 ^ (32 * j) % 2 ^ 32))) ∧
      ∃ x, step (s.onWrite (0x1000 + 0x100 * i.val + 4 * j) v) = .next { s with x := s.x.set i x } ∧
        x / 2 ^ (32 * j) % 2 ^ 32 = v.toNat ∧ x % 2 ^ (32 * j) = s.getX i % 2 ^ (32 * j) ∧
        x / 2 ^ (32 * (j + 1)) = s.getX i / 2 ^ (32 * (j + 1))) ∧
    (s.cfg.xlen / 32 ≤ j →
      step (s.onRead (0x1000 + 0x100 * i.val + 4 * j)) = .next (s.gaveHost 0) ∧
      step (s.onWrite (0x1000 + 0x100 * i.val + 4 * j) v) = .next s)

/-- 30_encoding.md R91 with 20_memory.md R54: the host's LDX loads a register, word by word, and changes nothing
else. -/
def Obligations.LoadingARegisterWordByWord : Prop :=
  ∀ (s : State) (i : XReg) (v : Nat), s.Inv → s.phase = .idle → v < 2 ^ s.cfg.xlen →
    core.run (s.cfg.xlen / 32) { s with sched := evLdx s.cfg i v ++ s.sched } =
      .next { s with x := s.x.set i v }

/-- 20_memory.md R56: the DMEM window's byte lanes, little-endian, while the engine is idle. -/
def Obligations.DmemWindowLanes : Prop :=
  ∀ (s : State) (a : Nat) (v : Word), s.Inv → s.phase = .idle → a % 4 = 0 → a < s.cfg.dmemBytes →
    (∃ w : Word, step (s.onRead (0x2000 + a)) = .next (s.gaveHost w) ∧
      ∀ l, l < 4 → w.toNat / 256 ^ l % 256 = (s.dmem.read (a + l)).toNat) ∧
    (∃ m, step (s.onWrite (0x2000 + a) v) = .next { s with dmem := m } ∧ m.wf ∧
      s.MemBecomes m a 4 (fun l => BitVec.ofNat 8 (v.toNat / 256 ^ l)))

/-- 20_memory.md R53: reserved offsets read 0; writes to them and to RO registers have no effect and do not set
OVR, idle or busy; reserved register bits read 0. -/
def Obligations.ReservedAndReadOnlyOffsets : Prop :=
  ∀ (s : State) (off : Nat) (v : Word), s.Inv → off % 4 = 0 → off < 0x10000 →
    (reservedOffset s.cfg off →
      step (s.onRead off) = .next (s.gaveHost 0) ∧ step (s.onWrite off v) = .next s) ∧
    (off = 0x00 ∨ off = 0x04 ∨ off = 0x08 ∨ off = 0x1C ∨ off = 0x20 → step (s.onWrite off v) = .next s) ∧
    (∃ w : Word, step (s.onRead 0x04) = .next (s.gaveHost w) ∧ w.toNat / 2 ^ 28 = 0) ∧
    (∃ w : Word, step (s.onRead 0x10) = .next (s.gaveHost w) ∧ w.toNat / 4 = 0) ∧
    (∃ w : Word, step (s.onRead 0x18) = .next (s.gaveHost w) ∧ w.toNat / 16 = 0) ∧
    (∃ w : Word, step (s.onRead 0x1C) = .next (s.gaveHost w) ∧ w.toNat / 256 = 0)

/-- 10_state.md R40 to R42: ID, CFG and DMEMSZ read as the configuration says, idle or busy; in the default
configuration CFG reads 0x0F200400. Writes to them are ignored. -/
def Obligations.IdentityAndConfigurationReads : Prop :=
  ∀ s : State, s.Inv →
    step (s.onRead 0x00) = .next (s.gaveHost 0x53544143) ∧
    step (s.onRead 0x08) = .next (s.gaveHost (BitVec.ofNat 32 s.cfg.dmemBytes)) ∧
    (BitVec.ofNat 32 s.cfg.dmemBytes).toNat = s.cfg.dmemBytes ∧
    (∃ w : Word, step (s.onRead 0x04) = .next (s.gaveHost w) ∧
      w.toNat % 2 ^ 16 = s.cfg.maxKeyBits ∧ w.toNat / 2 ^ 16 % 2 ^ 8 = s.cfg.dlen ∧
      w.toNat / 2 ^ 24 % 2 = (if s.cfg.digestPresent then 1 else 0) ∧
      w.toNat / 2 ^ 25 % 2 ^ 3 = 7 ∧ w.toNat / 2 ^ 28 = 0) ∧
    (s.cfg = Config.default →
      step (s.onRead 0x04) = .next (s.gaveHost 0x0F200400) ∧
      step (s.onRead 0x08) = .next (s.gaveHost 0x00001000)) ∧
    ∀ v : Word, step (s.onWrite 0x00 v) = .next s ∧ step (s.onWrite 0x04 v) = .next s ∧
      step (s.onWrite 0x08 v) = .next s

/-- 20_memory.md R68: while BUSY a read of an X word, a DMEM word or RESULT returns the next free word (log 7; for X
words at XLEN/32 and above log 12), whose value nothing constrains; the other registers return their values, ERRCODE
0; no read touches the command. -/
def Obligations.ReadsWhileBusy : Prop :=
  ∀ (s : State) (off : Nat), s.Inv → s.phase = .busy → off % 4 = 0 →
    ((off = 0x20 ∨ (0x1000 ≤ off ∧ off < 0x1800) ∨ (0x2000 ≤ off ∧ off < 0x2000 + s.cfg.dmemBytes)) →
      step (s.onRead off) =
        .next { s with reads := Config.freeWord s.draws :: s.reads, draws := s.draws + 1 }) ∧
    step (s.onRead 0x10) = .next (s.gaveHost (if s.ie then 2 else 0)) ∧
    step (s.onRead 0x14) = .next (s.gaveHost s.pend) ∧
    step (s.onRead 0x18) = .next (s.gaveHost (if s.ovr then 9 else 1)) ∧
    step (s.onRead 0x1C) = .next (s.gaveHost 0) ∧
    step (s.onRead 0x30) = .next (s.gaveHost s.arg0) ∧
    step (s.onRead 0x34) = .next (s.gaveHost s.arg1) ∧
    step (s.onRead 0x38) = .next (s.gaveHost s.arg2) ∧
    step (s.onRead 0x3C) = .next (s.gaveHost s.arg3)

/-- 20_memory.md R69: while BUSY a write to CMD, an ARG register, an X word or a DMEM word sets OVR and changes nothing
else (that an X word at XLEN/32 or above sets OVR too is the model's choice, log 12); so whatever legal host access or engine-free event comes short of a reset, what the command reads stays as it
was at issue. -/
def Obligations.WritesWhileBusyAreDropped : Prop :=
  (∀ (s : State) (off : Nat) (v : Word), s.Inv → s.phase = .busy → off % 4 = 0 →
    droppedWhileBusy s.cfg off → step (s.onWrite off v) = .next { s with ovr := true }) ∧
  (∀ (s : State) (e : Event), s.Inv → s.phase = .busy → e.legal s.cfg → ¬ e.resets s.cfg → e ≠ .engine →
    ∃ t, step { s with sched := e :: s.sched } = .next t ∧
      t.phase = .busy ∧ t.pend = s.pend ∧ t.cfg = s.cfg ∧ t.x = s.x ∧ t.dmem = s.dmem ∧
      t.ctxU = s.ctxU ∧ t.ctxP = s.ctxP ∧ t.ctxQ = s.ctxQ ∧ t.ctxN = s.ctxN ∧ t.priv = s.priv ∧
      t.pub = s.pub ∧ t.arg0 = s.arg0 ∧ t.arg1 = s.arg1 ∧ t.arg2 = s.arg2 ∧ t.arg3 = s.arg3 ∧
      t.result = s.result)

/-- 60_exceptions.md R217: the issue of a command. -/
def Obligations.IssueOfACommand : Prop :=
  ∀ (s : State) (v : Word), s.Inv →
    (s.phase = .busy → step (s.onWrite 0x14 v) = .next { s with ovr := true }) ∧
    (s.phase = .idle → step (s.onWrite 0x14 v) =
      .next { s with pend := v, phase := .busy, done := false, err := false, errcode := none }) ∧
    (s.phase = .idle → ∃ t, step (s.onWrite 0x14 v) = .next t ∧ t.irq = false ∧ t.ovr = s.ovr)

/-- 10_state.md R34 to R37, R39; 60_exceptions.md R211: what ARG, RESULT, CMD, STATUS and ERRCODE read as while IDLE,
and a write to an ARG register and to STATUS, whose bits 1 to 3 clear where the written bit is 1. -/
def Obligations.StatusAndArgumentRegisters : Prop :=
  ∀ (s : State) (v : Word), s.Inv →
    (s.phase = .idle →
      step (s.onRead 0x30) = .next (s.gaveHost s.arg0) ∧ step (s.onRead 0x34) = .next (s.gaveHost s.arg1) ∧
      step (s.onRead 0x38) = .next (s.gaveHost s.arg2) ∧ step (s.onRead 0x3C) = .next (s.gaveHost s.arg3) ∧
      step (s.onRead 0x20) = .next (s.gaveHost s.result) ∧ step (s.onRead 0x14) = .next (s.gaveHost s.pend) ∧
      step (s.onRead 0x18) = .next (s.gaveHost
        (BitVec.ofNat 32 (2 * s.done.toNat + 4 * s.err.toNat + 8 * s.ovr.toNat))) ∧
      (s.errcode = none → step (s.onRead 0x1C) = .next (s.gaveHost 0)) ∧
      (∀ (e : Err) (code : Word),
        (e, code) ∈ [(.invalidModulus, 1), (.keyTooLarge, 2), (.inputTooLarge, 3),
          (.malformedKeyRecord, 4), (.digestUnavailable, 5), (.keyNotInvertible, 6), (.notReady, 7),
          (.valueTooWide, 8), (.illegalCommand, 9), (.rangeError, 10)] →
        s.errcode = some e → step (s.onRead 0x1C) = .next (s.gaveHost code)) ∧
      step (s.onWrite 0x30 v) = .next { s with arg0 := v } ∧
      step (s.onWrite 0x34 v) = .next { s with arg1 := v } ∧
      step (s.onWrite 0x38 v) = .next { s with arg2 := v } ∧
      step (s.onWrite 0x3C v) = .next { s with arg3 := v }) ∧
    step (s.onWrite 0x18 v) = .next
      { s with done := s.done && !v.getLsbD 1, err := s.err && !v.getLsbD 2, ovr := s.ovr && !v.getLsbD 3 }

/-- 70_reset_and_hazards.md R240 and R241: a power-on reset and a soft reset, idle or busy, put every field at its
value in the table. Slot fields other than valid are unspecified there, and none is stated. DMEM after power-on is
whatever the event says; the soft reset leaves it as it is. -/
def Obligations.ResetValues : Prop :=
  State.reset.AtReset ∧
  ∀ s : State, s.Inv →
    (∀ contents : Mem, ∃ t, step { s with sched := .powerOn contents :: s.sched } = .next t ∧
      t.AtReset ∧ t.cfg = s.cfg ∧
      (contents.wf → contents.below s.cfg.dmemBytes → ∀ a, t.dmem.read a = contents.read a)) ∧
    (∀ v : Word, v.getLsbD 0 = true → ∃ t, step (s.onWrite 0x10 v) = .next t ∧
      t.AtReset ∧ t.cfg = s.cfg ∧ t.dmem = s.dmem)

/-- 10_state.md R38; 60_exceptions.md R224; 70_reset_and_hazards.md R242: a write to CTRL with SRST while BUSY
abandons the command: DONE stays 0, nothing of it is written, and its completion never comes. Without SRST the write
sets IE and nothing else. SRST reads 0. -/
def Obligations.ControlWritesAndAbandonedCommands : Prop :=
  ∀ (s : State) (v : Word), s.Inv →
    (v.getLsbD 0 = true → s.phase = .busy → ∃ t, step (s.onWrite 0x10 v) = .next t ∧
      t.phase = .idle ∧ t.done = false ∧ t.err = false ∧ t.ie = false ∧ t.dmem = s.dmem ∧
      step t.onEngine = .next t) ∧
    (v.getLsbD 0 = false → step (s.onWrite 0x10 v) = .next { s with ie := v.getLsbD 1 }) ∧
    step (s.onRead 0x10) = .next (s.gaveHost (if s.ie then 2 else 0))

/-- 60_exceptions.md R221: the level of IRQ, and each way it rises and falls. -/
def Obligations.InterruptLine : Prop :=
  (∀ s : State, s.irq = (s.ie && s.done)) ∧
  (∀ (s : State) (v : Word), s.Inv →
    (s.phase = .busy → ∃ t, step s.onEngine = .next t ∧ t.irq = s.ie) ∧
    (v.getLsbD 0 = false → ∃ t, step (s.onWrite 0x10 v) = .next t ∧ t.irq = (v.getLsbD 1 && s.done)) ∧
    (∃ t, step (s.onWrite 0x18 v) = .next t ∧ t.irq = (s.irq && !v.getLsbD 1)) ∧
    (s.phase = .idle → ∃ t, step (s.onWrite 0x14 v) = .next t ∧ t.irq = false) ∧
    (v.getLsbD 0 = true → ∃ t, step (s.onWrite 0x10 v) = .next t ∧ t.irq = false))

/-- 60_exceptions.md R223: OVR is set by a dropped write alone (which writes are: R69, and log 12 for X words at
XLEN/32 or above, the model's choice), and cleared by a W1C write of bit 3 or by a reset
alone; it does not move the interrupt line. -/
def Obligations.OverrunIsSticky : Prop :=
  ∀ (s t : State) (e : Event), s.Inv → step { s with sched := e :: s.sched } = .next t →
    (t.ovr = true ↔
      (s.ovr = true ∧ ¬ e.resets s.cfg ∧
        ¬ ∃ v : Word, e = .write .word (s.cfg.base + 0x18) v ∧ v.getLsbD 3 = true) ∨
      (s.phase = .busy ∧ ∃ off v, e = .write .word (s.cfg.base + off) v ∧ off % 4 = 0 ∧
        off < 0x10000 ∧ droppedWhileBusy s.cfg off)) ∧
    (∀ b, ({ s with ovr := b } : State).irq = s.irq)

/-! ### Invariants -/

/-- The invariant holds after a power-on reset of any legal configuration with any canonical DMEM, and at
`State.reset`. -/
def Obligations.InvariantHoldsAtReset : Prop :=
  State.reset.Inv ∧
  ∀ (cfg : Config) (m : Mem), cfg.wf → m.wf → m.below cfg.dmemBytes → (State.powerOn cfg m).Inv

/-- Every step keeps the invariant: registers stay below 2^XLEN, DMEM canonical and inside the array, valid contexts
and keys good and coherent, BUSY without DONE or ERR, an error with its code, code 4 never. -/
def Obligations.EveryStepKeepsTheInvariant : Prop :=
  ∀ s t : State, s.Inv → step s = .next t → t.Inv

/-- 10_state.md R26, R27, R29, R30: a step changes a context or key slot only when it is a reset, or the completion of
the commands that write that slot; the configuration never changes. -/
def Obligations.KeysAndContextsChangeOnlyByLoads : Prop :=
  ∀ s t : State, step s = .next t →
    t.cfg = s.cfg ∧
    (s.nextResets ∨
      ((t.ctxU = s.ctxU ∨ ∃ i, s.completes i ∧ loadsUserCtx i = true) ∧
        ((t.priv = s.priv ∧ t.ctxP = s.ctxP ∧ t.ctxQ = s.ctxQ) ∨
          ∃ i, s.completes i ∧ loadsPriv i = true) ∧
        ((t.pub = s.pub ∧ t.ctxN = s.ctxN) ∨ ∃ i, s.completes i ∧ loadsPub i = true)))

/-- 10_state.md R31; 45_private_key.md R189: decryption, signing and CRTCOMB never see PUB or ctx[N]; encryption and
verification never see PRIV, ctx[P] or ctx[Q]. -/
def Obligations.KeySidesDoNotMix : Prop :=
  ∀ (s s' t : State) (i : Instr), exec i s = .next t →
    (s' = { s with pub := s'.pub, ctxN := s'.ctxN } →
      ((∃ rd rs1, i = .decrypt rd rs1) ∨ (∃ rd rs1 rs2, i = .crtcomb rd rs1 rs2) ∨ i = .decbytes ∨
        i = .sign) →
      exec i s' = .next { t with pub := s'.pub, ctxN := s'.ctxN }) ∧
    (s' = { s with priv := s'.priv, ctxP := s'.ctxP, ctxQ := s'.ctxQ } →
      ((∃ rd rs1, i = .encrypt rd rs1) ∨ i = .encbytes ∨ i = .verify ∨ i = .verifymsg) →
      exec i s' = .next { t with priv := s'.priv, ctxP := s'.ctxP, ctxQ := s'.ctxQ })
end

