-- ==== Sys2Proof/Laws/Arith.lean ====
section
/-!
SUPPORT. The arithmetic primitives: bit lengths, modular inverses, byte strings.
-/

namespace Sys2Proof.Machine

open Sys2Proof

/-! ### Bit lengths -/

/-- `bitLength v` is the least n with v < 2^n. -/
theorem bitLength_le_iff (v n : Nat) : bitLength v ≤ n ↔ v < 2 ^ n := by
  unfold bitLength
  by_cases h : v = 0
  · simp [h]
  · rw [if_neg h, Nat.succ_le_iff, Nat.log2_lt h]

theorem lt_two_pow_bitLength (v : Nat) : v < 2 ^ bitLength v := (bitLength_le_iff v _).1 le_rfl

/-- A positive number has its top bit at `bitLength v - 1`. -/
theorem two_pow_bitLength_le {v : Nat} (h : 0 < v) : 2 ^ (bitLength v - 1) ≤ v := by
  by_contra hc
  have := (bitLength_le_iff v (bitLength v - 1)).2 (Nat.lt_of_not_le hc)
  have h1 : bitLength v ≠ 0 := by
    simp only [bitLength, Nat.ne_of_gt h, if_false]; omega
  omega

theorem bitLength_pos {v : Nat} (h : 0 < v) : 0 < bitLength v := by
  simp only [bitLength, Nat.ne_of_gt h, if_false]; omega

/-- `byteLen v` bytes hold v. -/
theorem lt_pow_byteLen (v : Nat) : v < 256 ^ byteLen v := by
  have h1 : bitLength v ≤ 8 * byteLen v := by unfold byteLen; omega
  have h2 : (256 : Nat) ^ byteLen v = 2 ^ (8 * byteLen v) := by
    rw [pow_mul]; norm_num
  rw [h2]
  exact (bitLength_le_iff v _).1 h1

/-! ### Inverses -/

/-- The loop keeps `r0 ≡ s0·x` and `r1 ≡ s1·x` mod m, so it ends with a multiplier of the gcd. -/
theorem euclidLoop_spec (m x fuel r0 r1 s0 s1 : Nat) (hf : r1 ≤ fuel) (hs0 : s0 < m) (hs1 : s1 < m)
    (h0 : s0 * x ≡ r0 [MOD m]) (h1 : s1 * x ≡ r1 [MOD m]) :
    euclidLoop m fuel r0 r1 s0 s1 < m ∧
      euclidLoop m fuel r0 r1 s0 s1 * x ≡ Nat.gcd r0 r1 [MOD m] := by
  induction fuel generalizing r0 r1 s0 s1 with
  | zero =>
    obtain rfl : r1 = 0 := by omega
    exact ⟨hs0, by simpa [euclidLoop] using h0⟩
  | succ fuel ih =>
    by_cases hr : r1 = 0
    · subst hr
      exact ⟨by simpa [euclidLoop] using hs0, by simpa [euclidLoop] using h0⟩
    · rw [euclidLoop, if_neg hr]
      have hm : 0 < m := by omega
      have hlt : r0 % r1 < r1 := Nat.mod_lt _ (by omega)
      have hstep : (s0 + (m - r0 / r1 * s1 % m)) % m * x ≡ r0 % r1 [MOD m] := by
        have hle : r0 / r1 * s1 % m ≤ m := (Nat.mod_lt _ hm).le
        have hq : (r0 / r1 * s1 % m) * x ≡ r0 / r1 * r1 [MOD m] := by
          calc (r0 / r1 * s1 % m) * x ≡ (r0 / r1 * s1) * x [MOD m] :=
                (Nat.mod_modEq _ _).mul_right x
            _ = r0 / r1 * (s1 * x) := by ring
            _ ≡ r0 / r1 * r1 [MOD m] := h1.mul_left _
        refine ((Nat.mod_modEq _ _).mul_right x).trans ?_
        apply Nat.ModEq.add_right_cancel' (r0 / r1 * r1)
        calc (s0 + (m - r0 / r1 * s1 % m)) * x + r0 / r1 * r1
            ≡ (s0 + (m - r0 / r1 * s1 % m)) * x + (r0 / r1 * s1 % m) * x [MOD m] := hq.symm.add_left _
          _ = s0 * x + m * x := by
              rw [← add_mul, add_assoc, Nat.sub_add_cancel hle, add_mul]
          _ ≡ r0 + 0 [MOD m] := h0.add (by simp [Nat.ModEq])
          _ = r0 % r1 + r0 / r1 * r1 := by
              rw [add_zero, Nat.mul_comm (r0 / r1) r1, Nat.mod_add_div]
      have := ih r1 (r0 % r1) s1 _ (by omega) hs1 (Nat.mod_lt _ hm) h1 hstep
      rwa [Nat.gcd_comm r1, ← Nat.gcd_rec, Nat.gcd_comm r1] at this

theorem modInv_lt (x : Nat) {m : Nat} (hm : 0 < m) : modInv x m < m :=
  (euclidLoop_spec m x m m (x % m) 0 (1 % m) (Nat.mod_lt _ hm).le hm (Nat.mod_lt _ hm)
    (by simp [Nat.ModEq]) (by simp [Nat.ModEq])).1

/-- The inverse is one where it exists. -/
theorem mul_modInv {x m : Nat} (hm : 0 < m) (h : Nat.gcd (x % m) m = 1) :
    x * modInv x m % m = 1 % m := by
  have := (euclidLoop_spec m x m m (x % m) 0 (1 % m) (Nat.mod_lt _ hm).le hm (Nat.mod_lt _ hm)
    (by simp [Nat.ModEq]) (by simp [Nat.ModEq])).2
  rw [Nat.gcd_comm m, h] at this
  simpa [Nat.ModEq, modInv, Nat.mul_comm] using this

theorem gcd_mod_self (x m : Nat) : Nat.gcd (x % m) m = Nat.gcd x m := by
  rw [Nat.gcd_comm x m, Nat.gcd_rec m x]

/-- Two inverses mod m below m are equal. -/
theorem inverse_unique {x m y z : Nat} (hy : y < m) (hz : z < m) (hxy : x * y % m = 1 % m)
    (hxz : x * z % m = 1 % m) : y = z := by
  have h1 : x * y ≡ 1 [MOD m] := hxy
  have h2 : x * z ≡ 1 [MOD m] := hxz
  have : y ≡ z [MOD m] := by
    calc y ≡ y * (x * z) [MOD m] := by simpa using (h2.mul_left y).symm
      _ = x * y * z := by ring
      _ ≡ 1 * z [MOD m] := h1.mul_right z
      _ = z := one_mul z
  exact Nat.ModEq.eq_of_lt_of_lt this hy hz

/-- What `inv` answers, for a positive modulus. -/
theorem inv?_eq_some_iff {x m y : Nat} (hm : 0 < m) :
    inv? x m = some y ↔ Nat.gcd x m = 1 ∧ y < m ∧ x * y % m = 1 % m := by
  simp only [inv?, gcd_mod_self]
  by_cases h : Nat.gcd x m = 1
  · have hi := mul_modInv hm (by rwa [gcd_mod_self])
    simp only [h, ne_eq, not_true, if_false, Option.some.injEq, true_and]
    constructor
    · rintro rfl; exact ⟨modInv_lt x hm, hi⟩
    · rintro ⟨hy, hxy⟩; exact inverse_unique (modInv_lt x hm) hy hi hxy
  · simp [h]

theorem inv?_eq_none_iff (x m : Nat) : inv? x m = none ↔ Nat.gcd x m ≠ 1 := by
  simp only [inv?, gcd_mod_self]
  by_cases h : Nat.gcd x m = 1 <;> simp [h]

/-! ### Byte strings -/

@[simp] theorem intBe_nil : intBe [] = 0 := rfl

theorem intBe_append_singleton (s : List Byte) (b : Byte) : intBe (s ++ [b]) = intBe s * 256 + b.toNat := by
  simp [intBe, List.foldl_append]

@[simp] theorem length_beBytes (v L : Nat) : (beBytes v L).length = L := by
  induction L generalizing v with
  | zero => rfl
  | succ L ih => simp [beBytes, ih]

/-- A string of L bytes has a value below 256^L. -/
theorem intBe_lt (s : List Byte) : intBe s < 256 ^ s.length := by
  induction s using List.reverseRecOn with
  | nil => simp
  | append_singleton s b ih =>
    have hb : b.toNat < 256 := b.isLt
    simp only [intBe_append_singleton, List.length_append, List.length_singleton, pow_succ]
    omega

/-- The value of the rendering of v at L bytes. -/
theorem intBe_beBytes (v L : Nat) : intBe (beBytes v L) = v % 256 ^ L := by
  induction L generalizing v with
  | zero => simp [beBytes, Nat.mod_one]
  | succ L ih =>
    simp only [beBytes, intBe_append_singleton, ih, BitVec.toNat_ofNat]
    have h : v % 256 ^ (L + 1) = v / 256 % 256 ^ L * 256 + v % 256 := by
      rw [pow_succ, Nat.mul_comm (256 ^ L) 256, Nat.mod_mul]; ring
    rw [h]

/-- A string is the rendering of its value. -/
theorem beBytes_intBe (s : List Byte) : beBytes (intBe s) s.length = s := by
  induction s using List.reverseRecOn with
  | nil => rfl
  | append_singleton s b ih =>
    have hb : b.toNat < 256 := b.isLt
    have h1 : (intBe s * 256 + b.toNat) / 256 = intBe s := by omega
    have h2 : BitVec.ofNat 8 (intBe s * 256 + b.toNat) = b := by
      apply BitVec.eq_of_toNat_eq
      simp only [BitVec.toNat_ofNat]
      omega
    simp only [intBe_append_singleton, List.length_append, List.length_singleton, beBytes, h1, ih, h2]

/-- Byte j of a rendering, the most significant first. -/
theorem getD_beBytes (v : Nat) {L j : Nat} (h : j < L) (d : Byte) :
    (beBytes v L).getD j d = BitVec.ofNat 8 (v / 256 ^ (L - 1 - j)) := by
  induction L generalizing v with
  | zero => omega
  | succ L ih =>
    by_cases hj : j < L
    · have e : L + 1 - 1 - j = (L - 1 - j) + 1 := by omega
      rw [beBytes, List.getD_append _ _ _ _ (by simpa using hj), ih _ hj, e, pow_succ,
        Nat.mul_comm, Nat.div_div_eq_div_mul]
    · obtain rfl : j = L := by omega
      rw [beBytes, List.getD_append_right _ _ _ _ (by simp)]
      simp

end Sys2Proof.Machine
end

