-- ==== Sys2Proof/Laws/Memory.lean ====
section
/-!
SUPPORT. DMEM: reads after writes, and that every memory operation keeps the canonical form and the bound of
the array.
-/

namespace Sys2Proof.Machine

open Sys2Proof

@[simp] theorem Mem.read_nil (a : Nat) : Mem.read [] a = Mem.unlisted := rfl

/-- A canonical memory has a canonical tail. -/
theorem Mem.wf_tail {c : Host.Cell} {m : Mem} (h : Mem.wf (c :: m)) : Mem.wf m :=
  ⟨(List.pairwise_cons.1 h.1).2, fun d hd => h.2 d (List.mem_cons_of_mem _ hd)⟩

/-- An address below every listed one is not listed. -/
theorem Mem.read_of_lt (m : Mem) (a : Nat) (h : ∀ c ∈ m, a < c.1) : m.read a = Mem.unlisted := by
  induction m with
  | nil => rfl
  | cons c m ih =>
    have hc := h c (List.mem_cons_self ..)
    have hne : c.1 ≠ a := by omega
    simp only [Mem.read, hne, if_false]
    exact ih fun d hd => h d (List.mem_cons_of_mem _ hd)

/-- A byte just written reads as written. -/
theorem Mem.read_write_same {m : Mem} (h : m.wf) (a : Nat) (b : Byte) : (m.write a b).read a = b := by
  induction m with
  | nil =>
    by_cases hb : b = Mem.unlisted
    · simp [Mem.write, hb]
    · simp [Mem.write, Mem.read, hb]
  | cons c m ih =>
    have hlt : ∀ d ∈ m, c.1 < d.1 := (List.pairwise_cons.1 h.1).1
    by_cases h1 : a < c.1
    · by_cases hb : b = Mem.unlisted
      · have : Mem.read (c :: m) a = Mem.unlisted := Mem.read_of_lt _ _ fun d hd => by
          rcases List.mem_cons.1 hd with rfl | hd
          · exact h1
          · exact h1.trans (hlt d hd)
        simp [Mem.write, h1, hb, this]
      · simp [Mem.write, Mem.read, h1, hb]
    · by_cases h2 : c.1 = a
      · by_cases hb : b = Mem.unlisted
        · have : Mem.read m a = Mem.unlisted := Mem.read_of_lt _ _ fun d hd => h2 ▸ hlt d hd
          simp [Mem.write, h2, hb, this]
        · simp [Mem.write, Mem.read, h2, hb]
      · simpa [Mem.write, Mem.read, h1, h2] using ih (Mem.wf_tail h)

/-- A write leaves every other byte alone. -/
theorem Mem.read_write_other (m : Mem) {a x : Nat} (b : Byte) (h : x ≠ a) :
    (m.write a b).read x = m.read x := by
  induction m with
  | nil =>
    by_cases hb : b = Mem.unlisted
    · simp [Mem.write, hb]
    · simp [Mem.write, Mem.read, hb, h.symm]
  | cons c m ih =>
    by_cases h1 : a < c.1
    · by_cases hb : b = Mem.unlisted
      · simp [Mem.write, h1, hb]
      · simp [Mem.write, Mem.read, h1, hb, h.symm]
    · by_cases h2 : c.1 = a
      · have hx : c.1 ≠ x := fun e => h (e.symm.trans h2)
        by_cases hb : b = Mem.unlisted
        · subst h2; simp [Mem.write, Mem.read, hb, hx]
        · subst h2; simp [Mem.write, Mem.read, hb, hx]
      · simp [Mem.write, Mem.read, h1, h2, ih]

/-- A byte after a write. -/
theorem Mem.read_write {m : Mem} (h : m.wf) (a x : Nat) (b : Byte) :
    (m.write a b).read x = if x = a then b else m.read x := by
  by_cases hx : x = a
  · subst hx; simp [Mem.read_write_same h]
  · simp [hx, Mem.read_write_other]

/-- The cells after a write are the old ones and the written one. -/
theorem Mem.mem_write {m : Mem} {a : Nat} {b : Byte} {c : Host.Cell} (h : c ∈ m.write a b) :
    c ∈ m ∨ (c = (a, b) ∧ b ≠ Mem.unlisted) := by
  induction m with
  | nil =>
    by_cases hb : b = Mem.unlisted
    · simp [Mem.write, hb] at h
    · simp [Mem.write, hb] at h; exact .inr ⟨h, hb⟩
  | cons d m ih =>
    by_cases h1 : a < d.1
    · by_cases hb : b = Mem.unlisted
      · rw [Mem.write, if_pos h1, if_pos hb] at h; exact .inl h
      · rw [Mem.write, if_pos h1, if_neg hb] at h
        rcases List.mem_cons.1 h with h | h
        · exact .inr ⟨h, hb⟩
        · exact .inl h
    · by_cases h2 : d.1 = a
      · by_cases hb : b = Mem.unlisted
        · rw [Mem.write, if_neg h1, if_pos h2, if_pos hb] at h
          exact .inl (List.mem_cons_of_mem _ h)
        · rw [Mem.write, if_neg h1, if_pos h2, if_neg hb] at h
          rcases List.mem_cons.1 h with h | h
          · exact .inr ⟨h, hb⟩
          · exact .inl (List.mem_cons_of_mem _ h)
      · rw [Mem.write, if_neg h1, if_neg h2] at h
        rcases List.mem_cons.1 h with rfl | h
        · exact .inl (List.mem_cons_self ..)
        · rcases ih h with h | h
          · exact .inl (List.mem_cons_of_mem _ h)
          · exact .inr h

/-- A write keeps the canonical form. -/
theorem Mem.wf_write {m : Mem} (h : m.wf) (a : Nat) (b : Byte) : (m.write a b).wf := by
  refine ⟨?_, fun c hc => ?_⟩
  · induction m with
    | nil =>
      by_cases hb : b = Mem.unlisted
      · simp [Mem.write, hb]
      · simp [Mem.write, hb]
    | cons d m ih =>
      have hp := List.pairwise_cons.1 h.1
      by_cases h1 : a < d.1
      · by_cases hb : b = Mem.unlisted
        · rw [Mem.write, if_pos h1, if_pos hb]; exact h.1
        · rw [Mem.write, if_pos h1, if_neg hb]
          refine List.pairwise_cons.2 ⟨fun c hc => ?_, h.1⟩
          rcases List.mem_cons.1 hc with rfl | hc
          · exact h1
          · exact h1.trans (hp.1 c hc)
      · by_cases h2 : d.1 = a
        · by_cases hb : b = Mem.unlisted
          · rw [Mem.write, if_neg h1, if_pos h2, if_pos hb]; exact hp.2
          · rw [Mem.write, if_neg h1, if_pos h2, if_neg hb]
            exact List.pairwise_cons.2 ⟨fun c hc => h2 ▸ hp.1 c hc, hp.2⟩
        · rw [Mem.write, if_neg h1, if_neg h2]
          refine List.pairwise_cons.2 ⟨fun c hc => ?_, ih (Mem.wf_tail h)⟩
          rcases Mem.mem_write hc with hc | ⟨rfl, -⟩
          · exact hp.1 c hc
          · show d.1 < a
            omega
  · rcases Mem.mem_write hc with hc | ⟨rfl, hb⟩
    · exact h.2 c hc
    · exact hb

/-- A write inside the array keeps the bound. -/
theorem Mem.below_write {m : Mem} {n a : Nat} {b : Byte} (h : m.below n) (ha : a < n) :
    (m.write a b).below n := fun c hc => by
  rcases Mem.mem_write hc with hc | ⟨rfl, -⟩
  · exact h c hc
  · exact ha

/-- Writing a string keeps the canonical form. -/
theorem Mem.wf_writeBytes {m : Mem} (h : m.wf) (a : Nat) (bs : List Byte) : (m.writeBytes a bs).wf := by
  induction bs generalizing m a with
  | nil => exact h
  | cons b bs ih => exact ih (Mem.wf_write h a b) (a + 1)

/-- Writing a string inside the array keeps the bound. -/
theorem Mem.below_writeBytes {m : Mem} {n a : Nat} {bs : List Byte} (h : m.below n)
    (ha : a + bs.length ≤ n) : (m.writeBytes a bs).below n := by
  induction bs generalizing m a with
  | nil => exact h
  | cons b bs ih =>
    simp only [List.length_cons] at ha
    exact ih (Mem.below_write h (by omega)) (by omega)

/-- A byte after `MemWrite`: the string inside the region, the old byte outside. -/
theorem Mem.read_writeBytes {m : Mem} (h : m.wf) (a x : Nat) (bs : List Byte) :
    (m.writeBytes a bs).read x = if a ≤ x ∧ x < a + bs.length then bs.getD (x - a) 0 else m.read x := by
  induction bs generalizing m a with
  | nil =>
    have : ¬ (a ≤ x ∧ x < a + ([] : List Byte).length) := by simp
    simp only [Mem.writeBytes, this, if_false]
  | cons b bs ih =>
    simp only [Mem.writeBytes, ih (Mem.wf_write h a b), List.length_cons, Mem.read_write h]
    rcases lt_trichotomy x a with hx | rfl | hx
    · have h1 : ¬ (a + 1 ≤ x ∧ x < a + 1 + bs.length) := by omega
      have h2 : ¬ (a ≤ x ∧ x < a + (bs.length + 1)) := by omega
      simp only [h1, h2, if_false, Nat.ne_of_lt hx]
    · simp
    · by_cases h3 : x < a + 1 + bs.length
      · have h1 : a + 1 ≤ x ∧ x < a + 1 + bs.length := ⟨hx, h3⟩
        have h2 : a ≤ x ∧ x < a + (bs.length + 1) := by omega
        have h4 : x - a = (x - (a + 1)) + 1 := by omega
        simp only [h1, h2, and_self, if_true, h4, List.getD_cons_succ]
      · have h1 : ¬ (a + 1 ≤ x ∧ x < a + 1 + bs.length) := by omega
        have h2 : ¬ (a ≤ x ∧ x < a + (bs.length + 1)) := by omega
        have h5 : x ≠ a := by omega
        simp only [h1, h2, if_false, h5]

@[simp] theorem Mem.length_readBytes (m : Mem) (a n : Nat) : (m.readBytes a n).length = n := by
  simp [Mem.readBytes]

/-- Byte j of a region. -/
theorem Mem.getD_readBytes (m : Mem) {a n j : Nat} (h : j < n) (d : Byte) :
    (m.readBytes a n).getD j d = m.read (a + j) := by
  simp [Mem.readBytes, List.getD, h]

/-- The canonical memory of a list of cells is canonical. -/
theorem Mem.wf_ofCells (n : Nat) (cells : List Host.Cell) : (Mem.ofCells n cells).wf := by
  have key : ∀ (cs : List Host.Cell) (m : Mem), m.wf →
      Mem.wf (cs.foldl (fun m c => if c.1 < n then Mem.write m c.1 c.2 else m) m) := by
    intro cs
    induction cs with
    | nil => intro m h; exact h
    | cons c cs ih =>
      intro m h
      refine ih _ ?_
      by_cases hc : c.1 < n
      · simpa [hc] using Mem.wf_write h c.1 c.2
      · simpa [hc] using h
  exact key cells [] ⟨List.Pairwise.nil, by simp⟩

/-- … and lies in the array. -/
theorem Mem.below_ofCells (n : Nat) (cells : List Host.Cell) : (Mem.ofCells n cells).below n := by
  have key : ∀ (cs : List Host.Cell) (m : Mem), m.below n →
      Mem.below (cs.foldl (fun m c => if c.1 < n then Mem.write m c.1 c.2 else m) m) n := by
    intro cs
    induction cs with
    | nil => intro m h; exact h
    | cons c cs ih =>
      intro m h
      refine ih _ ?_
      by_cases hc : c.1 < n
      · simpa [hc] using Mem.below_write (b := c.2) h hc
      · simpa [hc] using h
  exact key cells [] (by simp)

/-- An address that is not listed reads as `Mem.unlisted`. -/
theorem Mem.read_of_not_mem : ∀ (m : Mem) (a : Nat), (∀ c ∈ m, c.1 ≠ a) → m.read a = Mem.unlisted
  | [], _, _ => rfl
  | c :: m, a, h => by
    unfold Mem.read
    rw [if_neg (h c (List.mem_cons_self ..))]; exact Mem.read_of_not_mem m a fun d hd => h d (List.mem_cons_of_mem _ hd)

/-- A canonical memory of the array is `ofCells` of itself, read byte by byte. -/
theorem Mem.read_ofCells (n : Nat) (cells : Mem) (hw : cells.wf) (hb : cells.below n) (a : Nat) :
    (Mem.ofCells n cells).read a = cells.read a := by
  have key : ∀ (cs : Mem) (m : Mem), m.wf → cs.wf → cs.below n →
      Mem.read (cs.foldl (fun m c => if c.1 < n then Mem.write m c.1 c.2 else m) m) a =
        if ∃ c ∈ cs, c.1 = a then cs.read a else m.read a := by
    intro cs
    induction cs with
    | nil => intro m _ _ _; simp
    | cons c cs ih =>
      intro m hm hc hb
      rw [List.foldl_cons, if_pos (hb c (List.mem_cons_self ..)), ih _ (Mem.wf_write hm _ _) (Mem.wf_tail hc)
        (fun d hd => hb d (List.mem_cons_of_mem _ hd))]
      by_cases h1 : c.1 = a
      · have : ¬ ∃ d ∈ cs, d.1 = a := by
          rintro ⟨d, hd, h2⟩
          have := (List.pairwise_cons.1 hc.1).1 d hd
          omega
        rw [if_neg this, if_pos ⟨c, List.mem_cons_self .., h1⟩, Mem.read_write hm, if_pos h1.symm]
        unfold Mem.read; rw [if_pos h1]
      · rw [Mem.read_write hm, if_neg (Ne.symm h1)]
        have e : (∃ d ∈ c :: cs, d.1 = a) ↔ ∃ d ∈ cs, d.1 = a := by simp [h1]
        have e2 : Mem.read (c :: cs) a = Mem.read cs a := by
          show (if c.1 = a then c.2 else Mem.read cs a) = _; rw [if_neg h1]
        simp only [e, e2]
  unfold Mem.ofCells
  rw [key cells [] ⟨List.Pairwise.nil, by simp⟩ hw hb]
  split
  · rfl
  · rename_i h; rw [Mem.read_of_not_mem cells a]; rfl
    intro c hc he; exact h ⟨c, hc, he⟩

end Sys2Proof.Machine
end

