-- ==== Sys2Proof/Laws/State.lean ====
section
/-!
SUPPORT. What each update of the state does to each field: one lemma per field per update, so that no proof
unfolds a record update.
-/

namespace Sys2Proof.Machine

open Sys2Proof

/-- The default configuration is a legal one (00_scope.md R7). -/
theorem Config.default_wf : Config.default.wf := by
  have h : (65537 : Nat) < 2 ^ 1024 := Nat.lt_of_lt_of_le (by decide)
    (Nat.pow_le_pow_right (by decide) (by decide : 17 ≤ 1024))
  exact ⟨by decide, by decide, by decide, by decide, h, by decide⟩

variable (s : State)

/-! ### `setX` -/

@[simp] theorem State.setX_cfg (i : XReg) (v : Nat) : (s.setX i v).cfg = s.cfg := rfl
@[simp] theorem State.setX_x (i : XReg) (v : Nat) : (s.setX i v).x = s.x.set i v := rfl
@[simp] theorem State.setX_dmem (i : XReg) (v : Nat) : (s.setX i v).dmem = s.dmem := rfl
@[simp] theorem State.setX_ctxU (i : XReg) (v : Nat) : (s.setX i v).ctxU = s.ctxU := rfl
@[simp] theorem State.setX_ctxP (i : XReg) (v : Nat) : (s.setX i v).ctxP = s.ctxP := rfl
@[simp] theorem State.setX_ctxQ (i : XReg) (v : Nat) : (s.setX i v).ctxQ = s.ctxQ := rfl
@[simp] theorem State.setX_ctxN (i : XReg) (v : Nat) : (s.setX i v).ctxN = s.ctxN := rfl
@[simp] theorem State.setX_priv (i : XReg) (v : Nat) : (s.setX i v).priv = s.priv := rfl
@[simp] theorem State.setX_pub (i : XReg) (v : Nat) : (s.setX i v).pub = s.pub := rfl
@[simp] theorem State.setX_arg0 (i : XReg) (v : Nat) : (s.setX i v).arg0 = s.arg0 := rfl
@[simp] theorem State.setX_arg1 (i : XReg) (v : Nat) : (s.setX i v).arg1 = s.arg1 := rfl
@[simp] theorem State.setX_arg2 (i : XReg) (v : Nat) : (s.setX i v).arg2 = s.arg2 := rfl
@[simp] theorem State.setX_arg3 (i : XReg) (v : Nat) : (s.setX i v).arg3 = s.arg3 := rfl
@[simp] theorem State.setX_result (i : XReg) (v : Nat) : (s.setX i v).result = s.result := rfl
@[simp] theorem State.setX_done (i : XReg) (v : Nat) : (s.setX i v).done = s.done := rfl
@[simp] theorem State.setX_err (i : XReg) (v : Nat) : (s.setX i v).err = s.err := rfl
@[simp] theorem State.setX_ovr (i : XReg) (v : Nat) : (s.setX i v).ovr = s.ovr := rfl
@[simp] theorem State.setX_errcode (i : XReg) (v : Nat) : (s.setX i v).errcode = s.errcode := rfl
@[simp] theorem State.setX_ie (i : XReg) (v : Nat) : (s.setX i v).ie = s.ie := rfl
@[simp] theorem State.setX_phase (i : XReg) (v : Nat) : (s.setX i v).phase = s.phase := rfl
@[simp] theorem State.setX_pend (i : XReg) (v : Nat) : (s.setX i v).pend = s.pend := rfl
@[simp] theorem State.setX_sched (i : XReg) (v : Nat) : (s.setX i v).sched = s.sched := rfl
@[simp] theorem State.setX_reads (i : XReg) (v : Nat) : (s.setX i v).reads = s.reads := rfl
@[simp] theorem State.setX_draws (i : XReg) (v : Nat) : (s.setX i v).draws = s.draws := rfl

/-! ### `memWrite` -/

@[simp] theorem State.memWrite_cfg (a : Nat) (bs : List Byte) : (s.memWrite a bs).cfg = s.cfg := rfl
@[simp] theorem State.memWrite_x (a : Nat) (bs : List Byte) : (s.memWrite a bs).x = s.x := rfl
@[simp] theorem State.memWrite_dmem (a : Nat) (bs : List Byte) : (s.memWrite a bs).dmem = s.dmem.writeBytes a bs := rfl
@[simp] theorem State.memWrite_ctxU (a : Nat) (bs : List Byte) : (s.memWrite a bs).ctxU = s.ctxU := rfl
@[simp] theorem State.memWrite_ctxP (a : Nat) (bs : List Byte) : (s.memWrite a bs).ctxP = s.ctxP := rfl
@[simp] theorem State.memWrite_ctxQ (a : Nat) (bs : List Byte) : (s.memWrite a bs).ctxQ = s.ctxQ := rfl
@[simp] theorem State.memWrite_ctxN (a : Nat) (bs : List Byte) : (s.memWrite a bs).ctxN = s.ctxN := rfl
@[simp] theorem State.memWrite_priv (a : Nat) (bs : List Byte) : (s.memWrite a bs).priv = s.priv := rfl
@[simp] theorem State.memWrite_pub (a : Nat) (bs : List Byte) : (s.memWrite a bs).pub = s.pub := rfl
@[simp] theorem State.memWrite_arg0 (a : Nat) (bs : List Byte) : (s.memWrite a bs).arg0 = s.arg0 := rfl
@[simp] theorem State.memWrite_arg1 (a : Nat) (bs : List Byte) : (s.memWrite a bs).arg1 = s.arg1 := rfl
@[simp] theorem State.memWrite_arg2 (a : Nat) (bs : List Byte) : (s.memWrite a bs).arg2 = s.arg2 := rfl
@[simp] theorem State.memWrite_arg3 (a : Nat) (bs : List Byte) : (s.memWrite a bs).arg3 = s.arg3 := rfl
@[simp] theorem State.memWrite_result (a : Nat) (bs : List Byte) : (s.memWrite a bs).result = s.result := rfl
@[simp] theorem State.memWrite_done (a : Nat) (bs : List Byte) : (s.memWrite a bs).done = s.done := rfl
@[simp] theorem State.memWrite_err (a : Nat) (bs : List Byte) : (s.memWrite a bs).err = s.err := rfl
@[simp] theorem State.memWrite_ovr (a : Nat) (bs : List Byte) : (s.memWrite a bs).ovr = s.ovr := rfl
@[simp] theorem State.memWrite_errcode (a : Nat) (bs : List Byte) : (s.memWrite a bs).errcode = s.errcode := rfl
@[simp] theorem State.memWrite_ie (a : Nat) (bs : List Byte) : (s.memWrite a bs).ie = s.ie := rfl
@[simp] theorem State.memWrite_phase (a : Nat) (bs : List Byte) : (s.memWrite a bs).phase = s.phase := rfl
@[simp] theorem State.memWrite_pend (a : Nat) (bs : List Byte) : (s.memWrite a bs).pend = s.pend := rfl
@[simp] theorem State.memWrite_sched (a : Nat) (bs : List Byte) : (s.memWrite a bs).sched = s.sched := rfl
@[simp] theorem State.memWrite_reads (a : Nat) (bs : List Byte) : (s.memWrite a bs).reads = s.reads := rfl
@[simp] theorem State.memWrite_draws (a : Nat) (bs : List Byte) : (s.memWrite a bs).draws = s.draws := rfl

/-! ### `setResult` -/

@[simp] theorem State.setResult_cfg (v : Nat) : (s.setResult v).cfg = s.cfg := rfl
@[simp] theorem State.setResult_x (v : Nat) : (s.setResult v).x = s.x := rfl
@[simp] theorem State.setResult_dmem (v : Nat) : (s.setResult v).dmem = s.dmem := rfl
@[simp] theorem State.setResult_ctxU (v : Nat) : (s.setResult v).ctxU = s.ctxU := rfl
@[simp] theorem State.setResult_ctxP (v : Nat) : (s.setResult v).ctxP = s.ctxP := rfl
@[simp] theorem State.setResult_ctxQ (v : Nat) : (s.setResult v).ctxQ = s.ctxQ := rfl
@[simp] theorem State.setResult_ctxN (v : Nat) : (s.setResult v).ctxN = s.ctxN := rfl
@[simp] theorem State.setResult_priv (v : Nat) : (s.setResult v).priv = s.priv := rfl
@[simp] theorem State.setResult_pub (v : Nat) : (s.setResult v).pub = s.pub := rfl
@[simp] theorem State.setResult_arg0 (v : Nat) : (s.setResult v).arg0 = s.arg0 := rfl
@[simp] theorem State.setResult_arg1 (v : Nat) : (s.setResult v).arg1 = s.arg1 := rfl
@[simp] theorem State.setResult_arg2 (v : Nat) : (s.setResult v).arg2 = s.arg2 := rfl
@[simp] theorem State.setResult_arg3 (v : Nat) : (s.setResult v).arg3 = s.arg3 := rfl
@[simp] theorem State.setResult_result (v : Nat) : (s.setResult v).result = BitVec.ofNat 32 v := rfl
@[simp] theorem State.setResult_done (v : Nat) : (s.setResult v).done = s.done := rfl
@[simp] theorem State.setResult_err (v : Nat) : (s.setResult v).err = s.err := rfl
@[simp] theorem State.setResult_ovr (v : Nat) : (s.setResult v).ovr = s.ovr := rfl
@[simp] theorem State.setResult_errcode (v : Nat) : (s.setResult v).errcode = s.errcode := rfl
@[simp] theorem State.setResult_ie (v : Nat) : (s.setResult v).ie = s.ie := rfl
@[simp] theorem State.setResult_phase (v : Nat) : (s.setResult v).phase = s.phase := rfl
@[simp] theorem State.setResult_pend (v : Nat) : (s.setResult v).pend = s.pend := rfl
@[simp] theorem State.setResult_sched (v : Nat) : (s.setResult v).sched = s.sched := rfl
@[simp] theorem State.setResult_reads (v : Nat) : (s.setResult v).reads = s.reads := rfl
@[simp] theorem State.setResult_draws (v : Nat) : (s.setResult v).draws = s.draws := rfl

/-! ### `setCtxU` -/

@[simp] theorem State.setCtxU_cfg (c : Ctx) : (s.setCtxU c).cfg = s.cfg := rfl
@[simp] theorem State.setCtxU_x (c : Ctx) : (s.setCtxU c).x = s.x := rfl
@[simp] theorem State.setCtxU_dmem (c : Ctx) : (s.setCtxU c).dmem = s.dmem := rfl
@[simp] theorem State.setCtxU_ctxU (c : Ctx) : (s.setCtxU c).ctxU = c := rfl
@[simp] theorem State.setCtxU_ctxP (c : Ctx) : (s.setCtxU c).ctxP = s.ctxP := rfl
@[simp] theorem State.setCtxU_ctxQ (c : Ctx) : (s.setCtxU c).ctxQ = s.ctxQ := rfl
@[simp] theorem State.setCtxU_ctxN (c : Ctx) : (s.setCtxU c).ctxN = s.ctxN := rfl
@[simp] theorem State.setCtxU_priv (c : Ctx) : (s.setCtxU c).priv = s.priv := rfl
@[simp] theorem State.setCtxU_pub (c : Ctx) : (s.setCtxU c).pub = s.pub := rfl
@[simp] theorem State.setCtxU_arg0 (c : Ctx) : (s.setCtxU c).arg0 = s.arg0 := rfl
@[simp] theorem State.setCtxU_arg1 (c : Ctx) : (s.setCtxU c).arg1 = s.arg1 := rfl
@[simp] theorem State.setCtxU_arg2 (c : Ctx) : (s.setCtxU c).arg2 = s.arg2 := rfl
@[simp] theorem State.setCtxU_arg3 (c : Ctx) : (s.setCtxU c).arg3 = s.arg3 := rfl
@[simp] theorem State.setCtxU_result (c : Ctx) : (s.setCtxU c).result = s.result := rfl
@[simp] theorem State.setCtxU_done (c : Ctx) : (s.setCtxU c).done = s.done := rfl
@[simp] theorem State.setCtxU_err (c : Ctx) : (s.setCtxU c).err = s.err := rfl
@[simp] theorem State.setCtxU_ovr (c : Ctx) : (s.setCtxU c).ovr = s.ovr := rfl
@[simp] theorem State.setCtxU_errcode (c : Ctx) : (s.setCtxU c).errcode = s.errcode := rfl
@[simp] theorem State.setCtxU_ie (c : Ctx) : (s.setCtxU c).ie = s.ie := rfl
@[simp] theorem State.setCtxU_phase (c : Ctx) : (s.setCtxU c).phase = s.phase := rfl
@[simp] theorem State.setCtxU_pend (c : Ctx) : (s.setCtxU c).pend = s.pend := rfl
@[simp] theorem State.setCtxU_sched (c : Ctx) : (s.setCtxU c).sched = s.sched := rfl
@[simp] theorem State.setCtxU_reads (c : Ctx) : (s.setCtxU c).reads = s.reads := rfl
@[simp] theorem State.setCtxU_draws (c : Ctx) : (s.setCtxU c).draws = s.draws := rfl

/-! ### `setPub` -/

@[simp] theorem State.setPub_cfg (k : Pub) (c : Ctx) : (s.setPub k c).cfg = s.cfg := rfl
@[simp] theorem State.setPub_x (k : Pub) (c : Ctx) : (s.setPub k c).x = s.x := rfl
@[simp] theorem State.setPub_dmem (k : Pub) (c : Ctx) : (s.setPub k c).dmem = s.dmem := rfl
@[simp] theorem State.setPub_ctxU (k : Pub) (c : Ctx) : (s.setPub k c).ctxU = s.ctxU := rfl
@[simp] theorem State.setPub_ctxP (k : Pub) (c : Ctx) : (s.setPub k c).ctxP = s.ctxP := rfl
@[simp] theorem State.setPub_ctxQ (k : Pub) (c : Ctx) : (s.setPub k c).ctxQ = s.ctxQ := rfl
@[simp] theorem State.setPub_ctxN (k : Pub) (c : Ctx) : (s.setPub k c).ctxN = c := rfl
@[simp] theorem State.setPub_priv (k : Pub) (c : Ctx) : (s.setPub k c).priv = s.priv := rfl
@[simp] theorem State.setPub_pub (k : Pub) (c : Ctx) : (s.setPub k c).pub = k := rfl
@[simp] theorem State.setPub_arg0 (k : Pub) (c : Ctx) : (s.setPub k c).arg0 = s.arg0 := rfl
@[simp] theorem State.setPub_arg1 (k : Pub) (c : Ctx) : (s.setPub k c).arg1 = s.arg1 := rfl
@[simp] theorem State.setPub_arg2 (k : Pub) (c : Ctx) : (s.setPub k c).arg2 = s.arg2 := rfl
@[simp] theorem State.setPub_arg3 (k : Pub) (c : Ctx) : (s.setPub k c).arg3 = s.arg3 := rfl
@[simp] theorem State.setPub_result (k : Pub) (c : Ctx) : (s.setPub k c).result = s.result := rfl
@[simp] theorem State.setPub_done (k : Pub) (c : Ctx) : (s.setPub k c).done = s.done := rfl
@[simp] theorem State.setPub_err (k : Pub) (c : Ctx) : (s.setPub k c).err = s.err := rfl
@[simp] theorem State.setPub_ovr (k : Pub) (c : Ctx) : (s.setPub k c).ovr = s.ovr := rfl
@[simp] theorem State.setPub_errcode (k : Pub) (c : Ctx) : (s.setPub k c).errcode = s.errcode := rfl
@[simp] theorem State.setPub_ie (k : Pub) (c : Ctx) : (s.setPub k c).ie = s.ie := rfl
@[simp] theorem State.setPub_phase (k : Pub) (c : Ctx) : (s.setPub k c).phase = s.phase := rfl
@[simp] theorem State.setPub_pend (k : Pub) (c : Ctx) : (s.setPub k c).pend = s.pend := rfl
@[simp] theorem State.setPub_sched (k : Pub) (c : Ctx) : (s.setPub k c).sched = s.sched := rfl
@[simp] theorem State.setPub_reads (k : Pub) (c : Ctx) : (s.setPub k c).reads = s.reads := rfl
@[simp] theorem State.setPub_draws (k : Pub) (c : Ctx) : (s.setPub k c).draws = s.draws := rfl

/-! ### `setPriv` -/

@[simp] theorem State.setPriv_cfg (k : Priv) (c d : Ctx) : (s.setPriv k c d).cfg = s.cfg := rfl
@[simp] theorem State.setPriv_x (k : Priv) (c d : Ctx) : (s.setPriv k c d).x = s.x := rfl
@[simp] theorem State.setPriv_dmem (k : Priv) (c d : Ctx) : (s.setPriv k c d).dmem = s.dmem := rfl
@[simp] theorem State.setPriv_ctxU (k : Priv) (c d : Ctx) : (s.setPriv k c d).ctxU = s.ctxU := rfl
@[simp] theorem State.setPriv_ctxP (k : Priv) (c d : Ctx) : (s.setPriv k c d).ctxP = c := rfl
@[simp] theorem State.setPriv_ctxQ (k : Priv) (c d : Ctx) : (s.setPriv k c d).ctxQ = d := rfl
@[simp] theorem State.setPriv_ctxN (k : Priv) (c d : Ctx) : (s.setPriv k c d).ctxN = s.ctxN := rfl
@[simp] theorem State.setPriv_priv (k : Priv) (c d : Ctx) : (s.setPriv k c d).priv = k := rfl
@[simp] theorem State.setPriv_pub (k : Priv) (c d : Ctx) : (s.setPriv k c d).pub = s.pub := rfl
@[simp] theorem State.setPriv_arg0 (k : Priv) (c d : Ctx) : (s.setPriv k c d).arg0 = s.arg0 := rfl
@[simp] theorem State.setPriv_arg1 (k : Priv) (c d : Ctx) : (s.setPriv k c d).arg1 = s.arg1 := rfl
@[simp] theorem State.setPriv_arg2 (k : Priv) (c d : Ctx) : (s.setPriv k c d).arg2 = s.arg2 := rfl
@[simp] theorem State.setPriv_arg3 (k : Priv) (c d : Ctx) : (s.setPriv k c d).arg3 = s.arg3 := rfl
@[simp] theorem State.setPriv_result (k : Priv) (c d : Ctx) : (s.setPriv k c d).result = s.result := rfl
@[simp] theorem State.setPriv_done (k : Priv) (c d : Ctx) : (s.setPriv k c d).done = s.done := rfl
@[simp] theorem State.setPriv_err (k : Priv) (c d : Ctx) : (s.setPriv k c d).err = s.err := rfl
@[simp] theorem State.setPriv_ovr (k : Priv) (c d : Ctx) : (s.setPriv k c d).ovr = s.ovr := rfl
@[simp] theorem State.setPriv_errcode (k : Priv) (c d : Ctx) : (s.setPriv k c d).errcode = s.errcode := rfl
@[simp] theorem State.setPriv_ie (k : Priv) (c d : Ctx) : (s.setPriv k c d).ie = s.ie := rfl
@[simp] theorem State.setPriv_phase (k : Priv) (c d : Ctx) : (s.setPriv k c d).phase = s.phase := rfl
@[simp] theorem State.setPriv_pend (k : Priv) (c d : Ctx) : (s.setPriv k c d).pend = s.pend := rfl
@[simp] theorem State.setPriv_sched (k : Priv) (c d : Ctx) : (s.setPriv k c d).sched = s.sched := rfl
@[simp] theorem State.setPriv_reads (k : Priv) (c d : Ctx) : (s.setPriv k c d).reads = s.reads := rfl
@[simp] theorem State.setPriv_draws (k : Priv) (c d : Ctx) : (s.setPriv k c d).draws = s.draws := rfl

/-! ### `succeed` -/

@[simp] theorem State.succeed_cfg : s.succeed.cfg = s.cfg := rfl
@[simp] theorem State.succeed_x : s.succeed.x = s.x := rfl
@[simp] theorem State.succeed_dmem : s.succeed.dmem = s.dmem := rfl
@[simp] theorem State.succeed_ctxU : s.succeed.ctxU = s.ctxU := rfl
@[simp] theorem State.succeed_ctxP : s.succeed.ctxP = s.ctxP := rfl
@[simp] theorem State.succeed_ctxQ : s.succeed.ctxQ = s.ctxQ := rfl
@[simp] theorem State.succeed_ctxN : s.succeed.ctxN = s.ctxN := rfl
@[simp] theorem State.succeed_priv : s.succeed.priv = s.priv := rfl
@[simp] theorem State.succeed_pub : s.succeed.pub = s.pub := rfl
@[simp] theorem State.succeed_arg0 : s.succeed.arg0 = s.arg0 := rfl
@[simp] theorem State.succeed_arg1 : s.succeed.arg1 = s.arg1 := rfl
@[simp] theorem State.succeed_arg2 : s.succeed.arg2 = s.arg2 := rfl
@[simp] theorem State.succeed_arg3 : s.succeed.arg3 = s.arg3 := rfl
@[simp] theorem State.succeed_result : s.succeed.result = s.result := rfl
@[simp] theorem State.succeed_done : s.succeed.done = true := rfl
@[simp] theorem State.succeed_err : s.succeed.err = false := rfl
@[simp] theorem State.succeed_ovr : s.succeed.ovr = s.ovr := rfl
@[simp] theorem State.succeed_errcode : s.succeed.errcode = none := rfl
@[simp] theorem State.succeed_ie : s.succeed.ie = s.ie := rfl
@[simp] theorem State.succeed_phase : s.succeed.phase = .idle := rfl
@[simp] theorem State.succeed_pend : s.succeed.pend = s.pend := rfl
@[simp] theorem State.succeed_sched : s.succeed.sched = s.sched := rfl
@[simp] theorem State.succeed_reads : s.succeed.reads = s.reads := rfl
@[simp] theorem State.succeed_draws : s.succeed.draws = s.draws := rfl

/-! ### `fail` -/

@[simp] theorem State.fail_cfg (e : Err) : (s.fail e).cfg = s.cfg := rfl
@[simp] theorem State.fail_x (e : Err) : (s.fail e).x = s.x := rfl
@[simp] theorem State.fail_dmem (e : Err) : (s.fail e).dmem = s.dmem := rfl
@[simp] theorem State.fail_ctxU (e : Err) : (s.fail e).ctxU = s.ctxU := rfl
@[simp] theorem State.fail_ctxP (e : Err) : (s.fail e).ctxP = s.ctxP := rfl
@[simp] theorem State.fail_ctxQ (e : Err) : (s.fail e).ctxQ = s.ctxQ := rfl
@[simp] theorem State.fail_ctxN (e : Err) : (s.fail e).ctxN = s.ctxN := rfl
@[simp] theorem State.fail_priv (e : Err) : (s.fail e).priv = s.priv := rfl
@[simp] theorem State.fail_pub (e : Err) : (s.fail e).pub = s.pub := rfl
@[simp] theorem State.fail_arg0 (e : Err) : (s.fail e).arg0 = s.arg0 := rfl
@[simp] theorem State.fail_arg1 (e : Err) : (s.fail e).arg1 = s.arg1 := rfl
@[simp] theorem State.fail_arg2 (e : Err) : (s.fail e).arg2 = s.arg2 := rfl
@[simp] theorem State.fail_arg3 (e : Err) : (s.fail e).arg3 = s.arg3 := rfl
@[simp] theorem State.fail_result (e : Err) : (s.fail e).result = s.result := rfl
@[simp] theorem State.fail_done (e : Err) : (s.fail e).done = true := rfl
@[simp] theorem State.fail_err (e : Err) : (s.fail e).err = true := rfl
@[simp] theorem State.fail_ovr (e : Err) : (s.fail e).ovr = s.ovr := rfl
@[simp] theorem State.fail_errcode (e : Err) : (s.fail e).errcode = some e := rfl
@[simp] theorem State.fail_ie (e : Err) : (s.fail e).ie = s.ie := rfl
@[simp] theorem State.fail_phase (e : Err) : (s.fail e).phase = .idle := rfl
@[simp] theorem State.fail_pend (e : Err) : (s.fail e).pend = s.pend := rfl
@[simp] theorem State.fail_sched (e : Err) : (s.fail e).sched = s.sched := rfl
@[simp] theorem State.fail_reads (e : Err) : (s.fail e).reads = s.reads := rfl
@[simp] theorem State.fail_draws (e : Err) : (s.fail e).draws = s.draws := rfl

/-! ### `drop` -/

@[simp] theorem State.drop_cfg : s.drop.cfg = s.cfg := rfl
@[simp] theorem State.drop_x : s.drop.x = s.x := rfl
@[simp] theorem State.drop_dmem : s.drop.dmem = s.dmem := rfl
@[simp] theorem State.drop_ctxU : s.drop.ctxU = s.ctxU := rfl
@[simp] theorem State.drop_ctxP : s.drop.ctxP = s.ctxP := rfl
@[simp] theorem State.drop_ctxQ : s.drop.ctxQ = s.ctxQ := rfl
@[simp] theorem State.drop_ctxN : s.drop.ctxN = s.ctxN := rfl
@[simp] theorem State.drop_priv : s.drop.priv = s.priv := rfl
@[simp] theorem State.drop_pub : s.drop.pub = s.pub := rfl
@[simp] theorem State.drop_arg0 : s.drop.arg0 = s.arg0 := rfl
@[simp] theorem State.drop_arg1 : s.drop.arg1 = s.arg1 := rfl
@[simp] theorem State.drop_arg2 : s.drop.arg2 = s.arg2 := rfl
@[simp] theorem State.drop_arg3 : s.drop.arg3 = s.arg3 := rfl
@[simp] theorem State.drop_result : s.drop.result = s.result := rfl
@[simp] theorem State.drop_done : s.drop.done = s.done := rfl
@[simp] theorem State.drop_err : s.drop.err = s.err := rfl
@[simp] theorem State.drop_ovr : s.drop.ovr = true := rfl
@[simp] theorem State.drop_errcode : s.drop.errcode = s.errcode := rfl
@[simp] theorem State.drop_ie : s.drop.ie = s.ie := rfl
@[simp] theorem State.drop_phase : s.drop.phase = s.phase := rfl
@[simp] theorem State.drop_pend : s.drop.pend = s.pend := rfl
@[simp] theorem State.drop_sched : s.drop.sched = s.sched := rfl
@[simp] theorem State.drop_reads : s.drop.reads = s.reads := rfl
@[simp] theorem State.drop_draws : s.drop.draws = s.draws := rfl

/-! ### `issue` -/

@[simp] theorem State.issue_cfg (v : Word) : (s.issue v).cfg = s.cfg := rfl
@[simp] theorem State.issue_x (v : Word) : (s.issue v).x = s.x := rfl
@[simp] theorem State.issue_dmem (v : Word) : (s.issue v).dmem = s.dmem := rfl
@[simp] theorem State.issue_ctxU (v : Word) : (s.issue v).ctxU = s.ctxU := rfl
@[simp] theorem State.issue_ctxP (v : Word) : (s.issue v).ctxP = s.ctxP := rfl
@[simp] theorem State.issue_ctxQ (v : Word) : (s.issue v).ctxQ = s.ctxQ := rfl
@[simp] theorem State.issue_ctxN (v : Word) : (s.issue v).ctxN = s.ctxN := rfl
@[simp] theorem State.issue_priv (v : Word) : (s.issue v).priv = s.priv := rfl
@[simp] theorem State.issue_pub (v : Word) : (s.issue v).pub = s.pub := rfl
@[simp] theorem State.issue_arg0 (v : Word) : (s.issue v).arg0 = s.arg0 := rfl
@[simp] theorem State.issue_arg1 (v : Word) : (s.issue v).arg1 = s.arg1 := rfl
@[simp] theorem State.issue_arg2 (v : Word) : (s.issue v).arg2 = s.arg2 := rfl
@[simp] theorem State.issue_arg3 (v : Word) : (s.issue v).arg3 = s.arg3 := rfl
@[simp] theorem State.issue_result (v : Word) : (s.issue v).result = s.result := rfl
@[simp] theorem State.issue_done (v : Word) : (s.issue v).done = false := rfl
@[simp] theorem State.issue_err (v : Word) : (s.issue v).err = false := rfl
@[simp] theorem State.issue_ovr (v : Word) : (s.issue v).ovr = s.ovr := rfl
@[simp] theorem State.issue_errcode (v : Word) : (s.issue v).errcode = none := rfl
@[simp] theorem State.issue_ie (v : Word) : (s.issue v).ie = s.ie := rfl
@[simp] theorem State.issue_phase (v : Word) : (s.issue v).phase = .busy := rfl
@[simp] theorem State.issue_pend (v : Word) : (s.issue v).pend = v := rfl
@[simp] theorem State.issue_sched (v : Word) : (s.issue v).sched = s.sched := rfl
@[simp] theorem State.issue_reads (v : Word) : (s.issue v).reads = s.reads := rfl
@[simp] theorem State.issue_draws (v : Word) : (s.issue v).draws = s.draws := rfl

/-! ### Reads of registers and slots through the updates -/

/-- A written register holds the value written. -/
@[simp] theorem State.getX_setX_same (i : XReg) (v : Nat) : (s.setX i v).getX i = v := by
  simp [State.getX]

/-- Every other register is unchanged. -/
theorem State.getX_setX_other {i j : XReg} (v : Nat) (h : j ≠ i) : (s.setX i v).getX j = s.getX j := by
  have h' : (i : Nat) ≠ j := fun e => h (Fin.ext e.symm)
  simp [State.getX, h']

/-- A register after a write of register `i`. -/
theorem State.getX_setX (i j : XReg) (v : Nat) :
    (s.setX i v).getX j = if j = i then v else s.getX j := by
  by_cases h : j = i
  · subst h; simp
  · simp [h, State.getX_setX_other]

/-- `getX` reads the register file. -/
theorem State.getX_congr {s t : State} (h : t.x = s.x) (i : XReg) : t.getX i = s.getX i := by
  simp [State.getX, h]

@[simp] theorem State.setX_argNat (i : XReg) (v : Nat) (r : Fin 4) : (s.setX i v).argNat r = s.argNat r := rfl
@[simp] theorem State.setX_ctx (i : XReg) (v : Nat) (r : CtxSlot) : (s.setX i v).ctx r = s.ctx r := by cases r <;> rfl
@[simp] theorem State.memWrite_getX (a : Nat) (bs : List Byte) (r : XReg) : (s.memWrite a bs).getX r = s.getX r := rfl
@[simp] theorem State.memWrite_argNat (a : Nat) (bs : List Byte) (r : Fin 4) : (s.memWrite a bs).argNat r = s.argNat r := rfl
@[simp] theorem State.memWrite_ctx (a : Nat) (bs : List Byte) (r : CtxSlot) : (s.memWrite a bs).ctx r = s.ctx r := by cases r <;> rfl
@[simp] theorem State.setResult_getX (v : Nat) (r : XReg) : (s.setResult v).getX r = s.getX r := rfl
@[simp] theorem State.setResult_argNat (v : Nat) (r : Fin 4) : (s.setResult v).argNat r = s.argNat r := rfl
@[simp] theorem State.setResult_ctx (v : Nat) (r : CtxSlot) : (s.setResult v).ctx r = s.ctx r := by cases r <;> rfl
@[simp] theorem State.setCtxU_getX (c : Ctx) (r : XReg) : (s.setCtxU c).getX r = s.getX r := rfl
@[simp] theorem State.setCtxU_argNat (c : Ctx) (r : Fin 4) : (s.setCtxU c).argNat r = s.argNat r := rfl
@[simp] theorem State.setPub_getX (k : Pub) (c : Ctx) (r : XReg) : (s.setPub k c).getX r = s.getX r := rfl
@[simp] theorem State.setPub_argNat (k : Pub) (c : Ctx) (r : Fin 4) : (s.setPub k c).argNat r = s.argNat r := rfl
@[simp] theorem State.setPriv_getX (k : Priv) (c d : Ctx) (r : XReg) : (s.setPriv k c d).getX r = s.getX r := rfl
@[simp] theorem State.setPriv_argNat (k : Priv) (c d : Ctx) (r : Fin 4) : (s.setPriv k c d).argNat r = s.argNat r := rfl
@[simp] theorem State.succeed_getX (r : XReg) : s.succeed.getX r = s.getX r := rfl
@[simp] theorem State.succeed_argNat (r : Fin 4) : s.succeed.argNat r = s.argNat r := rfl
@[simp] theorem State.succeed_ctx (r : CtxSlot) : s.succeed.ctx r = s.ctx r := by cases r <;> rfl
@[simp] theorem State.fail_getX (e : Err) (r : XReg) : (s.fail e).getX r = s.getX r := rfl
@[simp] theorem State.fail_argNat (e : Err) (r : Fin 4) : (s.fail e).argNat r = s.argNat r := rfl
@[simp] theorem State.fail_ctx (e : Err) (r : CtxSlot) : (s.fail e).ctx r = s.ctx r := by cases r <;> rfl
@[simp] theorem State.drop_getX (r : XReg) : s.drop.getX r = s.getX r := rfl
@[simp] theorem State.drop_argNat (r : Fin 4) : s.drop.argNat r = s.argNat r := rfl
@[simp] theorem State.drop_ctx (r : CtxSlot) : s.drop.ctx r = s.ctx r := by cases r <;> rfl
@[simp] theorem State.issue_getX (v : Word) (r : XReg) : (s.issue v).getX r = s.getX r := rfl
@[simp] theorem State.issue_argNat (v : Word) (r : Fin 4) : (s.issue v).argNat r = s.argNat r := rfl
@[simp] theorem State.issue_ctx (v : Word) (r : CtxSlot) : (s.issue v).ctx r = s.ctx r := by cases r <;> rfl

@[simp] theorem State.ctx_u : s.ctx .u = s.ctxU := rfl
@[simp] theorem State.ctx_p : s.ctx .p = s.ctxP := rfl
@[simp] theorem State.ctx_q : s.ctx .q = s.ctxQ := rfl
@[simp] theorem State.ctx_n : s.ctx .n = s.ctxN := rfl

end Sys2Proof.Machine
end

