-- ==== Sys2Proof/Laws/Ops.lean ====
section
/-!
SUPPORT. The checks, the completion step and the pseudocode of each command: what each can answer, once, so
that no proof unfolds them.
-/

namespace Sys2Proof.Machine

open Sys2Proof

/-! ### Sequencing -/

/-- A sequence answers a value when its first part does and the rest does. -/
theorem bind_eq_ok {α β : Type} {x : Except Err α} {f : α → Except Err β} {b : β} :
    (x >>= f) = .ok b ↔ ∃ a, x = .ok a ∧ f a = .ok b := by
  cases x <;> simp [bind, Except.bind]

/-- A sequence raises an error when its first part does, or the rest does. -/
theorem bind_eq_error {α β : Type} {x : Except Err α} {f : α → Except Err β} {e : Err} :
    (x >>= f) = .error e ↔ x = .error e ∨ ∃ a, x = .ok a ∧ f a = .error e := by
  cases x <;> simp [bind, Except.bind]

@[simp] theorem check_eq_ok {p : Bool} {e : Err} {u : Unit} : check p e = .ok u ↔ p = true := by
  cases p <;> simp [check]

@[simp] theorem check_eq_error {p : Bool} {e f : Err} : check p e = .error f ↔ p = false ∧ f = e := by
  cases p <;> simp [check, eq_comm (a := f)]

@[simp] theorem needRegion_eq_ok {s : State} {a n : Nat} {u : Unit} :
    s.needRegion a n = .ok u ↔ a + n ≤ s.cfg.dmemBytes := by
  simp [State.needRegion, inRange]

@[simp] theorem needRegion_eq_error {s : State} {a n : Nat} {e : Err} :
    s.needRegion a n = .error e ↔ s.cfg.dmemBytes < a + n ∧ e = .rangeError := by
  simp [State.needRegion, inRange]

@[simp] theorem needPub_eq_ok {s : State} {u : Unit} : s.needPub = .ok u ↔ s.pub.valid = true := by
  simp [State.needPub]

@[simp] theorem needPub_eq_error {s : State} {e : Err} :
    s.needPub = .error e ↔ s.pub.valid = false ∧ e = .notReady := by
  simp [State.needPub]

@[simp] theorem needPriv_eq_ok {s : State} {u : Unit} : s.needPriv = .ok u ↔ s.priv.valid = true := by
  simp [State.needPriv]

@[simp] theorem needPriv_eq_error {s : State} {e : Err} :
    s.needPriv = .error e ↔ s.priv.valid = false ∧ e = .notReady := by
  simp [State.needPriv]

@[simp] theorem needDigest_eq_ok {s : State} {u : Unit} :
    s.needDigest = .ok u ↔ s.cfg.digestPresent = true := by
  simp [State.needDigest]

@[simp] theorem needDigest_eq_error {s : State} {e : Err} :
    s.needDigest = .error e ↔ s.cfg.digestPresent = false ∧ e = .digestUnavailable := by
  simp [State.needDigest]

@[simp] theorem getCtx_eq_ok {s : State} {i : CtxSlot} {c : Ctx} :
    s.getCtx i = .ok c ↔ (s.ctx i).valid = true ∧ s.ctx i = c := by
  unfold State.getCtx; split <;> simp_all

@[simp] theorem getCtx_eq_error {s : State} {i : CtxSlot} {e : Err} :
    s.getCtx i = .error e ↔ (s.ctx i).valid = false ∧ e = .notReady := by
  unfold State.getCtx; split <;> simp_all [eq_comm (b := e)]

theorem toInteger_some_eq_ok {b : List Byte} {n v : Nat} :
    toInteger b (some n) = .ok v ↔ b.length ≤ n ∧ intBe b = v := by
  simp only [toInteger]; split <;> simp_all

theorem toInteger_some_eq_error {b : List Byte} {n : Nat} {e : Err} :
    toInteger b (some n) = .error e ↔ n < b.length ∧ e = .inputTooLarge := by
  simp only [toInteger]; split <;> simp_all [eq_comm (b := e)]

@[simp] theorem toInteger_none (b : List Byte) : toInteger b none = .ok (intBe b) := rfl

theorem needInverse_eq_ok {x m y : Nat} : needInverse x m = .ok y ↔ inv? x m = some y := by
  unfold needInverse; split <;> simp_all

theorem needInverse_eq_error {x m : Nat} {e : Err} :
    needInverse x m = .error e ↔ inv? x m = none ∧ e = .keyNotInvertible := by
  unfold needInverse; split <;> simp_all [eq_comm (b := e)]

/-! ### The completion step -/

@[simp] theorem complete_ok (s t : State) : complete s (.ok t) = .next t.succeed := rfl

@[simp] theorem complete_error (s : State) (e : Err) : complete s (.error e) = .next (s.fail e) := rfl

/-- A completion always answers a next state: a success of what the pseudocode wrote, or a failure. -/
theorem complete_cases {s t : State} {r : Except Err State} (h : complete s r = .next t) :
    (∃ u, r = .ok u ∧ t = u.succeed) ∨ (∃ e, r = .error e ∧ t = s.fail e) := by
  cases r with
  | ok u => exact .inl ⟨u, rfl, by simpa using h.symm⟩
  | error e => exact .inr ⟨e, rfl, by simpa using h.symm⟩

/-- The pseudocode of each command. -/
def pseudo : Instr → State → Except Err State
  | .mctx rs1 => mctx rs1
  | .tomont rd rs1 c => tomont rd rs1 c
  | .frommont rd rs1 c => frommont rd rs1 c
  | .montmul rd rs1 rs2 c => montmul rd rs1 rs2 c
  | .ctxrd rd c sel => ctxrd rd c sel
  | .modpow rd rs1 rs2 c => modpow rd rs1 rs2 c
  | .loadkey rs1 rs2 rs3 => loadkey rs1 rs2 rs3
  | .loadkeyd rs1 rs2 => loadkeyd rs1 rs2
  | .loadpub rs1 rs2 => loadpub rs1 rs2
  | .keyrd rd sel => keyrd rd sel
  | .decrypt rd rs1 => decrypt rd rs1
  | .encrypt rd rs1 => encrypt rd rs1
  | .crtcomb rd rs1 rs2 => crtcomb rd rs1 rs2
  | .b2i rd f => b2i rd f
  | .i2b rs1 => i2b rs1
  | .strip => strip
  | .hash => hash
  | .decbytes => decbytes
  | .encbytes => encbytes
  | .sign => sign
  | .verify => verify
  | .verifymsg => verifymsg

/-- A command's meaning is the completion step of its pseudocode (60_exceptions.md R215). -/
theorem exec_eq_complete (i : Instr) (s : State) : exec i s = complete s (pseudo i s) := by
  cases i <;> rfl

/-! ### What each pseudocode answers on success -/

theorem mctx_eq_ok {rs1 : XReg} {s t : State} :
    mctx rs1 s = .ok t ↔
      ∃ c, buildCtx (s.getX rs1) = .ok c ∧ (s.setCtxU c).setResult c.w = t := by
  simp [mctx, bind_eq_ok, pure, Except.pure]

theorem tomont_eq_ok {rd rs1 : XReg} {i : CtxSlot} {s t : State} :
    tomont rd rs1 i s = .ok t ↔
      (s.ctx i).valid = true ∧ s.setX rd (toMont (s.ctx i) (s.getX rs1)) = t := by
  simp [tomont, bind_eq_ok, pure, Except.pure, and_assoc]

theorem frommont_eq_ok {rd rs1 : XReg} {i : CtxSlot} {s t : State} :
    frommont rd rs1 i s = .ok t ↔
      (s.ctx i).valid = true ∧ s.setX rd (fromMont (s.ctx i) (s.getX rs1)) = t := by
  simp [frommont, bind_eq_ok, pure, Except.pure, and_assoc]

theorem montmul_eq_ok {rd rs1 rs2 : XReg} {i : CtxSlot} {s t : State} :
    montmul rd rs1 rs2 i s = .ok t ↔
      (s.ctx i).valid = true ∧ s.setX rd (montMul (s.ctx i) (s.getX rs1) (s.getX rs2)) = t := by
  simp [montmul, bind_eq_ok, pure, Except.pure, and_assoc]

theorem ctxrd_eq_ok {rd : XReg} {i : CtxSlot} {sel : BitVec 4} {s t : State} :
    ctxrd rd i sel s = .ok t ↔
      ctxSelLegal sel = true ∧ (s.ctx i).valid = true ∧
        ∃ v, ctxField (s.ctx i) sel = .ok v ∧ s.setX rd v = t := by
  simp [ctxrd, bind_eq_ok, pure, Except.pure, and_assoc]

theorem modpow_eq_ok {rd rs1 rs2 : XReg} {i : CtxSlot} {s t : State} :
    modpow rd rs1 rs2 i s = .ok t ↔
      (s.ctx i).valid = true ∧ s.setX rd (modPow (s.ctx i) (s.getX rs1) (s.getX rs2)) = t := by
  simp [modpow, bind_eq_ok, pure, Except.pure, and_assoc]

theorem loadpub_eq_ok {rs1 rs2 : XReg} {s t : State} :
    loadpub rs1 rs2 s = .ok t ↔
      ∃ c, buildCtx (s.getX rs1) = .ok c ∧
        (s.setPub ⟨true, s.getX rs1, s.getX rs2, byteLen (s.getX rs1)⟩ c).setResult
          (byteLen (s.getX rs1)) = t := by
  simp [loadpub, bind_eq_ok, pure, Except.pure]

theorem encrypt_eq_ok {rd rs1 : XReg} {s t : State} :
    encrypt rd rs1 s = .ok t ↔
      s.pub.valid = true ∧ s.setX rd (s.encryptVal (s.getX rs1)) = t := by
  simp [encrypt, bind_eq_ok, pure, Except.pure]

theorem encbytes_eq_ok {s t : State} :
    encbytes s = .ok t ↔
      s.pub.valid = true ∧ s.argNat 0 + s.argNat 1 ≤ s.cfg.dmemBytes ∧
        s.argNat 2 + s.pub.k ≤ s.cfg.dmemBytes ∧
        ∃ c, s.encryptBytes (s.memRead (s.argNat 0) (s.argNat 1)) = .ok c ∧
          (s.memWrite (s.argNat 2) c).setResult s.pub.k = t := by
  simp [encbytes, bind_eq_ok, pure, Except.pure]

theorem verify_eq_ok {s t : State} :
    verify s = .ok t ↔
      s.pub.valid = true ∧ s.argNat 0 + s.argNat 1 ≤ s.cfg.dmemBytes ∧
        s.argNat 2 + s.argNat 3 ≤ s.cfg.dmemBytes ∧
        ∃ r, s.verifyVal (s.memRead (s.argNat 0) (s.argNat 1))
            (s.memRead (s.argNat 2) (s.argNat 3)) = .ok r ∧ s.setResult r = t := by
  simp [verify, bind_eq_ok, pure, Except.pure]

theorem verifymsg_eq_ok {s t : State} :
    verifymsg s = .ok t ↔
      s.cfg.digestPresent = true ∧ s.pub.valid = true ∧
        s.argNat 0 + s.argNat 1 ≤ s.cfg.dmemBytes ∧ s.argNat 2 + s.argNat 3 ≤ s.cfg.dmemBytes ∧
        ∃ r, s.verifyVal (s.memRead (s.argNat 2) (s.argNat 3))
            (digest s.cfg (s.memRead (s.argNat 0) (s.argNat 1))) = .ok r ∧ s.setResult r = t := by
  simp [verifymsg, bind_eq_ok, pure, Except.pure]

theorem loadkey_eq_ok {rs1 rs2 rs3 : XReg} {s t : State} :
    loadkey rs1 rs2 rs3 s = .ok t ↔
      ∃ b, keyBuild s.cfg (s.getX rs1) (s.getX rs2) (s.getX rs3) = .ok b ∧ s.loadKey b = t := by
  simp [loadkey, bind_eq_ok, pure, Except.pure]

theorem loadkeyd_eq_ok {rs1 rs2 : XReg} {s t : State} :
    loadkeyd rs1 rs2 s = .ok t ↔
      ∃ b, keyBuild s.cfg (s.getX rs1) (s.getX rs2) s.cfg.defaultE = .ok b ∧ s.loadKey b = t := by
  simp [loadkeyd, bind_eq_ok, pure, Except.pure]

theorem keyrd_eq_ok {rd : XReg} {sel : BitVec 4} {s t : State} :
    keyrd rd sel s = .ok t ↔
      keySelLegal sel = true ∧ (8 ≤ sel.toNat ∨ s.priv.valid = true) ∧
        (sel.toNat ≤ 7 ∨ s.pub.valid = true) ∧
        ∃ v, s.keyField sel = .ok v ∧ s.setX rd v = t := by
  simp [keyrd, bind_eq_ok, pure, Except.pure]

theorem crtcomb_eq_ok {rd rs1 rs2 : XReg} {s t : State} :
    crtcomb rd rs1 rs2 s = .ok t ↔
      s.priv.valid = true ∧ crtComb s.priv (s.getX rs1) (s.getX rs2) < 2 ^ s.cfg.xlen ∧
        s.setX rd (crtComb s.priv (s.getX rs1) (s.getX rs2)) = t := by
  simp [crtcomb, bind_eq_ok, pure, Except.pure]

theorem decrypt_eq_ok {rd rs1 : XReg} {s t : State} :
    decrypt rd rs1 s = .ok t ↔
      s.priv.valid = true ∧ s.setX rd (s.decryptVal (s.getX rs1)) = t := by
  simp [decrypt, bind_eq_ok, pure, Except.pure]

theorem decbytes_eq_ok {s t : State} :
    decbytes s = .ok t ↔
      s.priv.valid = true ∧ s.argNat 0 + s.argNat 1 ≤ s.cfg.dmemBytes ∧
        s.argNat 2 + s.priv.k ≤ s.cfg.dmemBytes ∧
        ∃ c, toInteger (s.memRead (s.argNat 0) (s.argNat 1)) (some s.priv.k) = .ok c ∧
          ∃ bytes, toBytes (s.decryptVal c) s.priv.k = .ok bytes ∧
            (s.memWrite (s.argNat 2) bytes).setResult s.priv.k = t := by
  simp [decbytes, bind_eq_ok, pure, Except.pure]

theorem sign_eq_ok {s t : State} :
    sign s = .ok t ↔
      s.cfg.digestPresent = true ∧ s.priv.valid = true ∧
        s.argNat 0 + s.argNat 1 ≤ s.cfg.dmemBytes ∧ s.argNat 2 + s.priv.k ≤ s.cfg.dmemBytes ∧
        ∃ bytes, toBytes (s.decryptVal (intBe (digest s.cfg (s.memRead (s.argNat 0) (s.argNat 1)))))
            s.priv.k = .ok bytes ∧
          (s.memWrite (s.argNat 2) bytes).setResult s.priv.k = t := by
  simp [sign, bind_eq_ok, pure, Except.pure]

theorem b2i_eq_ok {rd : XReg} {f : Bool} {s t : State} :
    b2i rd f s = .ok t ↔
      s.argNat 0 + s.argNat 1 ≤ s.cfg.dmemBytes ∧
        ∃ v, toInteger (s.memRead (s.argNat 0) (s.argNat 1))
            (if f then some (s.argNat 2) else none) = .ok v ∧
          v < 2 ^ s.cfg.xlen ∧ s.setX rd v = t := by
  simp [b2i, bind_eq_ok, pure, Except.pure]

theorem i2b_eq_ok {rs1 : XReg} {s t : State} :
    i2b rs1 s = .ok t ↔
      s.argNat 0 + s.argNat 1 ≤ s.cfg.dmemBytes ∧
        ∃ bytes, toBytes (s.getX rs1) (s.argNat 1) = .ok bytes ∧
          (s.memWrite (s.argNat 0) bytes).setResult (s.argNat 1) = t := by
  simp [i2b, bind_eq_ok, pure, Except.pure]

theorem strip_eq_ok {s t : State} :
    strip s = .ok t ↔
      s.argNat 0 + s.argNat 1 ≤ s.cfg.dmemBytes ∧ s.argNat 2 + s.argNat 3 ≤ s.cfg.dmemBytes ∧
        ∃ u, stripPadding (s.memRead (s.argNat 0) (s.argNat 1)) (s.argNat 3) = .ok u ∧
          (s.memWrite (s.argNat 2) u).setResult (s.argNat 3) = t := by
  simp [strip, bind_eq_ok, pure, Except.pure]

theorem hash_eq_ok {s t : State} :
    hash s = .ok t ↔
      s.cfg.digestPresent = true ∧ s.argNat 0 + s.argNat 1 ≤ s.cfg.dmemBytes ∧
        s.argNat 2 + s.cfg.dlen ≤ s.cfg.dmemBytes ∧
        (s.memWrite (s.argNat 2) (digest s.cfg (s.memRead (s.argNat 0) (s.argNat 1)))).setResult
          s.cfg.dlen = t := by
  simp [hash, bind_eq_ok, pure, Except.pure]

@[simp] theorem length_memRead (s : State) (a n : Nat) : (s.memRead a n).length = n := by
  simp [State.memRead]

/-- The digest has DLEN bytes (41_codec.md R106). -/
@[simp] theorem length_digest (cfg : Config) (b : List Byte) : (digest cfg b).length = cfg.dlen := by
  unfold digest; split <;> simp

end Sys2Proof.Machine
end

