-- ==== Sys2Proof/Laws/Codec.lean ====
section
/-!
SUPPORT. The codec in closed form: byte strings as numbers, and toBytes on each side of its bound.
-/

namespace Sys2Proof.Machine

open Sys2Proof

/-- A byte string read from DMEM, as a number (00_scope.md R11). -/
theorem intBe_readBytes (s : State) (a n : Nat) : intBe (s.dmem.readBytes a n) = bytesValue s a n := by
  have key : ∀ (f : Nat → Byte) (n : Nat), intBe ((List.range n).map f) =
      ((List.range n).map fun j => (f j).toNat * 256 ^ (n - 1 - j)).sum := by
    intro f n
    induction n with
    | zero => rfl
    | succ n ih =>
      rw [List.range_succ, List.map_append, List.map_singleton, intBe_append_singleton, ih]
      simp only [List.map_append, List.map_singleton, List.sum_append, List.sum_singleton, ← List.sum_map_mul_right]
      congr 1
      · congr 1
        apply List.map_congr_left
        intro j hj
        have := List.mem_range.1 hj
        rw [show n + 1 - 1 - j = (n - 1 - j) + 1 by omega, pow_succ]; ring
      · simp
  unfold Mem.readBytes bytesValue
  exact key _ n

/-- toBytes on a number that fits (41_codec.md R109). -/
theorem toBytes_of_lt {v L : Nat} (h : v < 256 ^ L) : toBytes v L = .ok (beBytes v L) := by
  unfold toBytes
  have hb : bitLength v ≤ 8 * L := (bitLength_le_iff _ _).2 (by rwa [pow_mul])
  have pad : ∀ (n k : Nat), v < 256 ^ n → List.replicate k 0 ++ beBytes v n = beBytes v (n + k) := by
    intro n k hv
    have e : ∀ m w, w < 256^m → ∀ k, beBytes w (m + k) = List.replicate k 0 ++ beBytes w m := by
      intro m
      induction m with
      | zero =>
        intro w hw k
        have : w = 0 := by simpa using hw
        subst this
        induction k with
        | zero => simp [beBytes]
        | succ k ihk =>
          rw [show 0 + (k+1) = (0 + k) + 1 by omega, List.replicate_succ']
          show beBytes (0 / 256) (0 + k) ++ _ = _
          rw [show 0 / 256 = 0 from rfl, ihk]
          simp [beBytes]
      | succ m ihm =>
        intro w hw k
        rw [show m + 1 + k = (m + k) + 1 by omega, beBytes, ihm (w/256) (by rw [pow_succ] at hw; omega), beBytes,
          List.append_assoc]
    exact (e n v hv k).symm
  have hnat : v < 256 ^ (bitLength v / 8 + 1) := by
    rw [show (256:Nat) = 2^8 by norm_num, ← pow_mul, ← bitLength_le_iff]; omega
  simp only [length_beBytes]
  split
  · rename_i hc
    have : bitLength v / 8 = L := by omega
    rw [this]
    have := pad L 1 h
    rw [← this]; simp
  · rename_i hc
    by_cases hl : bitLength v / 8 + 1 ≤ L
    · rw [if_pos hl, pad _ _ hnat]; congr 2; omega
    · exfalso
      apply hc
      have hL : bitLength v / 8 = L := by omega
      refine ⟨by omega, ?_⟩
      rw [hL, ← pad L 1 h]; rfl

/-- toBytes on a number that does not fit (41_codec.md R109). -/
theorem toBytes_of_le {v L : Nat} (h : 256 ^ L ≤ v) : toBytes v L = .error .valueTooWide := by
  unfold toBytes
  have hb : ¬ bitLength v ≤ 8 * L := by
    rw [bitLength_le_iff, pow_mul]; norm_num; exact h
  have hhead : ∀ n, (beBytes v (n+1)).head? = some (BitVec.ofNat 8 (v / 256 ^ n)) := by
    intro n
    have := getD_beBytes v (L := n+1) (j := 0) (by omega) 0
    rw [show n + 1 - 1 - 0 = n by omega] at this
    rw [← this]
    cases hh : beBytes v (n+1) with
    | nil => have := length_beBytes v (n+1); rw [hh] at this; simp at this
    | cons x xs => simp
  simp only [length_beBytes]
  rw [if_neg, if_neg]
  · omega
  · rintro ⟨h1, h2⟩
    rw [hhead] at h2
    have hL : bitLength v / 8 = L := by omega
    rw [hL] at h2
    have h3 : bitLength v ≤ 8 * (L + 1) := by omega
    rw [bitLength_le_iff, pow_mul, pow_succ] at h3
    have h4 : v / 256 ^ L < 256 := by
      rw [Nat.div_lt_iff_lt_mul (by positivity)]; norm_num at h3; rw [Nat.mul_comm]; exact h3
    have h5 : 0 < v / 256 ^ L := Nat.div_pos h (by positivity)
    simp only [Option.some.injEq] at h2
    have := congrArg BitVec.toNat h2
    rw [BitVec.toNat_ofNat] at this
    generalize v / 256 ^ L = q at this h4 h5
    change q % 256 = 0 at this
    omega

/-- toBytes gives L bytes or none. -/
theorem length_of_toBytes {v L : Nat} {b : List Byte} (h : toBytes v L = .ok b) : b.length = L := by
  by_cases hv : v < 256 ^ L
  · rw [toBytes_of_lt hv] at h; cases h; exact length_beBytes _ _
  · rw [toBytes_of_le (by omega)] at h; cases h

/-- Writing a string replaces the bytes of its region. -/
theorem memBecomes_writeBytes {s : State} (hw : s.dmem.wf) (a : Nat) (bs : List Byte) (f : Nat → Byte)
    (hf : ∀ j, j < bs.length → bs.getD j 0 = f j) : s.MemBecomes (s.dmem.writeBytes a bs) a bs.length f := by
  intro x
  rw [Mem.read_writeBytes hw]
  split
  · rename_i h; exact hf _ (by omega)
  · rfl

/-- Writing a big-endian rendering replaces the bytes of its region. -/
theorem memBecomes_beBytes {s : State} (hw : s.dmem.wf) (a v n : Nat) :
    s.MemBecomes (s.dmem.writeBytes a (beBytes v n)) a n (byteOf v n) := by
  have := memBecomes_writeBytes hw a (beBytes v n) (byteOf v n) (fun j hj => getD_beBytes v (by simpa using hj) 0)
  rwa [length_beBytes] at this

end Sys2Proof.Machine
end

