-- ==== Sys2Proof/Laws/Decode.lean ====
section
/-!
SUPPORT. The decoder and the encoder as numbers.
-/

namespace Sys2Proof

/-- What decoding a word to a command says: no reserved bit, and a row of the table that the word fits. -/
theorem decode_eq_ok_row {w : Word} {i : Instr} (h : decode w = .ok i) :
    w.toNat / 2^27 = 0 ∧ ∃ r ∈ opcodeTable, r.fits w = true ∧ i = r.build (fieldsOf w) ∧ i.wellFormed = true := by
  unfold decode at h
  split at h
  · cases h
  · rename_i h0
    split at h
    · cases h
    · rename_i r hr
      dsimp only at h
      split at h
      · rename_i hw
        cases h
        refine ⟨?_, r, List.mem_of_find?_eq_some hr, by simpa using List.find?_some hr, rfl, hw⟩
        have := w.isLt
        simp only [field, Nat.shiftRight_eq_div_pow] at h0
        omega
      · cases h

/-- The number a word of fields is. -/
theorem mkWord_toNat {op : Nat} (hop : op < 256) (rd rs1 rs2 rs3 : XReg) (c : CtxSlot) (f : Bool)
    (sel : BitVec 4) : (mkWord op rd rs1 rs2 rs3 c f sel).toNat =
      op + rd.val * 2^8 + rs1.val * 2^11 + rs2.val * 2^14 + rs3.val * 2^17 + c.number * 2^20 + f.toNat * 2^22
        + sel.toNat * 2^23 := by
  have h1 := rd.isLt
  have h2 := rs1.isLt
  have h3 := rs2.isLt
  have h4 := rs3.isLt
  have h5 : c.number < 4 := by cases c <;> decide
  have h6 : f.toNat < 2 := by cases f <;> decide
  have h7 := sel.isLt
  simp only [mkWord, BitVec.toNat_ofNat, Nat.shiftLeft_eq]
  omega

/-- A row's mask and pattern, field by field. -/
theorem fits_field {r : Row} {w : Word} (h : r.fits w = true) (hi lo : Nat) :
    field w hi lo &&& field r.mask hi lo = field r.pattern hi lo := by
  simp only [Row.fits, beq_iff_eq] at h
  rw [← h]
  simp only [field, BitVec.toNat_and, Nat.shiftRight_and_distrib, Nat.and_mod_two_pow]

end Sys2Proof
end

