-- ==== Sys2Proof/Laws/Montgomery.lean ====
section
/-!
SUPPORT. Context construction: exactly the odd moduli have a context, and what is built is good.
-/

namespace Sys2Proof.Machine

open Sys2Proof

theorem ctxWidth_mod (M : Nat) : ctxWidth M % 8 = 0 := by unfold ctxWidth; omega

theorem bitLength_le_ctxWidth (M : Nat) : bitLength M ≤ ctxWidth M := by unfold ctxWidth; omega

theorem ctxWidth_lt (M : Nat) : ctxWidth M < bitLength M + 8 := by unfold ctxWidth; omega

theorem eight_le_ctxWidth {M : Nat} (h : 0 < M) : 8 ≤ ctxWidth M := by
  have := bitLength_pos h
  unfold ctxWidth; omega

theorem lt_two_pow_ctxWidth (M : Nat) : M < 2 ^ ctxWidth M :=
  (bitLength_le_iff M _).1 (bitLength_le_ctxWidth M)

/-- R and M are coprime exactly when M is odd (42_montgomery.md R124). -/
theorem gcd_two_pow_eq_one_iff {M w : Nat} (hw : 0 < w) : Nat.gcd (2 ^ w) M = 1 ↔ M % 2 = 1 := by
  constructor
  · intro h
    by_contra hc
    have h2 : 2 ∣ M := by omega
    have : 2 ∣ Nat.gcd (2 ^ w) M := Nat.dvd_gcd (dvd_pow_self 2 (by omega)) h2
    omega
  · intro h
    exact Nat.Coprime.pow_left _ (Nat.coprime_two_left.2 (Nat.odd_iff.2 h))

/-- The context of an odd modulus. -/
def oddCtx (M : Nat) : Ctx :=
  ⟨true, M, ctxWidth M, modInv (2 ^ ctxWidth M) M, 2 ^ ctxWidth M - 1,
    2 ^ ctxWidth M - modInv M (2 ^ ctxWidth M)⟩

/-- A context is built exactly over an odd modulus (42_montgomery.md R122, R124). -/
theorem buildCtx_of_odd {M : Nat} (h : M % 2 = 1) : buildCtx M = .ok (oddCtx M) := by
  have h0 : M ≠ 0 := by omega
  have hw : 0 < ctxWidth M := by have := eight_le_ctxWidth (Nat.pos_of_ne_zero h0); omega
  have h1 : Nat.gcd (2 ^ ctxWidth M) M = 1 := (gcd_two_pow_eq_one_iff hw).2 h
  have h2 : ¬ 2 ^ ctxWidth M ≤ M := by have := lt_two_pow_ctxWidth M; omega
  simp [buildCtx, h0, h1, h2, oddCtx]

theorem buildCtx_of_even {M : Nat} (h : M % 2 = 0) : buildCtx M = .error .invalidModulus := by
  by_cases h0 : M = 0
  · simp [buildCtx, h0]
  · have hw : 0 < ctxWidth M := by have := eight_le_ctxWidth (Nat.pos_of_ne_zero h0); omega
    have h1 : Nat.gcd (2 ^ ctxWidth M) M ≠ 1 := fun hg => by
      have := (gcd_two_pow_eq_one_iff hw).1 hg; omega
    simp [buildCtx, h0, h1]

theorem buildCtx_eq_ok {M : Nat} {c : Ctx} : buildCtx M = .ok c ↔ M % 2 = 1 ∧ oddCtx M = c := by
  rcases Nat.mod_two_eq_zero_or_one M with h | h
  · simp [buildCtx_of_even h, h]
  · simp [buildCtx_of_odd h, h]

theorem buildCtx_eq_error {M : Nat} {e : Err} :
    buildCtx M = .error e ↔ M % 2 = 0 ∧ e = .invalidModulus := by
  rcases Nat.mod_two_eq_zero_or_one M with h | h
  · simp [buildCtx_of_even h, h, eq_comm (b := e)]
  · simp [buildCtx_of_odd h, h]

/-- What is built is good (42_montgomery.md R121, R123, R124). -/
theorem oddCtx_good {M xlen : Nat} (h : M % 2 = 1) (hx : xlen % 8 = 0) (hM : M < 2 ^ xlen) :
    CtxGood xlen (oddCtx M) := by
  have hpos : 0 < M := by omega
  have hw8 := eight_le_ctxWidth hpos
  have hlt := lt_two_pow_ctxWidth M
  have hR : 0 < 2 ^ ctxWidth M := Nat.two_pow_pos _
  have hR1 : 1 < 2 ^ ctxWidth M := Nat.one_lt_two_pow (by omega)
  have hg : Nat.gcd (2 ^ ctxWidth M) M = 1 := (gcd_two_pow_eq_one_iff (by omega)).2 h
  have hg' : Nat.gcd M (2 ^ ctxWidth M) = 1 := by rwa [Nat.gcd_comm]
  have hi := mul_modInv hpos (by rwa [gcd_mod_self] : Nat.gcd (2 ^ ctxWidth M % M) M = 1)
  have hj := mul_modInv hR (by rwa [gcd_mod_self] : Nat.gcd (M % 2 ^ ctxWidth M) (2 ^ ctxWidth M) = 1)
  have hjlt := modInv_lt M hR
  have hjpos : 0 < modInv M (2 ^ ctxWidth M) := by
    by_contra hc
    have h0 : modInv M (2 ^ ctxWidth M) = 0 := by omega
    rw [h0, Nat.mul_zero, Nat.zero_mod, Nat.mod_eq_of_lt hR1] at hj
    omega
  have hb := (bitLength_le_iff M xlen).2 hM
  have hm := ctxWidth_mod M
  have hl := ctxWidth_lt M
  refine
    { odd := h, M_lt := hlt, fits := hM, w_mul8 := hm, w_ge := bitLength_le_ctxWidth M, w_least := hl,
      w_le := ?_, Rinv_lt := modInv_lt _ hpos, Rinv_eq := hi, Rminus1_eq := rfl, Mstar_pos := ?_,
      Mstar_lt := ?_, Mstar_eq := ?_ }
  · show 1 ≤ 2 ^ ctxWidth M - modInv M (2 ^ ctxWidth M)
    omega
  · show 2 ^ ctxWidth M - modInv M (2 ^ ctxWidth M) ≤ 2 ^ ctxWidth M - 1
    omega
  · show M * (2 ^ ctxWidth M - modInv M (2 ^ ctxWidth M)) % 2 ^ ctxWidth M = 2 ^ ctxWidth M - 1
    generalize 2 ^ ctxWidth M = R at *
    generalize modInv M R = j at *
    rw [Nat.mod_eq_of_lt hR1] at hj
    have e1 : M * (R - j) + M * j = M * R := by rw [← Nat.mul_add, Nat.sub_add_cancel hjlt.le]
    have key : (M * (R - j) + 1) % R = 0 := by
      have : M * (R - j) + 1 ≡ M * (R - j) + M * j [MOD R] :=
        Nat.ModEq.add_left _ (by simp [Nat.ModEq, hj, Nat.mod_eq_of_lt hR1])
      rw [e1] at this
      simpa [Nat.ModEq] using this
    have hd : M * (R - j) % R < R := Nat.mod_lt _ hR
    rw [Nat.add_mod, Nat.mod_eq_of_lt hR1] at key
    by_contra hne
    have : M * (R - j) % R + 1 < R := by omega
    rw [Nat.mod_eq_of_lt this] at key
    omega
  · show ctxWidth M ≤ xlen
    omega

/-! ### The multiply, at any width -/

section

variable {c : Ctx} (h : CtxLaws c)

include h

theorem CtxLaws.M_pos : 0 < c.M := by have := h.odd; omega

/-- The mask is the reduction mod R (42_montgomery.md R130). -/
theorem CtxLaws.mask_eq (t : Nat) : (t * c.Mstar) &&& c.Rminus1 = t * c.Mstar % 2 ^ c.w := by
  rw [h.Rminus1_eq, Nat.and_two_pow_sub_one_eq_mod]

/-- The sum before the shift is a multiple of R (42_montgomery.md R132). -/
theorem CtxLaws.sum_mod_R (t : Nat) : (t + ((t * c.Mstar) &&& c.Rminus1) * c.M) % 2 ^ c.w = 0 := by
  rw [h.mask_eq]
  have hR : 0 < 2 ^ c.w := Nat.two_pow_pos _
  have e : t + t * c.Mstar % 2 ^ c.w * c.M ≡ t * 2 ^ c.w [MOD 2 ^ c.w] := by
    calc t + t * c.Mstar % 2 ^ c.w * c.M ≡ t + t * c.Mstar * c.M [MOD 2 ^ c.w] :=
          Nat.ModEq.add_left _ ((Nat.mod_modEq _ _).mul_right _)
      _ = t + t * (c.M * c.Mstar) := by ring
      _ ≡ t + t * (2 ^ c.w - 1) [MOD 2 ^ c.w] := by
          refine Nat.ModEq.add_left _ (Nat.ModEq.mul_left _ ?_)
          have := h.Mstar_eq
          unfold Nat.ModEq
          rw [this, Nat.mod_eq_of_lt (by omega)]
      _ = t * 2 ^ c.w := by
          generalize 2 ^ c.w = R at *
          obtain ⟨r, rfl⟩ : ∃ r, R = r + 1 := ⟨R - 1, by omega⟩
          simp; ring
  unfold Nat.ModEq at e
  rw [e]; simp

theorem CtxLaws.coprime_R : Nat.Coprime (2 ^ c.w) c.M :=
  Nat.Coprime.pow_left _ (Nat.coprime_two_left.2 (Nat.odd_iff.2 h.odd))

/-- The product of the result with R has the residue of the operands' product. -/
theorem CtxLaws.montMul_mul_R (a b : Nat) : montMul c a b * 2 ^ c.w ≡ a * b [MOD c.M] := by
  have hs := h.sum_mod_R (a * b)
  have hu : (a * b + ((a * b * c.Mstar) &&& c.Rminus1) * c.M) / 2 ^ c.w * 2 ^ c.w ≡ a * b [MOD c.M] := by
    rw [Nat.div_mul_cancel (Nat.dvd_of_mod_eq_zero hs)]; simp [Nat.ModEq]
  refine Nat.ModEq.trans (Nat.ModEq.mul_right _ ?_) hu
  simp only [montMul, Nat.shiftRight_eq_div_pow]
  split
  · exact Nat.mod_modEq _ _
  · rfl

/-- The result is at most M. -/
theorem CtxLaws.montMul_le (a b : Nat) : montMul c a b ≤ c.M := by
  have := h.M_pos
  simp only [montMul]
  split
  · exact (Nat.mod_lt _ this).le
  · omega

/-- `fromMont` of a number that has the residue of y·R. -/
theorem CtxLaws.fromMont_eq {x y : Nat} (hx : x ≡ y * 2 ^ c.w [MOD c.M]) :
    fromMont c x = y % c.M := by
  unfold fromMont
  have : x * c.Rinv ≡ y [MOD c.M] := by
    calc x * c.Rinv ≡ y * 2 ^ c.w * c.Rinv [MOD c.M] := hx.mul_right _
      _ = y * (2 ^ c.w * c.Rinv) := by ring
      _ ≡ y * 1 [MOD c.M] := Nat.ModEq.mul_left _ h.Rinv_eq
      _ = y := by ring
  exact this

end

end Sys2Proof.Machine
end

