-- ==== Sys2Proof/Laws/Step.lean ====
section
/-!
SUPPORT. What one step can do: the engine's turn, a host access, a reset; and what no command touches.
-/

namespace Sys2Proof.Machine

open Sys2Proof

/-- The fields no command writes: the configuration, ARG, OVR, IE, the pending word, and the model's own
fields (60_exceptions.md R216). -/
structure State.SameControl (s t : State) : Prop where
  cfg : t.cfg = s.cfg
  arg0 : t.arg0 = s.arg0
  arg1 : t.arg1 = s.arg1
  arg2 : t.arg2 = s.arg2
  arg3 : t.arg3 = s.arg3
  ovr : t.ovr = s.ovr
  ie : t.ie = s.ie
  pend : t.pend = s.pend
  sched : t.sched = s.sched
  reads : t.reads = s.reads
  draws : t.draws = s.draws

theorem State.SameControl.refl (s : State) : s.SameControl s := ⟨rfl, rfl, rfl, rfl, rfl, rfl, rfl, rfl, rfl, rfl, rfl⟩

/-- No pseudocode writes a control field. -/
theorem pseudo_sameControl {i : Instr} {s t : State} (h : pseudo i s = .ok t) : s.SameControl t := by
  cases i <;>
    simp only [pseudo, mctx_eq_ok, tomont_eq_ok, frommont_eq_ok, montmul_eq_ok, ctxrd_eq_ok,
      modpow_eq_ok, loadkey_eq_ok, loadkeyd_eq_ok, loadpub_eq_ok, keyrd_eq_ok, decrypt_eq_ok,
      encrypt_eq_ok, crtcomb_eq_ok, b2i_eq_ok, i2b_eq_ok, strip_eq_ok, hash_eq_ok, decbytes_eq_ok,
      encbytes_eq_ok, sign_eq_ok, verify_eq_ok, verifymsg_eq_ok] at h
  case mctx => obtain ⟨c, -, rfl⟩ := h; constructor <;> rfl
  case tomont => obtain ⟨-, rfl⟩ := h; constructor <;> rfl
  case frommont => obtain ⟨-, rfl⟩ := h; constructor <;> rfl
  case montmul => obtain ⟨-, rfl⟩ := h; constructor <;> rfl
  case ctxrd => obtain ⟨-, -, v, -, rfl⟩ := h; constructor <;> rfl
  case modpow => obtain ⟨-, rfl⟩ := h; constructor <;> rfl
  case loadkey => obtain ⟨b, -, rfl⟩ := h; constructor <;> rfl
  case loadkeyd => obtain ⟨b, -, rfl⟩ := h; constructor <;> rfl
  case loadpub => obtain ⟨c, -, rfl⟩ := h; constructor <;> rfl
  case keyrd => obtain ⟨-, -, -, v, -, rfl⟩ := h; constructor <;> rfl
  case decrypt => obtain ⟨-, rfl⟩ := h; constructor <;> rfl
  case encrypt => obtain ⟨-, rfl⟩ := h; constructor <;> rfl
  case crtcomb => obtain ⟨-, -, rfl⟩ := h; constructor <;> rfl
  case b2i => obtain ⟨-, v, -, -, rfl⟩ := h; constructor <;> rfl
  case i2b => obtain ⟨-, v, -, rfl⟩ := h; constructor <;> rfl
  case strip => obtain ⟨-, -, v, -, rfl⟩ := h; constructor <;> rfl
  case hash => obtain ⟨-, -, -, rfl⟩ := h; constructor <;> rfl
  case decbytes => obtain ⟨-, -, -, c, -, v, -, rfl⟩ := h; constructor <;> rfl
  case encbytes => obtain ⟨-, -, -, v, -, rfl⟩ := h; constructor <;> rfl
  case sign => obtain ⟨-, -, -, -, v, -, rfl⟩ := h; constructor <;> rfl
  case verify => obtain ⟨-, -, -, v, -, rfl⟩ := h; constructor <;> rfl
  case verifymsg => obtain ⟨-, -, -, -, v, -, rfl⟩ := h; constructor <;> rfl

/-! ### The engine's turn -/

/-- The engine's turn answers a next state, always: nothing while IDLE; while BUSY a success of a command's
pseudocode or a failure. -/
theorem engineTurn_cases (s : State) :
    (s.phase = .idle ∧ engineTurn s = .next s) ∨
    (s.phase = .busy ∧ ∃ i u, decode s.pend = .ok i ∧ pseudo i s = .ok u ∧
      engineTurn s = .next u.succeed) ∨
    (s.phase = .busy ∧ ∃ e, engineTurn s = .next (s.fail e) ∧
      ((∃ i, decode s.pend = .ok i ∧ pseudo i s = .error e) ∨
        (∃ d, decode s.pend = .error d) ∧ e = .illegalCommand)) := by
  cases hp : s.phase with
  | idle => exact .inl ⟨rfl, by simp [engineTurn, hp]⟩
  | busy =>
    right
    cases hd : decode s.pend with
    | error d => exact .inr ⟨rfl, .illegalCommand, by simp [engineTurn, hp, completePending, hd],
        .inr ⟨⟨d, rfl⟩, rfl⟩⟩
    | ok i =>
      cases hr : pseudo i s with
      | ok u => exact .inl ⟨rfl, i, u, rfl, hr, by simp [engineTurn, hp, completePending, hd, exec_eq_complete, hr]⟩
      | error e => exact .inr ⟨rfl, e, by simp [engineTurn, hp, completePending, hd, exec_eq_complete, hr],
          .inl ⟨i, rfl, hr⟩⟩

/-! ### Host accesses -/

/-- The window offset of an access the block takes. -/
theorem busOffset_eq_ok {cfg : Config} {w : Width} {a off : Nat} :
    busOffset cfg w a = .ok off ↔
      w = .word ∧ cfg.base ≤ a ∧ a < cfg.base + 0x10000 ∧ (a - cfg.base) % 4 = 0 ∧ off = a - cfg.base := by
  unfold busOffset
  by_cases h1 : a < cfg.base ∨ cfg.base + 0x10000 ≤ a
  · rw [if_pos h1]; constructor
    · intro h; cases h
    · rintro ⟨-, h2, h3, -⟩; omega
  · rw [if_neg h1]
    by_cases h2 : w ≠ .word ∨ (a - cfg.base) % 4 ≠ 0
    · rw [if_pos h2]; constructor
      · intro h; cases h
      · rintro ⟨h3, -, -, h4, -⟩; rcases h2 with h2 | h2
        · exact absurd h3 h2
        · exact absurd h4 h2
    · rw [if_neg h2]
      push Not at h1 h2
      constructor
      · intro h; cases h; exact ⟨h2.1, h1.1, h1.2, h2.2, rfl⟩
      · rintro ⟨-, -, -, -, rfl⟩; rfl

/-- A host read that the block takes is a read at its window offset. -/
theorem busRead_eq_next {w : Width} {a : Nat} {s t : State} (h : busRead w a s = .next t) :
    ∃ off, busOffset s.cfg w a = .ok off ∧ t = s.hostRead off := by
  unfold busRead at h
  cases hb : busOffset s.cfg w a with
  | ok off => rw [hb] at h; cases h; exact ⟨off, rfl, rfl⟩
  | error st =>
    rw [hb] at h
    simp only [busOffset] at hb
    split at hb
    · cases hb; cases h
    · split at hb
      · cases hb; cases h
      · cases hb

/-- A host write that the block takes is a write at its window offset. -/
theorem busWrite_eq_next {w : Width} {a : Nat} {v : Word} {s t : State}
    (h : busWrite w a v s = .next t) :
    ∃ off, busOffset s.cfg w a = .ok off ∧ t = s.hostWrite off v := by
  unfold busWrite at h
  cases hb : busOffset s.cfg w a with
  | ok off => rw [hb] at h; cases h; exact ⟨off, rfl, rfl⟩
  | error st =>
    rw [hb] at h
    simp only [busOffset] at hb
    split at hb
    · cases hb; cases h
    · split at hb
      · cases hb; cases h
      · cases hb

/-- A host read changes the read log and the draw counter, nothing else (20_memory.md R61). -/
theorem State.hostRead_eq (s : State) (off : Nat) :
    ∃ v n, s.hostRead off = { s with reads := v :: s.reads, draws := n } := by
  unfold State.hostRead
  dsimp only
  split
  · exact ⟨_, _, rfl⟩
  · exact ⟨_, s.draws, rfl⟩

/-- What a host write of `v` at window offset `off` can do to the block. -/
inductive HostWriteEffect (s : State) (off : Nat) (v : Word) : State → Prop where
  | ignored : HostWriteEffect s off v s
  | reset : HostWriteEffect s off v s.softReset
  | enable : HostWriteEffect s off v { s with ie := v.getLsbD 1 }
  | acknowledge : HostWriteEffect s off v (s.acknowledge v)
  | dropped (h : s.phase = .busy) : HostWriteEffect s off v s.drop
  | issue (h : s.phase = .idle) : HostWriteEffect s off v (s.issue v)
  | arg (h : s.phase = .idle) (i : Fin 4) : HostWriteEffect s off v (s.setArg i v)
  | xword (h : s.phase = .idle) (i : XReg) (j : Nat) :
      HostWriteEffect s off v (s.setX i (setXWord s.cfg (s.getX i) j v))
  | dmem (h : s.phase = .idle) (a : Nat) (ha : winReg s.cfg off = .dmem a) :
      HostWriteEffect s off v (s.memWrite a (laneBytes v))

/-- A write of a field that an idle engine takes. -/
theorem State.unlessBusy_effect {s t : State} {off : Nat} {v : Word}
    (h : s.phase = .idle → HostWriteEffect s off v t) : HostWriteEffect s off v (s.unlessBusy t) := by
  cases hp : s.phase with
  | idle => simpa [State.unlessBusy, hp] using h hp
  | busy => simpa [State.unlessBusy, hp] using HostWriteEffect.dropped (off := off) (v := v) hp

/-- Every host write has one of these effects. -/
theorem State.hostWrite_effect (s : State) (off : Nat) (v : Word) :
    HostWriteEffect s off v (s.hostWrite off v) := by
  unfold State.hostWrite
  cases hr : winReg s.cfg off with
  | ctrl =>
    by_cases h0 : v.getLsbD 0 = true
    · simp only [h0, if_true]; exact .reset
    · simp only [h0]; exact .enable
  | status => exact .acknowledge
  | cmd => exact State.unlessBusy_effect fun h => .issue h
  | arg i => exact State.unlessBusy_effect fun h => .arg h i
  | xword i j => exact State.unlessBusy_effect fun h => .xword h i j
  | dmem a => exact State.unlessBusy_effect fun h => .dmem h a hr
  | id => exact .ignored
  | cfg => exact .ignored
  | dmemsz => exact .ignored
  | errcode => exact .ignored
  | result => exact .ignored
  | reserved => exact .ignored

/-- No register below 0x1000 is a DMEM word. -/
theorem controlReg_ne_dmem (off a : Nat) : controlReg off ≠ .dmem a := by
  unfold controlReg
  split <;> simp

/-- A DMEM window word lies in DMEM (20_memory.md R51). -/
theorem winReg_dmem {cfg : Config} {off a : Nat} (h : winReg cfg off = .dmem a) :
    a < cfg.dmemBytes ∧ off = 0x2000 + a := by
  unfold winReg at h
  by_cases h1 : off < 0x1000
  · rw [if_pos h1] at h
    exact absurd h (controlReg_ne_dmem off a)
  · by_cases h2 : off < 0x1800
    · rw [if_neg h1, if_pos h2] at h; cases h
    · by_cases h3 : off < 0x2000
      · rw [if_neg h1, if_neg h2, if_pos h3] at h; cases h
      · by_cases h4 : off - 0x2000 < cfg.dmemBytes
        · rw [if_neg h1, if_neg h2, if_neg h3, if_pos h4] at h
          injection h with h
          omega
        · rw [if_neg h1, if_neg h2, if_neg h3, if_neg h4] at h; cases h

/-! ### One step -/

/-- One step: the engine's turn, a host access, or a power-on reset. -/
theorem step_cases {s t : State} (h : step s = .next t) :
    (s.sched = [] ∧ engineTurn s = .next t) ∨
    ∃ e rest, s.sched = e :: rest ∧ act e { s with sched := rest } = .next t := by
  unfold step at h
  cases hs : s.sched with
  | nil => rw [hs] at h; exact .inl ⟨rfl, h⟩
  | cons e rest => rw [hs] at h; exact .inr ⟨e, rest, rfl, h⟩

end Sys2Proof.Machine
end

