-- ==== Sys2Proof/Laws/Window.lean ====
section
/-!
SUPPORT. The register window: which register an offset names, what a legal access is as a step, and the words
of a big register.
-/

namespace Sys2Proof.Machine

open Sys2Proof

/-- A write that BUSY drops (20_memory.md R69). -/
theorem State.unlessBusy_busy {s t : State} (h : s.phase = .busy) : s.unlessBusy t = s.drop := by
  unfold State.unlessBusy; rw [h]

/-- A write that an idle engine takes. -/
theorem State.unlessBusy_idle {s t : State} (h : s.phase = .idle) : s.unlessBusy t = t := by
  unfold State.unlessBusy; rw [h]

/-- The bus address of a window offset. -/
theorem busOffset_base {cfg : Config} {off : Nat} (h1 : off < 0x10000) (h2 : off % 4 = 0) :
    busOffset cfg .word (cfg.base + off) = .ok off :=
  busOffset_eq_ok.2 ⟨rfl, by omega, by omega, by rw [Nat.add_sub_cancel_left]; exact h2, by omega⟩

/-- A legal read is one step. -/
theorem step_onRead (s : State) {off : Nat} (h1 : off < 0x10000) (h2 : off % 4 = 0) :
    step (s.onRead off) = .next (s.hostRead off) := by
  show busRead .word (s.cfg.base + off) s = _
  unfold busRead
  rw [busOffset_base h1 h2]

/-- A legal write is one step. -/
theorem step_onWrite (s : State) {off : Nat} (h1 : off < 0x10000) (h2 : off % 4 = 0) (v : Word) :
    step (s.onWrite off v) = .next (s.hostWrite off v) := by
  show busWrite .word (s.cfg.base + off) v s = _
  unfold busWrite
  rw [busOffset_base h1 h2]

/-- A read of an idle block returns the register's value. -/
theorem State.hostRead_idle {s : State} (h : s.phase = .idle) (off : Nat) :
    s.hostRead off = s.gaveHost (s.regValue (winReg s.cfg off)) := by
  unfold State.hostRead; simp [State.busy, h, State.gaveHost]

/-- A read of a register that has its value while BUSY too (20_memory.md R68). -/
theorem State.hostRead_fixed {s : State} (off : Nat) (h : (winReg s.cfg off).freeWhileBusy = false) :
    s.hostRead off = s.gaveHost (s.regValue (winReg s.cfg off)) := by
  unfold State.hostRead; simp [h, State.gaveHost]

/-- CTRL is at 0x10 alone. -/
theorem winReg_eq_ctrl {cfg : Config} {off : Nat} (h : winReg cfg off = .ctrl) : off = 0x10 := by
  unfold winReg at h
  split at h
  · unfold controlReg at h; split at h <;> simp_all
  · split at h
    · cases h
    · split at h
      · cases h
      · split at h <;> cases h

/-- The X window (20_memory.md R51). -/
theorem winReg_xword (cfg : Config) (i : XReg) {j : Nat} (hj : j < 64) :
    winReg cfg (0x1000 + 0x100 * i.val + 4 * j) = .xword i j := by
  have := i.isLt
  unfold winReg
  rw [if_neg (by omega), if_pos (by omega)]
  congr 1
  · apply Fin.ext; simp only [Fin.ofNat]; omega
  · omega

/-- The DMEM window (20_memory.md R51). -/
theorem winReg_dmemWord {cfg : Config} {a : Nat} (h : a < cfg.dmemBytes) : winReg cfg (0x2000 + a) = .dmem a := by
  unfold winReg
  rw [if_neg (by omega), if_neg (by omega), if_neg (by omega), if_pos (by omega), Nat.add_sub_cancel_left]

/-- A write replaces 32 bits of a big register and keeps the rest (20_memory.md R54). -/
theorem setXWord_spec {cfg : Config} {v j : Nat} (w : Word) (hj : j < cfg.xlen / 32) :
    setXWord cfg v j w / 2 ^ (32*j) % 2^32 = w.toNat ∧ setXWord cfg v j w % 2 ^ (32*j) = v % 2^(32*j) ∧
    setXWord cfg v j w / 2 ^ (32*(j+1)) = v / 2^(32*(j+1)) := by
  unfold setXWord
  rw [if_pos hj]
  have e : 2^(32*(j+1)) = 2^(32*j) * 2^32 := by rw [← pow_add]; ring_nf
  rw [e]
  have hP : 0 < 2^(32*j) := Nat.two_pow_pos _
  generalize 2^(32*j) = P at *
  have hw := w.isLt
  generalize w.toNat = x at *
  have h1 : v % P < P := Nat.mod_lt _ hP
  generalize v % P = r at *
  generalize hq : v / (P * 2^32) = q
  have h2 : r + x * P + q * (P * 2^32) = r + P * (x + q * 2^32) := by ring
  rw [h2]
  refine ⟨?_, ?_, ?_⟩
  · rw [Nat.add_mul_div_left _ _ hP, Nat.div_eq_of_lt h1]; omega
  · rw [Nat.add_mul_mod_self_left, Nat.mod_eq_of_lt h1]
  · rw [← Nat.div_div_eq_div_mul, Nat.add_mul_div_left _ _ hP, Nat.div_eq_of_lt h1]; omega

/-- A written register stays below 2^XLEN. -/
theorem setXWord_lt {c : Config} {y n : Nat} (w : Word) (hm : c.xlen % 32 = 0) (hn : n < c.xlen / 32) (hy : y < 2 ^ c.xlen) :
    setXWord c y n w < 2 ^ c.xlen := by
  obtain ⟨-, -, h⟩ := setXWord_spec (cfg := c) (v := y) w hn
  have hw : y / 2^(32*(n+1)) < 2^(c.xlen - 32*(n+1)) := by
    rw [Nat.div_lt_iff_lt_mul (Nat.two_pow_pos _), ← pow_add]
    rwa [Nat.sub_add_cancel (by omega)]
  rw [← h, Nat.div_lt_iff_lt_mul (Nat.two_pow_pos _), ← pow_add, Nat.sub_add_cancel (by omega)] at hw
  exact hw

end Sys2Proof.Machine
end

