-- ==== Sys2Proof/Laws/Invariant.lean ====
section
/-!
SUPPORT. The invariant through the updates a step makes.
-/

namespace Sys2Proof.Machine

open Sys2Proof

/-- A valid slot is a good context (10_state.md R25). -/
theorem State.Inv.ctxGood {s : State} (hi : s.Inv) {c : CtxSlot} (hv : (s.ctx c).valid = true) :
    CtxGood s.cfg.xlen (s.ctx c) := by
  cases c
  · exact hi.slotU hv
  · exact hi.slotP hv
  · exact hi.slotQ hv
  · exact hi.slotN hv

theorem State.Inv.succeed {s : State} (hi : s.Inv) : s.succeed.Inv :=
  { hi with busy := nofun, errHasCode := nofun, noCode4 := nofun }

theorem State.Inv.fail {s : State} (hi : s.Inv) {e : Err} (he : e ≠ .malformedKeyRecord) : (s.fail e).Inv :=
  { hi with busy := nofun, errHasCode := fun _ => nofun, noCode4 := fun h => he (Option.some.inj h) }

theorem State.Inv.setX {s : State} (hi : s.Inv) (rd : XReg) {v : Nat} (hv : v < 2 ^ s.cfg.xlen) :
    (s.setX rd v).Inv :=
  { hi with
    x := fun i => by
      have := hi.x i
      unfold State.setX State.getX at *
      simp only [Fin.getElem_fin, Vector.getElem_set] at *
      split
      · exact hv
      · exact this }

theorem State.Inv.setResult {s : State} (hi : s.Inv) (v : Nat) : (s.setResult v).Inv := { hi with }

theorem State.Inv.memWrite {s : State} (hi : s.Inv) {a : Nat} {b : List Byte}
    (h : a + b.length ≤ s.cfg.dmemBytes) : (s.memWrite a b).Inv :=
  { hi with memWf := Mem.wf_writeBytes hi.memWf _ _, memBelow := Mem.below_writeBytes hi.memBelow h }

theorem State.Inv.issue {s : State} (hi : s.Inv) (v : Word) : (s.issue v).Inv :=
  { hi with busy := fun _ => ⟨rfl, rfl, rfl⟩, errHasCode := nofun, noCode4 := nofun }

/-- The model's own fields are free. -/
theorem State.Inv.modelFields {s : State} (hi : s.Inv) (l : List Event) (r : List Word) (d : Nat) :
    State.Inv { s with sched := l, reads := r, draws := d } := { hi with }

end Sys2Proof.Machine
end

