-- ==== Sys2Proof/Laws/PerInstr.lean ====
section
/-!
SUPPORT. Statements about every command as syntax, one lemma per constructor of `Instr`.

`ReservedBitsZero`: the word of a command has bits 31:27 equal to 0 (spec/30_encoding.md R86).
-/

namespace Sys2Proof.Laws

open Sys2Proof

/-- A word made of an opcode byte and fields has bits 31:27 equal to 0. -/
theorem mkWord_lt {op : Nat} (hop : op < 256) (rd rs1 rs2 rs3 : XReg) (c : CtxSlot) (f : Bool)
    (sel : BitVec 4) : (mkWord op rd rs1 rs2 rs3 c f sel).toNat < 2 ^ 27 := by
  have h1 := rd.isLt
  have h2 := rs1.isLt
  have h3 := rs2.isLt
  have h4 := rs3.isLt
  have h5 : c.number < 4 := by cases c <;> decide
  have h6 : f.toNat < 2 := by cases f <;> decide
  have h7 := sel.isLt
  simp only [mkWord, BitVec.toNat_ofNat, Nat.shiftLeft_eq]
  omega

/-- Bits 31:27 of the word of a command are 0. -/
def ReservedBitsZero.Statement (i : Instr) : Prop := (encode i).toNat < 2 ^ 27

theorem ReservedBitsZero.mctx (rs1 : XReg) : ReservedBitsZero.Statement (.mctx rs1) :=
  mkWord_lt (by decide) _ _ _ _ _ _ _

theorem ReservedBitsZero.tomont (rd rs1 : XReg) (c : CtxSlot) : ReservedBitsZero.Statement (.tomont rd rs1 c) :=
  mkWord_lt (by decide) _ _ _ _ _ _ _

theorem ReservedBitsZero.frommont (rd rs1 : XReg) (c : CtxSlot) : ReservedBitsZero.Statement (.frommont rd rs1 c) :=
  mkWord_lt (by decide) _ _ _ _ _ _ _

theorem ReservedBitsZero.montmul (rd rs1 rs2 : XReg) (c : CtxSlot) : ReservedBitsZero.Statement (.montmul rd rs1 rs2 c) :=
  mkWord_lt (by decide) _ _ _ _ _ _ _

theorem ReservedBitsZero.ctxrd (rd : XReg) (c : CtxSlot) (sel : BitVec 4) : ReservedBitsZero.Statement (.ctxrd rd c sel) :=
  mkWord_lt (by decide) _ _ _ _ _ _ _

theorem ReservedBitsZero.modpow (rd rs1 rs2 : XReg) (c : CtxSlot) : ReservedBitsZero.Statement (.modpow rd rs1 rs2 c) :=
  mkWord_lt (by decide) _ _ _ _ _ _ _

theorem ReservedBitsZero.loadkey (rs1 rs2 rs3 : XReg) : ReservedBitsZero.Statement (.loadkey rs1 rs2 rs3) :=
  mkWord_lt (by decide) _ _ _ _ _ _ _

theorem ReservedBitsZero.loadkeyd (rs1 rs2 : XReg) : ReservedBitsZero.Statement (.loadkeyd rs1 rs2) :=
  mkWord_lt (by decide) _ _ _ _ _ _ _

theorem ReservedBitsZero.loadpub (rs1 rs2 : XReg) : ReservedBitsZero.Statement (.loadpub rs1 rs2) :=
  mkWord_lt (by decide) _ _ _ _ _ _ _

theorem ReservedBitsZero.keyrd (rd : XReg) (sel : BitVec 4) : ReservedBitsZero.Statement (.keyrd rd sel) :=
  mkWord_lt (by decide) _ _ _ _ _ _ _

theorem ReservedBitsZero.decrypt (rd rs1 : XReg) : ReservedBitsZero.Statement (.decrypt rd rs1) :=
  mkWord_lt (by decide) _ _ _ _ _ _ _

theorem ReservedBitsZero.encrypt (rd rs1 : XReg) : ReservedBitsZero.Statement (.encrypt rd rs1) :=
  mkWord_lt (by decide) _ _ _ _ _ _ _

theorem ReservedBitsZero.crtcomb (rd rs1 rs2 : XReg) : ReservedBitsZero.Statement (.crtcomb rd rs1 rs2) :=
  mkWord_lt (by decide) _ _ _ _ _ _ _

theorem ReservedBitsZero.b2i (rd : XReg) (f : Bool) : ReservedBitsZero.Statement (.b2i rd f) :=
  mkWord_lt (by decide) _ _ _ _ _ _ _

theorem ReservedBitsZero.i2b (rs1 : XReg) : ReservedBitsZero.Statement (.i2b rs1) :=
  mkWord_lt (by decide) _ _ _ _ _ _ _

theorem ReservedBitsZero.strip : ReservedBitsZero.Statement (.strip) :=
  mkWord_lt (by decide) _ _ _ _ _ _ _

theorem ReservedBitsZero.hash : ReservedBitsZero.Statement (.hash) :=
  mkWord_lt (by decide) _ _ _ _ _ _ _

theorem ReservedBitsZero.decbytes : ReservedBitsZero.Statement (.decbytes) :=
  mkWord_lt (by decide) _ _ _ _ _ _ _

theorem ReservedBitsZero.encbytes : ReservedBitsZero.Statement (.encbytes) :=
  mkWord_lt (by decide) _ _ _ _ _ _ _

theorem ReservedBitsZero.sign : ReservedBitsZero.Statement (.sign) :=
  mkWord_lt (by decide) _ _ _ _ _ _ _

theorem ReservedBitsZero.verify : ReservedBitsZero.Statement (.verify) :=
  mkWord_lt (by decide) _ _ _ _ _ _ _

theorem ReservedBitsZero.verifymsg : ReservedBitsZero.Statement (.verifymsg) :=
  mkWord_lt (by decide) _ _ _ _ _ _ _

end Sys2Proof.Laws
end

