-- ==== Sys2Proof/Tests/Slice0.lean ====
section
/-!
SUPPORT. Tests with expected values from spec/95_test_vectors.md or worked out by hand from the rules, and for
every statement of Certificates/Slice0 that has hypotheses a state that meets them.
-/

namespace Sys2Proof.Tests

-- One theorem at a time: side by side they want more memory than the check allows.
set_option Elab.async false

open Sys2Proof Sys2Proof.Machine

/-! ### WellFormed: what each check refuses -/

/-- 42_montgomery.md R133: selectors 5 to 15 are none of CTXRD's. -/
theorem test_wellFormed_ctxrd : (Instr.ctxrd 0 .u 4).wellFormed = true ∧ (Instr.ctxrd 0 .u 5).wellFormed = false := by
  decide

/-- 45_private_key.md R184: selectors 10 to 15 are none of KEYRD's. -/
theorem test_wellFormed_keyrd : (Instr.keyrd 0 9).wellFormed = true ∧ (Instr.keyrd 0 10).wellFormed = false := by
  decide

/-- 00_scope.md R7: a width that is no multiple of 32 is no configuration. -/
theorem test_config_width : ¬ ({ Config.default with maxKeyBits := 1000 } : Config).wf := by
  rintro ⟨⟨h, -⟩, -⟩; exact absurd h (by decide)

/-- 00_scope.md R7: DMEM beyond the window is no configuration. -/
theorem test_config_dmem : ¬ ({ Config.default with dmemBytes := 57348 } : Config).wf := by
  rintro ⟨-, ⟨-, -, h⟩, -⟩; exact absurd h (by decide)

/-- 41_codec.md R106: SHA-256 has 32 bytes. -/
theorem test_config_dlen : ¬ ({ Config.default with dlen := 20 } : Config).wf := by
  rintro ⟨-, -, -, h, -⟩; exact absurd (h rfl) (by decide)

/-! ### Decode: words from the command rules and from 95_test_vectors.md -/

/-- The words of unit montgomery_multiplier and modular_exponentiator (V42, V43). -/
theorem test_decode_montgomery :
    decode 0x00000001 = .ok (.mctx 0) ∧ decode 0x00000A02 = .ok (.tomont 2 1 .u) ∧
    decode 0x00002E03 = .ok (.frommont 6 5 .u) ∧ decode 0x00011D04 = .ok (.montmul 5 3 4 .u) ∧
    decode 0x02300005 = .ok (.ctxrd 0 .n 4) ∧ decode 0x00210308 = .ok (.modpow 3 0 4 .q) := by
  decide

/-- The key words (V44, V45). -/
theorem test_decode_keys :
    decode 0x00044010 = .ok (.loadkey 0 1 2) ∧ decode 0x00404010 = .ok (.loadkeyd 0 1) ∧
    decode 0x00004011 = .ok (.loadpub 0 1) ∧ decode 0x04000312 = .ok (.keyrd 3 8) ∧
    decode 0x00001C13 = .ok (.decrypt 4 3) ∧ decode 0x00000114 = .ok (.encrypt 1 0) ∧
    decode 0x00004515 = .ok (.crtcomb 5 0 1) := by
  decide

/-- The byte words (V41, V44, V45). -/
theorem test_decode_bytes :
    decode 0x00400020 = .ok (.b2i 0 true) ∧ decode 0x00000821 = .ok (.i2b 1) ∧
    decode 0x00000022 = .ok .strip ∧ decode 0x00000023 = .ok .hash ∧ decode 0x00000030 = .ok .decbytes ∧
    decode 0x00000031 = .ok .encbytes ∧ decode 0x00000032 = .ok .sign ∧ decode 0x00000033 = .ok .verify ∧
    decode 0x00000034 = .ok .verifymsg := by
  decide

/-- Words that are no command (V42-33, V45-14, V60-1 to V60-3). -/
theorem test_decode_illegal :
    decode 0x00000000 = .error .noRow ∧ decode 0x80015304 = .error .reservedBits ∧
    decode 0x00000101 = .error .noRow ∧ decode 0x02800005 = .error .badSelector ∧
    decode 0x05000312 = .error .badSelector := by
  decide

/-- The host's view of a word numbers its bits as the table does. -/
theorem test_decodeTableWord : decodeTableWord 32 0x00015304 = some (.montmul 3 2 5 .u) := by decide

/-! ### The states of the tests -/

/-- What a command left in a register. -/
def reg (r : XReg) : Host.Outcome State Fault Refusal → Option Nat
  | .next t => some (t.getX r)
  | .fault _ => none
  | .refused _ => none

/-- RESULT after a command. -/
def res : Host.Outcome State Fault Refusal → Option Nat
  | .next t => some t.result.toNat
  | .fault _ => none
  | .refused _ => none

/-- The error code after a command. -/
def code : Host.Outcome State Fault Refusal → Option (Option Err)
  | .next t => some t.errcode
  | .fault _ => none
  | .refused _ => none

/-- The value of `n` DMEM bytes after a command. -/
def bytes (a n : Nat) : Host.Outcome State Fault Refusal → Option Nat
  | .next t => some (intBe (t.memRead a n))
  | .fault _ => none
  | .refused _ => none

/-- The toy key of 95_test_vectors.md: p = 61, q = 53, e = 17 (V45-1). -/
def toyPriv : Priv := ⟨true, 61, 53, 17, 3233, 2753, 53, 49, 38, 2⟩

/-- Its contexts P, Q, N (V45-1) and a user context over 97 (V42-4). -/
def toyP : Ctx := ⟨true, 61, 8, 56, 255, 235⟩
def toyQ : Ctx := ⟨true, 53, 8, 47, 255, 227⟩
def toyN : Ctx := ⟨true, 3233, 16, 513, 65535, 10399⟩
def ctx97 : Ctx := ⟨true, 97, 8, 36, 255, 95⟩

/-- An idle block with the toy key and the user context over 97: registers `x`, DMEM `m`, ARG0 to ARG3. -/
def toyAt (x : Vector Nat 8) (m : Mem) (a0 a1 a2 a3 : Word) : State :=
  { State.reset with
    x := x, dmem := m, ctxU := ctx97, ctxP := toyP, ctxQ := toyQ, ctxN := toyN, priv := toyPriv,
    pub := ⟨true, 3233, 17, 2⟩, arg0 := a0, arg1 := a1, arg2 := a2, arg3 := a3 }

/-- A block after reset with registers `x`, DMEM `m`, ARG0 to ARG3. -/
def emptyAt (x : Vector Nat 8) (m : Mem) (a0 a1 a2 a3 : Word) : State :=
  { State.reset with x := x, dmem := m, arg0 := a0, arg1 := a1, arg2 := a2, arg3 := a3 }

/-- Registers of small numbers. -/
def xs : Vector Nat 8 := #v[61, 53, 17, 2790, 65, 4, 12, 97]

/-- "abc" at 0, `0a e6` at 0x20. -/
def mem : Mem := [(0, 0x61), (1, 0x62), (2, 0x63), (0x20, 0x0a), (0x21, 0xe6)]

def toy : State := toyAt xs mem 0x20 2 0x10 1
def empty : State := emptyAt xs mem 0 3 0x40 0

/-! ### One step of each command -/

/-- V42-4, V42-13. -/
theorem test_mctx : res (exec (.mctx 7) empty) = some 8 ∧
    (match exec (.mctx 7) empty with | .next t => t.ctxU | _ => Ctx.invalid) = ctx97 := by decide +kernel

/-- V42-12: an even modulus. -/
theorem test_mctx_even : code (exec (.mctx 6) empty) = some (some .invalidModulus) := by decide +kernel

/-- V42-15. -/
theorem test_tomont : reg 3 (exec (.tomont 3 1 .u) (toyAt (xs.set 1 5) mem 0 0 0 0)) = some 19 := by decide +kernel

/-- V42-14. -/
theorem test_tomont_notReady : code (exec (.tomont 2 1 .u) empty) = some (some .notReady) := by decide +kernel

/-- V42-18. -/
theorem test_frommont : reg 6 (exec (.frommont 6 5 .u) (toyAt (xs.set 5 36) mem 0 0 0 0)) = some 35 := by decide +kernel

/-- V42-30: a destination that is both sources. -/
theorem test_montmul : reg 3 (exec (.montmul 3 3 3 .u) (toyAt (xs.set 3 19) mem 0 0 0 0)) = some 95 := by decide +kernel

/-- V42-20: a result equal to M is not reduced. -/
theorem test_montmul_unreduced : reg 0 (exec (.montmul 0 1 2 .u)
    { toyAt ((xs.set 1 3).set 2 5) mem 0 0 0 0 with ctxU := ⟨true, 15, 8, 1, 255, 17⟩ }) = some 15 := by decide +kernel

/-- V42-31. -/
theorem test_ctxrd : reg 0 (exec (.ctxrd 0 .n 4) toy) = some 10399 := by decide +kernel

/-- V43-12. -/
theorem test_modpow : reg 2 (exec (.modpow 2 0 1 .p) (toyAt ((xs.set 0 2790).set 1 53) mem 0 0 0 0)) = some 4 := by
  decide +kernel

/-- V43-4: 0^0 is 1. -/
theorem test_modpow_zero : reg 2 (exec (.modpow 2 0 1 .u) (toyAt ((xs.set 0 0).set 1 0) mem 0 0 0 0)) = some 1 := by
  decide +kernel

/-- V45-1. -/
theorem test_loadkey : (match exec (.loadkey 0 1 2) empty with
    | .next t => (t.priv, t.ctxP, t.ctxQ, t.ctxN, t.result)
    | _ => (Priv.invalid, Ctx.invalid, Ctx.invalid, Ctx.invalid, 0)) = (toyPriv, toyP, toyQ, toyN, 2) := by decide +kernel

/-- V45-8: the even p comes after the inverses. -/
theorem test_loadkey_even : code (exec (.loadkey 0 1 2) (emptyAt #v[2, 3, 65537, 0, 0, 0, 0, 0] [] 0 0 0 0)) =
    some (some .invalidModulus) := by decide +kernel

/-- V45-12. -/
theorem test_loadkeyd : (match exec (.loadkeyd 0 1) empty with
    | .next t => (t.pub, t.priv.d) | _ => (Pub.invalid, 0)) = (⟨true, 3233, 65537, 2⟩, 2753) := by decide +kernel

/-- V45-2: p = q. -/
theorem test_loadkeyd_equal : code (exec (.loadkeyd 0 0) empty) = some (some .keyNotInvertible) := by decide +kernel

/-- V44-1. -/
theorem test_loadpub : (match exec (.loadpub 0 1) (emptyAt ((xs.set 0 3233).set 1 17) mem 0 0 0 0) with
    | .next t => (t.pub, t.ctxN, t.result) | _ => (Pub.invalid, Ctx.invalid, 0)) = (⟨true, 3233, 17, 2⟩, toyN, 2) := by
  decide +kernel

/-- V45-13. -/
theorem test_keyrd : reg 3 (exec (.keyrd 3 7) toy) = some 38 ∧ reg 3 (exec (.keyrd 3 8) toy) = some 3233 := by decide +kernel

/-- V45-17. -/
theorem test_decrypt : reg 4 (exec (.decrypt 4 3) toy) = some 65 := by decide +kernel

/-- V44-4. -/
theorem test_encrypt : reg 1 (exec (.encrypt 1 4) toy) = some 2790 := by decide +kernel

/-- V45-3: m1 below m2. -/
theorem test_crtcomb : reg 5 (exec (.crtcomb 5 5 6) toy) = some 65 := by decide +kernel

/-- V45-16. -/
theorem test_crtcomb_wide : code (exec (.crtcomb 5 0 1) (toyAt ((xs.set 0 0).set 1 (2 ^ 1024 - 1)) mem 0 0 0 0)) =
    some (some .valueTooWide) := by decide +kernel

/-- V41-1. -/
theorem test_b2i : reg 0 (exec (.b2i 0 false) toy) = some 2790 := by decide +kernel

/-- V41-3: the bound. -/
theorem test_b2i_bound : code (exec (.b2i 0 true) (toyAt xs mem 0x20 2 1 0)) = some (some .inputTooLarge) := by decide +kernel

/-- V41-9. -/
theorem test_i2b : bytes 0 4 (exec (.i2b 3) (toyAt xs mem 0 4 0 0)) = some 0x00000ae6 := by decide +kernel

/-- V41-14. -/
theorem test_i2b_wide : code (exec (.i2b 1) (toyAt (xs.set 1 256) mem 0 1 0 0)) = some (some .valueTooWide) := by
  decide +kernel

/-- V41-22: overlapping, moving down. -/
theorem test_strip : bytes 0 4 (exec .strip (emptyAt xs [(1, 1), (2, 2), (3, 3)] 0 4 0 3)) = some 0x01020303 := by
  decide +kernel

/-- V41-23 (SHA-256 of "abc"). -/
theorem test_hash : bytes 0x40 32 (exec .hash empty) =
    some 0xba7816bf8f01cfea414140de5dae2223b00361a396177a9cb410ff61f20015ad := by decide +kernel

/-- V41-24 (SHA-256 of the empty string). -/
theorem test_hash_empty : bytes 0x40 32 (exec .hash (emptyAt xs mem 0 0 0x40 0)) =
    some 0xe3b0c44298fc1c149afbf4c8996fb92427ae41e4649b934ca495991b7852b855 := by decide +kernel

/-- V45-19. -/
theorem test_decbytes : bytes 0x10 2 (exec .decbytes toy) = some 0x0041 := by decide +kernel

/-- V44-6. -/
theorem test_encbytes : bytes 0x10 2 (exec .encbytes (toyAt xs [(1, 0x41)] 0 2 0x10 0)) = some 0x0ae6 := by decide +kernel

/-- V45-23 (SHA-256). -/
theorem test_sign : bytes 0x10 2 (exec .sign (toyAt xs mem 0 3 0x10 0)) = some 0x05c8 := by decide +kernel

/-- V44-8. -/
theorem test_verify : res (exec .verify (toyAt xs [(0, 0x02), (1, 0x6a), (0x3e, 0x0c), (0x3f, 0x80)] 0 2 0x20 32)) = some 1 := by
  decide +kernel

/-- V44-7's signature of "abc" under the toy key does not verify: the digest is above N (SHA-256). -/
theorem test_verifymsg : res (exec .verifymsg (toyAt xs [(0, 0x61), (1, 0x62), (2, 0x63), (0x10, 0x05), (0x11, 0xc8)] 0 3 0x10 2)) =
    some 0 := by decide +kernel

/-- V60-6: RangeError before InputTooLarge. -/
theorem test_decbytes_range : code (exec .decbytes (toyAt xs mem 4095 3 0 0)) = some (some .rangeError) := by decide +kernel

/-! ### One step of the host -/

/-- V20-1. -/
theorem test_reads_reset :
    (match step (State.reset.onRead 4) with | .next t => t.reads | _ => []) = [0x0F200400] := by decide +kernel

/-- V20-2: the lanes of DMEM. -/
theorem test_dmem_write : (match step (empty.onWrite 0x2000 0x0000E60A) with | .next t => t.dmem.readBytes 0 4 | _ => []) =
    [0x0a, 0xe6, 0x00, 0x00] := by decide +kernel

/-- V20-3: word 1 of X1. -/
theorem test_x_write : reg 1 (step ((emptyAt (xs.set 1 5) [] 0 0 0 0).onWrite 0x1104 1)) = some 4294967301 := by
  decide +kernel

/-- V70-4: a write with SRST and IE while BUSY. -/
theorem test_softReset : (match step ((toy.issue 0x30).onWrite 0x10 3) with
    | .next t => (t.phase, t.done, t.ie, t.dmem, t.priv.valid) | _ => (.busy, true, true, [], true)) =
    (.idle, false, false, mem, false) := by decide +kernel

/-- withFetchWord on the first command after reset (V42-12: X0 = 0). -/
theorem test_withFetchWord : code (step (State.reset.withFetchWord 32 0x00000001)) = some (some .invalidModulus) := by
  decide +kernel

/-! ### The invariant of the states above -/

theorem xs_lt : ∀ i : XReg, xs[i] < 2 ^ 1024 := by decide +kernel

theorem mem_wf : mem.wf := by decide

theorem mem_below : mem.below 4096 := by decide

theorem toyPriv_good : PrivGood Config.default toyPriv := by constructor <;> decide +kernel

theorem toyP_good : CtxGood 1024 toyP := by
  constructor; constructor; all_goals decide +kernel

theorem toyQ_good : CtxGood 1024 toyQ := by
  constructor; constructor; all_goals decide +kernel

theorem toyN_good : CtxGood 1024 toyN := by
  constructor; constructor; all_goals decide +kernel

theorem ctx97_good : CtxGood 1024 ctx97 := by
  constructor; constructor; all_goals decide +kernel

theorem toyPub_good : PubGood Config.default ⟨true, 3233, 17, 2⟩ := by constructor <;> decide +kernel

theorem toyAt_inv {x : Vector Nat 8} {m : Mem} (a0 a1 a2 a3 : Word) (hx : ∀ i : XReg, x[i] < 2 ^ 1024) (hm : m.wf)
    (hb : m.below 4096) : (toyAt x m a0 a1 a2 a3).Inv :=
  { cfg := Config.default_wf, x := hx, memWf := hm, memBelow := hb
    slotU := (fun _ => ctx97_good), slotP := (fun _ => toyP_good), slotQ := (fun _ => toyQ_good), slotN := (fun _ => toyN_good)
    validP := rfl, validQ := rfl, validN := rfl
    priv := (fun _ => ⟨toyPriv_good, rfl, rfl⟩), pub := fun _ => ⟨toyPub_good, rfl⟩
    busy := (fun h => nomatch h), errHasCode := (fun h => nomatch h), noCode4 := (fun h => nomatch h) }

theorem emptyAt_inv {x : Vector Nat 8} {m : Mem} (a0 a1 a2 a3 : Word) (hx : ∀ i : XReg, x[i] < 2 ^ 1024) (hm : m.wf)
    (hb : m.below 4096) : (emptyAt x m a0 a1 a2 a3).Inv :=
  { cfg := Config.default_wf, x := hx, memWf := hm, memBelow := hb
    slotU := (fun h => nomatch h), slotP := (fun h => nomatch h), slotQ := (fun h => nomatch h), slotN := (fun h => nomatch h)
    validP := rfl, validQ := rfl, validN := rfl, priv := (fun h => nomatch h), pub := (fun h => nomatch h)
    busy := (fun h => nomatch h), errHasCode := (fun h => nomatch h), noCode4 := (fun h => nomatch h) }

theorem toy_inv : toy.Inv := toyAt_inv _ _ _ _ xs_lt mem_wf mem_below

theorem empty_inv : empty.Inv := emptyAt_inv _ _ _ _ xs_lt mem_wf mem_below

/-- The toy block with a command issued. -/
def busy (w : Word) : State := toy.issue w

theorem busy_inv (w : Word) : (busy w).Inv := toy_inv.issue w

/-- ERR after a command. -/
def failed : Host.Outcome State Fault Refusal → Bool
  | .next t => t.err
  | .fault _ => false
  | .refused _ => false

theorem failed_next {o : Host.Outcome State Fault Refusal} (h : failed o = true) : ∃ t, o = .next t ∧ t.err = true := by
  cases o with
  | next t => exact ⟨t, rfl, h⟩
  | fault r => cases h
  | refused r => cases h

theorem exec_next (i : Instr) (s : State) : ∃ t, exec i s = .next t := ⟨_, exec_eq_complete i s⟩

theorem step_busy (w : Word) : ∃ t, step (busy w) = .next t := by
  have h : step (busy w) = engineTurn (busy w) := rfl
  rw [h]
  rcases engineTurn_cases (busy w) with ⟨-, h⟩ | ⟨-, i, u, -, -, h⟩ | ⟨-, e, h, -⟩ <;> exact ⟨_, h⟩

/-! ### The hypotheses of the statements -/

theorem witness_DecodeOfEncodeIsTheCommand :
    (Instr.ctxrd 7 .n 4).wellFormed = true ∧ (Instr.keyrd 7 9).wellFormed = true ∧
    (Instr.montmul 7 7 7 .n).wellFormed = true := by decide

theorem witness_DecodedWordIsItsEncoding : decode 0x02300005 = .ok (.ctxrd 0 .n 4) := by decide

theorem witness_OpcodeRowsArePairwiseDisjoint :
    ∃ i : Fin opcodeTable.length, (opcodeTable.get i).fits 0x00000001 = true := ⟨⟨0, by decide⟩, by decide⟩

/-- Bit 27 and bit 31; opcodes 0, 6, 0x35; CTXRD with sel 5 and 15; KEYRD with sel 10 and 15. -/
theorem witness_ReservedWordsAreIllegal :
    (busy 0x08000001).phase = .busy ∧ reservedWord (busy 0x08000001).pend ∧ reservedWord (busy 0x80000001).pend ∧
    reservedWord (busy 0x00000000).pend ∧ reservedWord (busy 0x00000006).pend ∧ reservedWord (busy 0x00000035).pend ∧
    reservedWord (busy 0x02800005).pend ∧ reservedWord (busy 0x07800005).pend ∧
    reservedWord (busy 0x05000012).pend ∧ reservedWord (busy 0x07800012).pend :=
  ⟨rfl, .inl (by decide), .inl (by decide), .inr (.inl (by decide)), .inr (.inl (by decide)), .inr (.inl (by decide)),
    .inr (.inr (.inl (by decide))), .inr (.inr (.inl (by decide))), .inr (.inr (.inr (by decide))),
    .inr (.inr (.inr (by decide)))⟩

/-- MCTX with rd = 1; LOADKEYD with rs3 = 7; VERIFYMSG with sel = 8. -/
theorem witness_UnusedFieldsMustBeZero : (busy 0x101).phase = .busy ∧ unusedFieldSet (busy 0x101).pend ∧
    unusedFieldSet (busy 0x004E0010).pend ∧ unusedFieldSet (busy 0x04000034).pend ∧ (Instr.mctx 0).wellFormed = true := by
  refine ⟨rfl, .inl ⟨0x01, _, by simp [unusedFields]; rfl, by decide, (8, 3), by decide, by decide⟩,
    .inr (by decide), .inl ⟨0x34, _, by simp [unusedFields]; rfl, by decide, (23, 4), by decide, by decide⟩, rfl⟩

theorem witness_StepRunsTheDecodedCommand : (busy 0x00001C14).phase = .busy ∧
    decode (busy 0x00001C14).pend = .ok (.encrypt 4 3) ∧ (busy 0x00001C14).sched = [] := by decide

theorem witness_PlacedWordIsTheNextCommand : Instr.verifymsg.wellFormed = true := rfl

theorem witness_FirstFailingCheckDecides : toy.Inv ∧ (Instr.decrypt 4 3).wellFormed = true ∧
    firstError toy (.decrypt 4 3) = none ∧ firstError toy (.mctx 6) = some .invalidModulus :=
  ⟨toy_inv, rfl, by decide +kernel, by decide +kernel⟩

theorem witness_ErrorsAreThoseOfTheMatrix : empty.Inv ∧ (Instr.decrypt 4 3).wellFormed = true ∧
    ∃ t, exec (.decrypt 4 3) empty = .next t ∧ t.err = true := by
  exact ⟨empty_inv, rfl, failed_next (by decide +kernel)⟩

/-- A read at the first and a write at the last offset, no reset; and a schedule with a reset. -/
theorem witness_IssuedCommandCompletes :
    (∀ e ∈ [Event.read .word 0, .write .word 0xFFFC 1], e.legal Config.default ∧ ¬ e.resets Config.default) ∧
    (∀ e ∈ [Event.write .word 0x10 1, .engine], e.legal Config.default) ∧ (busy 0x20).phase = .busy := by
  simp [Event.legal, Event.resets, Config.default, busy, State.issue]

theorem witness_MctxOutcome : toy.Inv ∧ toy.getX 7 % 2 = 1 ∧ toy.getX 6 % 2 = 0 := ⟨toy_inv, rfl, rfl⟩

/-- For DomainTransformOutcome, MontmulOutcome and ModpowOutcome, at both ends of the slots. -/
theorem witness_contexts : toy.Inv ∧ (toy.ctx .u).valid = true ∧ (toy.ctx .n).valid = true ∧
    empty.Inv ∧ (empty.ctx .u).valid = false ∧ (empty.ctx .n).valid = false :=
  ⟨toy_inv, rfl, rfl, empty_inv, rfl, rfl⟩

/-- A prime and a composite modulus. -/
theorem witness_MontMulLaws : CtxGood 1024 ctx97 ∧ ctx97.M.Prime ∧ CtxGood 1024 toyN ∧ 1 < toyN.M ∧ ¬ toyN.M.Prime := by
  refine ⟨ctx97_good, ?_, toyN_good, by decide, ?_⟩
  · show Nat.Prime 97; norm_num
  · show ¬ Nat.Prime 3233; norm_num

theorem witness_CtxrdOutcome : (0 : BitVec 4).toNat ≤ 4 ∧ (4 : BitVec 4).toNat ≤ 4 ∧ (toy.ctx .p).valid = true ∧
    (empty.ctx .p).valid = false := by decide

theorem witness_MontgomeryProperty : CtxGood 1024 ctx97 ∧ toy.Inv ∧ (toy.ctx .u).valid = true ∧ (2 : XReg) ≠ 1 ∧
    (2 : XReg) ≠ 3 := ⟨ctx97_good, toy_inv, rfl, by decide, by decide⟩

theorem witness_AfterResetOnlySlotFreeCommandsRun : (∀ c, (State.reset.ctx c).valid = false) ∧
    State.reset.priv.valid = false ∧ State.reset.pub.valid = false ∧ needsSlot .sign = true ∧ needsSlot .hash = false ∧
    ∃ t, exec (.mctx 0) State.reset = .next t ∧ t.err = true :=
  ⟨fun c => by cases c <;> rfl, rfl, rfl, rfl, rfl, failed_next (by decide +kernel)⟩

/-- The modulus 61 with R = 2^16: 2^16·25 = 61·26859 + 1, and 61·26859 = 25·2^16 − 1. -/
def wideP : Ctx := ⟨true, 61, 16, 25, 65535, 26859⟩

/-- One modulus with two widths: 61 with R = 2^8 and with R = 2^16. -/
theorem witness_ModPowIsExponentiation : CtxLaws toyP ∧ CtxLaws wideP ∧ wideP.M = toyP.M ∧ wideP.w ≠ toyP.w :=
  ⟨toyP_good.toCtxLaws, by constructor <;> decide, rfl, by decide⟩

theorem witness_LoadpubOutcome : toy.Inv ∧ toy.getX 0 % 2 = 1 ∧ toy.getX 3 % 2 = 0 := ⟨toy_inv, rfl, rfl⟩

/-- For EncryptOutcome, DecryptOutcome, CrtcombOutcome and KeyrdOutcome. -/
theorem witness_keys : toy.Inv ∧ toy.pub.valid = true ∧ toy.priv.valid = true ∧ empty.Inv ∧
    empty.pub.valid = false ∧ empty.priv.valid = false :=
  ⟨toy_inv, rfl, rfl, empty_inv, rfl, rfl⟩

/-- The selectors at the ends of both ranges. -/
theorem witness_KeyrdOutcome : ∀ sel ∈ ([0, 7, 8, 9] : List (BitVec 4)), sel.toNat ≤ 9 ∧
    (if sel.toNat ≤ 7 then toy.priv.valid else toy.pub.valid) = true ∧
    (if sel.toNat ≤ 7 then empty.priv.valid else empty.pub.valid) = false := by decide

/-- Both sides of the width check, and reduced operands (V45-15, V45-16). -/
theorem witness_CrtcombOutcome : toy.Inv ∧ toy.getX 5 < toy.priv.p ∧ toy.getX 6 < toy.priv.q ∧
    (∀ h, h < 61 → toy.getX 6 + h * toy.priv.q < 2 ^ toy.cfg.xlen) ∧
    (let s := toyAt (xs.set 1 (2 ^ 1024 - 1)) mem 0 0 0 0
     2 ^ s.cfg.xlen ≤ s.getX 1 + 40 * s.priv.q) := by
  refine ⟨toy_inv, by decide, by decide, by decide +kernel, by decide +kernel⟩

/-- Regions that end at the end of DMEM; a source of k bytes and an empty one. For EncbytesOutcome and DecbytesOutcome. -/
theorem witness_byteTransforms : ∀ n ∈ ([0, 2] : List Nat),
    let s := toyAt xs mem (BitVec.ofNat 32 (4096 - n)) (BitVec.ofNat 32 n) 4094 0
    s.pub.valid = true ∧ s.priv.valid = true ∧ s.arg0.toNat + s.arg1.toNat ≤ s.cfg.dmemBytes ∧
      s.arg2.toNat + s.pub.k ≤ s.cfg.dmemBytes ∧ s.arg2.toNat + s.priv.k ≤ s.cfg.dmemBytes ∧
      s.arg1.toNat ≤ s.pub.k ∧ s.arg1.toNat ≤ s.priv.k := by decide +kernel

theorem witness_byteTransforms_inv (a0 a1 a2 a3 : Word) : (toyAt xs mem a0 a1 a2 a3).Inv :=
  toyAt_inv _ _ _ _ xs_lt mem_wf mem_below

/-- A match (V44-8). -/
theorem witness_VerifyOutcome :
    let s := toyAt xs [(0, 0x02), (1, 0x6a), (0x3e, 0x0c), (0x3f, 0x80)] 0 2 0x20 32
    s.Inv ∧ s.pub.valid = true ∧ s.arg0.toNat + s.arg1.toNat ≤ s.cfg.dmemBytes ∧
      s.arg2.toNat + s.arg3.toNat ≤ s.cfg.dmemBytes ∧ s.arg1.toNat ≤ s.pub.k ∧ s.arg3.toNat = s.cfg.dlen ∧
      bytesValue s s.arg2.toNat s.arg3.toNat =
        bytesValue s s.arg0.toNat s.arg1.toNat ^ s.pub.e % s.pub.N % 256 ^ s.cfg.dlen := by
  refine ⟨toyAt_inv _ _ _ _ xs_lt (by decide) (by decide), rfl, ?_⟩
  decide +kernel

/-- For VerifymsgOutcome and SignOutcome. -/
theorem witness_digestCommands :
    let s := toyAt xs mem 0 3 0x10 2
    s.Inv ∧ s.cfg.digestPresent = true ∧ s.pub.valid = true ∧ s.priv.valid = true ∧
      s.arg0.toNat + s.arg1.toNat ≤ s.cfg.dmemBytes ∧ s.arg2.toNat + s.arg3.toNat ≤ s.cfg.dmemBytes ∧
      s.arg3.toNat ≤ s.pub.k ∧ s.arg2.toNat + s.priv.k ≤ s.cfg.dmemBytes :=
  ⟨toyAt_inv _ _ _ _ xs_lt mem_wf mem_below, by decide⟩

/-- The toy key by LOADKEY and by LOADKEYD. -/
theorem witness_KeyLoadsBuildTheKey : empty.Inv ∧ keyLoadError empty.cfg (empty.getX 0) (empty.getX 1) (empty.getX 2) = none ∧
    keyLoadError empty.cfg (empty.getX 0) (empty.getX 1) empty.cfg.defaultE = none :=
  ⟨empty_inv, by decide +kernel, by decide +kernel⟩

/-- Each failing check (V45-2 to V45-8, L1-2). -/
theorem witness_KeyLoadErrorsInOrder :
    keyLoadError Config.default 0 53 17 = some .invalidModulus ∧
    keyLoadError Config.default 1 53 17 = some .keyNotInvertible ∧
    keyLoadError Config.default 61 53 60 = some .keyNotInvertible ∧
    keyLoadError Config.default 61 61 17 = some .keyNotInvertible ∧
    keyLoadError Config.default 2 3 65537 = some .invalidModulus ∧
    keyLoadError Config.default (2 ^ 1024 - 105) (2 ^ 1024 - 179) 65537 = some .keyTooLarge := by decide +kernel

/-- For CrtDecryptIsDirectExponentiation and RsaRoundTrip: the toy key's p and q are prime, and register 2 holds d. -/
theorem witness_primeKey :
    let s := toyAt (xs.set 2 2753) mem 0 0 0 0
    s.Inv ∧ s.PrimeKey ∧ s.getX 2 = s.priv.d := by
  refine ⟨toyAt_inv _ _ _ _ (by decide +kernel) mem_wf mem_below, ⟨rfl, ?_, ?_, rfl, rfl, rfl⟩, rfl⟩
  · show Nat.Prime 61; norm_num
  · show Nat.Prime 53; norm_num

/-- A block whose digest has one byte: every digest is below N = 3233. -/
def shortDigest : State :=
  { toyAt xs mem 0 3 0x10 0 with cfg := { Config.default with dlen := 1, digestAlg := .other } }

theorem shortDigest_inv : shortDigest.Inv :=
  { cfg := ⟨by decide, by decide, by decide, (fun h => nomatch h), Config.default_wf.2.2.2.2.1, by decide⟩
    x := xs_lt, memWf := mem_wf, memBelow := mem_below
    slotU := (fun _ => ctx97_good), slotP := (fun _ => toyP_good), slotQ := (fun _ => toyQ_good), slotN := (fun _ => toyN_good)
    validP := rfl, validQ := rfl, validN := rfl
    priv := fun _ => ⟨by constructor <;> decide +kernel, rfl, rfl⟩
    pub := fun _ => ⟨by constructor <;> decide +kernel, rfl⟩
    busy := (fun h => nomatch h), errHasCode := (fun h => nomatch h), noCode4 := (fun h => nomatch h) }

theorem witness_SignedMessageVerifies :
    let s := shortDigest
    s.Inv ∧ s.PrimeKey ∧ s.cfg.digestPresent = true ∧ s.arg0.toNat + s.arg1.toNat ≤ s.cfg.dmemBytes ∧
      s.arg2.toNat + s.priv.k ≤ s.cfg.dmemBytes ∧ s.arg0.toNat + s.arg1.toNat ≤ s.arg2.toNat ∧
      intBe (digest s.cfg (s.dmem.readBytes s.arg0.toNat s.arg1.toNat)) < s.priv.N := by
  refine ⟨shortDigest_inv, ⟨rfl, ?_, ?_, rfl, rfl, rfl⟩, rfl, by decide, by decide, by decide, ?_⟩
  · show Nat.Prime 61; norm_num
  · show Nat.Prime 53; norm_num
  · refine (intBe_lt _).trans ?_
    rw [length_digest]
    decide

/-- An empty source, and one that ends at the end of DMEM with a bound equal to its length. -/
theorem witness_B2iOutcome : ∀ n ∈ ([0, 2] : List Nat),
    let s := toyAt xs mem (BitVec.ofNat 32 (4096 - n)) (BitVec.ofNat 32 n) (BitVec.ofNat 32 n) 0
    s.arg0.toNat + s.arg1.toNat ≤ s.cfg.dmemBytes ∧ s.arg1.toNat ≤ s.arg2.toNat ∧
      bytesValue s s.arg0.toNat s.arg1.toNat < 2 ^ s.cfg.xlen := by decide +kernel

theorem witness_I2bOutcome :
    let s := toyAt xs mem 4094 2 0 0
    s.Inv ∧ s.arg0.toNat + s.arg1.toNat ≤ s.cfg.dmemBytes ∧ s.getX 3 < 256 ^ s.arg1.toNat :=
  ⟨toyAt_inv _ _ _ _ xs_lt mem_wf mem_below, by decide⟩

/-- Overlapping regions (V41-22). -/
theorem witness_StripOutcome :
    let s := toyAt xs mem 0 4 0 3
    s.Inv ∧ s.arg0.toNat + s.arg1.toNat ≤ s.cfg.dmemBytes ∧ s.arg2.toNat + s.arg3.toNat ≤ s.cfg.dmemBytes ∧
      s.arg3.toNat ≤ s.arg1.toNat :=
  ⟨toyAt_inv _ _ _ _ xs_lt mem_wf mem_below, by decide⟩

theorem witness_HashOutcome : empty.Inv ∧ empty.cfg.digestPresent = true ∧
    empty.arg0.toNat + empty.arg1.toNat ≤ empty.cfg.dmemBytes ∧ empty.arg2.toNat + empty.cfg.dlen ≤ empty.cfg.dmemBytes :=
  ⟨empty_inv, by decide⟩

/-- The bound itself. -/
theorem witness_ToBytesClosedForm : 255 < 256 ^ 1 ∧ 256 ^ 1 ≤ 256 := by decide

theorem witness_CodecRoundTrip : toy.arg0.toNat + toy.arg1.toNat ≤ toy.cfg.dmemBytes ∧
    bytesValue toy toy.arg0.toNat toy.arg1.toNat < 2 ^ toy.cfg.xlen ∧ Mem.wf [(5, 1)] ∧ toy.arg1.toNat ≤ 2 := by
  decide +kernel

/-- A half-word access, a misaligned one, and the address after the window. -/
theorem witness_AccessesTheBlockDoesNotTake : toy.cfg.base ≤ 0xFFFE ∧ 0xFFFE < toy.cfg.base + 0x10000 ∧
    Width.half ≠ .word ∧ (0xFFFE - toy.cfg.base) % 4 ≠ 0 ∧ toy.cfg.base + 0x10000 ≤ 0x10000 := by decide

/-- The first and last word of each clause: 0, 31 and 32, 63. For LoadingARegisterWordByWord too. -/
theorem witness_XWindowWords : toy.Inv ∧ toy.phase = .idle ∧ 0 < toy.cfg.xlen / 32 ∧ 31 < toy.cfg.xlen / 32 ∧
    toy.cfg.xlen / 32 ≤ 32 ∧ (63 : Nat) < 64 ∧ 2 ^ 1024 - 1 < 2 ^ toy.cfg.xlen :=
  ⟨toy_inv, rfl, by decide, by decide, by decide, by decide, by decide +kernel⟩

/-- The first and last word of DMEM. -/
theorem witness_DmemWindowLanes : toy.Inv ∧ toy.phase = .idle ∧ ∀ a ∈ ([0, 4092] : List Nat), a % 4 = 0 ∧ a < toy.cfg.dmemBytes :=
  ⟨toy_inv, rfl, by decide⟩

/-- The ends of each reserved range; and the offsets beside them, which are not reserved. -/
theorem witness_ReservedAndReadOnlyOffsets : toy.Inv ∧
    (∀ off ∈ ([0x0C, 0x24, 0x2C, 0x40, 0xFFC, 0x1800, 0x1FFC, 0x3000, 0xFFFC] : List Nat),
      off % 4 = 0 ∧ off < 0x10000 ∧ reservedOffset toy.cfg off) ∧
    (∀ off ∈ ([0x08, 0x10, 0x20, 0x30, 0x3C, 0x1000, 0x17FC, 0x2000, 0x2FFC] : List Nat), ¬ reservedOffset toy.cfg off) := by
  refine ⟨toy_inv, ?_, ?_⟩ <;> simp only [reservedOffset] <;> decide

theorem witness_IdentityAndConfigurationReads : toy.Inv ∧ toy.cfg = Config.default ∧ (busy 0x20).Inv := ⟨toy_inv, rfl, busy_inv _⟩

/-- RESULT, and the first and last X and DMEM words. -/
theorem witness_ReadsWhileBusy : (busy 0x20).Inv ∧ (busy 0x20).phase = .busy ∧
    ∀ off ∈ ([0x20, 0x1000, 0x17FC, 0x2000, 0x2FFC] : List Nat), off % 4 = 0 ∧
      (off = 0x20 ∨ (0x1000 ≤ off ∧ off < 0x1800) ∨ (0x2000 ≤ off ∧ off < 0x2000 + (busy 0x20).cfg.dmemBytes)) :=
  ⟨busy_inv _, rfl, by decide⟩

/-- Each dropped offset; and a write to CTRL without SRST and a read, which are legal and no reset. -/
theorem witness_WritesWhileBusyAreDropped : (busy 0x20).Inv ∧ (busy 0x20).phase = .busy ∧
    (∀ off ∈ ([0x14, 0x30, 0x34, 0x38, 0x3C, 0x1000, 0x17FC, 0x2000, 0x2FFC] : List Nat),
      off % 4 = 0 ∧ droppedWhileBusy (busy 0x20).cfg off) ∧
    (∀ e ∈ [Event.write .word 0x10 2, .write .word 0x30 5, .read .word 0x20],
      e.legal (busy 0x20).cfg ∧ ¬ e.resets (busy 0x20).cfg ∧ e ≠ .engine) := by
  refine ⟨busy_inv _, rfl, ?_, ?_⟩
  · simp only [droppedWhileBusy]; decide
  · simp [Event.legal, Event.resets, busy, State.issue, toy, toyAt, State.reset, State.powerOn, Config.default]

/-- For IssueOfACommand, StatusAndArgumentRegisters, ControlWritesAndAbandonedCommands and InterruptLine. -/
theorem witness_phases : toy.Inv ∧ toy.phase = .idle ∧ (busy 0x20).Inv ∧ (busy 0x20).phase = .busy ∧
    (3 : Word).getLsbD 0 = true ∧ (2 : Word).getLsbD 0 = false := ⟨toy_inv, rfl, busy_inv _, rfl, by decide, by decide⟩

/-- ERRCODE at no error and at the first and last code. -/
theorem witness_StatusAndArgumentRegisters : toy.errcode = none ∧ (toy.fail .invalidModulus).phase = .idle ∧
    (toy.fail .invalidModulus).Inv ∧ (toy.fail .rangeError).errcode = some .rangeError :=
  ⟨rfl, rfl, toy_inv.fail (by decide), rfl⟩

theorem witness_ResetValues : toy.Inv ∧ mem.wf ∧ mem.below toy.cfg.dmemBytes ∧ (1 : Word).getLsbD 0 = true :=
  ⟨toy_inv, mem_wf, mem_below, by decide⟩

/-- A dropped write, a clearing write, a soft reset. -/
theorem witness_OverrunIsSticky :
    (∃ t, step { busy 0x20 with sched := [.write .word 0x30 5] } = .next t ∧ t.ovr = true) ∧
    (∃ t, step { busy 0x20 with ovr := true, sched := [.write .word 0x18 8] } = .next t ∧ t.ovr = false) ∧
    (∃ t, step { busy 0x20 with ovr := true, sched := [.write .word 0x10 1] } = .next t ∧ t.ovr = false) :=
  ⟨⟨_, rfl, rfl⟩, ⟨_, rfl, rfl⟩, ⟨_, rfl, rfl⟩⟩

theorem witness_InvariantHoldsAtReset : Config.default.wf ∧ mem.wf ∧ mem.below Config.default.dmemBytes :=
  ⟨Config.default_wf, mem_wf, mem_below⟩

theorem witness_EveryStepKeepsTheInvariant : (busy 0x00001C14).Inv ∧ ∃ t, step (busy 0x00001C14) = .next t :=
  ⟨busy_inv _, step_busy _⟩

/-- A step that is no reset, a load's completion, and a reset. -/
theorem witness_KeysAndContextsChangeOnlyByLoads :
    (∃ t, step (busy 0x00001C14) = .next t) ∧ ¬ (busy 0x00001C14).nextResets ∧
    (busy 0x00044010).completes (.loadkey 0 1 2) ∧
    ({ busy 0x00001C14 with sched := [.write .word 0x10 1] } : State).nextResets := by
  refine ⟨step_busy _, ?_, ⟨.inl rfl, rfl, by decide⟩, _, _, rfl, rfl, rfl, by decide⟩
  rintro ⟨e, rest, h, -⟩
  cases h

/-- Each command of both sides completes over the toy key, and the other side may be any. -/
theorem witness_KeySidesDoNotMix :
    (∀ i ∈ [Instr.decrypt 4 3, .crtcomb 5 5 6, .decbytes, .sign, .encrypt 4 3, .encbytes, .verify, .verifymsg],
      ∃ t, exec i toy = .next t) ∧
    (let s' : State := { toy with pub := Pub.invalid, ctxN := Ctx.invalid }
     s' = { toy with pub := s'.pub, ctxN := s'.ctxN } ∧ s' ≠ toy) ∧
    (let s' : State := { toy with priv := Priv.invalid, ctxP := Ctx.invalid, ctxQ := Ctx.invalid }
     s' = { toy with priv := s'.priv, ctxP := s'.ctxP, ctxQ := s'.ctxQ } ∧ s' ≠ toy) := by
  refine ⟨fun i _ => exec_next i toy, ⟨rfl, by decide⟩, rfl, by decide⟩

end Sys2Proof.Tests
end

section
/-!
The values commands write, and the effect a successful command has on the block: every command's pseudocode, once,
so that the invariant and the frame of the slots are each a case split over six effects.
-/

namespace Sys2Proof.Machine

open Sys2Proof

/-! ### Values over a good context fit a register -/

section

variable {xlen : Nat} {c : Ctx} (h : CtxGood xlen c)

include h

theorem CtxGood.toMont_lt (a : Nat) : toMont c a < 2 ^ xlen := (Nat.mod_lt _ h.M_pos).trans h.fits

theorem CtxGood.montMul_lt (a b : Nat) : montMul c a b < 2 ^ xlen := (h.montMul_le a b).trans_lt h.fits

/-- Every constant of a good context fits, R − 1 and Mstar by `w ≤ XLEN` (42_montgomery.md R133). -/
theorem CtxGood.ctxField_lt {sel : BitVec 4} {v : Nat} (hv : ctxField c sel = .ok v) : v < 2 ^ xlen := by
  have hR : 2 ^ c.w ≤ 2 ^ xlen := Nat.pow_le_pow_right two_pos h.w_le
  have hpos : 0 < 2 ^ c.w := Nat.two_pow_pos _
  unfold ctxField at hv
  split at hv <;> cases hv
  case h_1 => exact h.fits
  case h_2 => exact h.w_le.trans_lt Nat.lt_two_pow_self
  case h_3 => exact h.Rinv_lt.trans h.fits
  case h_4 => have := h.Rminus1_eq; omega
  case h_5 => have := h.Mstar_lt; omega

end

theorem fromMont_lt {c : Ctx} (h : CtxLaws c) (a : Nat) : fromMont c a < c.M := Nat.mod_lt _ h.M_pos

theorem modPow_lt {c : Ctx} (h : CtxLaws c) (base exp : Nat) : modPow c base exp < c.M := fromMont_lt h _

/-- The CRT combination of a residue below q is below p·q (45_private_key.md R186). -/
theorem crtComb_lt {k : Priv} (hp : 0 < k.p) (m1 : Nat) {m2 : Nat} (h2 : m2 < k.q) :
    crtComb k m1 m2 < k.p * k.q := by
  have hpos : (0 : Int) < k.p := by exact_mod_cast hp
  have hh : ((k.qInv : Int) * ((m1 : Int) - (m2 : Int)) % (k.p : Int)).toNat < k.p := by
    have h0 := Int.emod_nonneg ((k.qInv : Int) * ((m1 : Int) - (m2 : Int))) hpos.ne'
    have h1 := Int.emod_lt_of_pos ((k.qInv : Int) * ((m1 : Int) - (m2 : Int))) hpos
    omega
  unfold crtComb
  generalize ((k.qInv : Int) * ((m1 : Int) - (m2 : Int)) % (k.p : Int)).toNat = h at hh
  calc m2 + h * k.q < k.q + h * k.q := Nat.add_lt_add_right h2 _
    _ = (h + 1) * k.q := by ring
    _ ≤ k.p * k.q := Nat.mul_le_mul_right _ hh

/-- The numbers of a good PRIV fit a register. -/
theorem PrivGood.fields_lt {cfg : Config} {k : Priv} (h : PrivGood cfg k) :
    k.p < 2 ^ cfg.xlen ∧ k.q < 2 ^ cfg.xlen ∧ k.d < 2 ^ cfg.xlen ∧ k.dp < 2 ^ cfg.xlen ∧
      k.dq < 2 ^ cfg.xlen ∧ k.qInv < 2 ^ cfg.xlen := by
  have hN : k.p * k.q < 2 ^ cfg.xlen := h.N_eq ▸ h.N_fits
  have hp : k.p < 2 ^ cfg.xlen := (Nat.le_mul_of_pos_right _ (by have := h.q_ge; omega)).trans_lt hN
  have hq : k.q < 2 ^ cfg.xlen := (Nat.le_mul_of_pos_left _ (by have := h.p_ge; omega)).trans_lt hN
  have hd : k.d < 2 ^ cfg.xlen :=
    (h.d_lt.le.trans (Nat.mul_le_mul (Nat.sub_le _ _) (Nat.sub_le _ _))).trans_lt hN
  exact ⟨hp, hq, hd, h.dp_eq ▸ (Nat.mod_le _ _).trans_lt hd, h.dq_eq ▸ (Nat.mod_le _ _).trans_lt hd,
    h.qInv_lt.trans hp⟩

/-- What KEYRD reads from a valid slot fits a register (45_private_key.md R184). -/
theorem State.Inv.keyField_lt {s : State} (hi : s.Inv) {sel : BitVec 4} {v : Nat}
    (hpriv : 8 ≤ sel.toNat ∨ s.priv.valid = true) (hpub : sel.toNat ≤ 7 ∨ s.pub.valid = true)
    (hv : s.keyField sel = .ok v) : v < 2 ^ s.cfg.xlen := by
  have privGood (h : sel.toNat < 8) : PrivGood s.cfg s.priv := (hi.priv (hpriv.resolve_left (by omega))).1
  have pubGood (h : 7 < sel.toNat) : PubGood s.cfg s.pub := (hi.pub (hpub.resolve_left (by omega))).1
  unfold State.keyField at hv
  split at hv <;> cases hv
  case h_1 hsel => exact (privGood (by omega)).N_fits
  case h_2 hsel => exact (privGood (by omega)).e_fits
  case h_9 hsel => exact (pubGood (by omega)).N_fits
  case h_10 hsel => exact (pubGood (by omega)).e_fits
  all_goals obtain ⟨hp, hq, hd, hdp, hdq, hqInv⟩ := (privGood (by omega)).fields_lt; assumption

theorem State.Inv.encryptVal_lt {s : State} (hi : s.Inv) (hv : s.pub.valid = true) (m : Nat) :
    s.encryptVal m < 2 ^ s.cfg.xlen :=
  have hg := hi.slotN (hi.validN.trans hv)
  (modPow_lt hg.toCtxLaws _ _).trans hg.fits

theorem State.Inv.decryptVal_lt {s : State} (hi : s.Inv) (hv : s.priv.valid = true) (c : Nat) :
    s.decryptVal c < 2 ^ s.cfg.xlen := by
  obtain ⟨hg, -, hQ⟩ := hi.priv hv
  have hm2 := modPow_lt (hi.slotQ (hi.validQ.trans hv)).toCtxLaws c s.priv.dq
  have := crtComb_lt (by have := hg.p_ge; omega) (modPow s.ctxP c s.priv.dp) (hQ ▸ hm2)
  exact this.trans (hg.N_eq ▸ hg.N_fits)

/-! ### Lengths of the strings commands write -/

theorem length_of_stripPadding {b t : List Byte} {n : Nat} (h : stripPadding b n = .ok t) : t.length = n := by
  unfold stripPadding at h
  split at h <;> cases h
  simp only [List.length_drop]
  omega

theorem length_of_encryptBytes {s : State} {b c : List Byte} (h : s.encryptBytes b = .ok c) :
    c.length = s.pub.k := by
  obtain ⟨m, -, hm⟩ := bind_eq_ok.1 h
  exact length_of_toBytes hm

/-! ### Key loads -/

/-- The inverse `inv` answers, where it answers one. -/
theorem inv?_eq_some_modInv {x m y : Nat} : inv? x m = some y ↔ Nat.gcd x m = 1 ∧ modInv x m = y := by
  simp only [inv?, gcd_mod_self]
  split <;> simp_all

/-- What a successful `keyBuild` answers for p, q and e (45_private_key.md R180). -/
def builtKey (p q e : Nat) : KeyBundle :=
  let d := modInv e ((p - 1) * (q - 1))
  { priv := ⟨true, p, q, e, p * q, d, d % (p - 1), d % (q - 1), modInv q p, byteLen (p * q)⟩
    cP := oddCtx p
    cQ := oddCtx q
    cN := oddCtx (p * q)
    pub := ⟨true, p * q, e, byteLen (p * q)⟩ }

/-- When `keyBuild` succeeds (45_private_key.md R180). -/
structure KeyParts (cfg : Config) (p q e : Nat) : Prop where
  phi_ne : (p - 1) * (q - 1) ≠ 0
  e_coprime : Nat.gcd e ((p - 1) * (q - 1)) = 1
  coprime : Nat.gcd q p = 1
  p_odd : p % 2 = 1
  q_odd : q % 2 = 1
  N_fits : p * q < 2 ^ cfg.maxKeyBits

/-- The check on `N` adds nothing: the product of the two odd moduli is odd. -/
theorem keyBuild_eq_ok {cfg : Config} {p q e : Nat} {b : KeyBundle} :
    keyBuild cfg p q e = .ok b ↔ KeyParts cfg p q e ∧ builtKey p q e = b := by
  simp only [keyBuild, bind_eq_ok, check_eq_ok, needInverse_eq_ok, inv?_eq_some_modInv, buildCtx_eq_ok,
    Bool.and_eq_true, bne_iff_ne, decide_eq_true_eq, bitLength_le_iff, pure, Except.pure, Except.ok.injEq]
  constructor
  · rintro ⟨-, -, -, hphi, d, ⟨he, rfl⟩, y, ⟨hqp, rfl⟩, cP, ⟨hp, rfl⟩, cQ, ⟨hq, rfl⟩, cN, ⟨-, rfl⟩, -, hN, rfl⟩
    exact ⟨⟨hphi, he, hqp, hp, hq, hN⟩, rfl⟩
  · rintro ⟨⟨hphi, he, hqp, hp, hq, hN⟩, rfl⟩
    exact ⟨(), ⟨by omega, by omega⟩, (), hphi, _, ⟨he, rfl⟩, _, ⟨hqp, rfl⟩, _, ⟨hp, rfl⟩, _, ⟨hq, rfl⟩, _,
      ⟨Nat.odd_mul_odd hp hq, rfl⟩, (), hN, rfl⟩

theorem KeyParts.p_ge {cfg : Config} {p q e : Nat} (h : KeyParts cfg p q e) : 3 ≤ p := by
  have := Nat.ne_zero_of_mul_ne_zero_left h.phi_ne
  have := h.p_odd
  omega

theorem KeyParts.q_ge {cfg : Config} {p q e : Nat} (h : KeyParts cfg p q e) : 3 ≤ q := by
  have := Nat.ne_zero_of_mul_ne_zero_right h.phi_ne
  have := h.q_odd
  omega

/-- A built PRIV is good (45_private_key.md R182). -/
theorem KeyParts.privGood {cfg : Config} {p q e : Nat} (h : KeyParts cfg p q e) (he : e < 2 ^ cfg.xlen) :
    PrivGood cfg (builtKey p q e).priv where
  p_odd := h.p_odd
  q_odd := h.q_odd
  p_ge := h.p_ge
  q_ge := h.q_ge
  coprime := h.coprime
  e_fits := he
  N_eq := rfl
  N_fits := h.N_fits
  d_lt := modInv_lt e (Nat.pos_of_ne_zero h.phi_ne)
  d_eq := by
    have := mul_modInv (Nat.pos_of_ne_zero h.phi_ne) (by rw [gcd_mod_self]; exact h.e_coprime)
    rwa [Nat.mul_comm] at this
  dp_eq := rfl
  dq_eq := rfl
  qInv_lt := modInv_lt q (by have := h.p_ge; omega : 0 < p)
  qInv_eq := mul_modInv (by have := h.p_ge; omega : 0 < p) (by rw [gcd_mod_self]; exact h.coprime)
  k_eq := rfl

/-! ### The effect of a successful command -/

/-- What the pseudocode of the command `i` can do to the block when it succeeds, DONE, ERR, ERRCODE and the phase
apart. The invariant is a hypothesis of the one bound that needs it. -/
inductive CommandEffect (i : Instr) (s : State) : State → Prop where
  | register (rd : XReg) (v : Nat) (hv : s.Inv → v < 2 ^ s.cfg.xlen) : CommandEffect i s (s.setX rd v)
  | verdict (v : Nat) : CommandEffect i s (s.setResult v)
  | memory (a v : Nat) (bs : List Byte) (h : a + bs.length ≤ s.cfg.dmemBytes) :
      CommandEffect i s ((s.memWrite a bs).setResult v)
  | userCtx (r : XReg) (v : Nat) (hl : loadsUserCtx i = true) (hM : s.getX r % 2 = 1) :
      CommandEffect i s ((s.setCtxU (oddCtx (s.getX r))).setResult v)
  | publicKey (rN rE : XReg) (v : Nat) (hl : loadsPub i = true) (hN : s.getX rN % 2 = 1) :
      CommandEffect i s
        ((s.setPub ⟨true, s.getX rN, s.getX rE, byteLen (s.getX rN)⟩ (oddCtx (s.getX rN))).setResult v)
  | keyPair (p q e : Nat) (hl : loadsPriv i = true) (hl' : loadsPub i = true)
      (hk : KeyParts s.cfg p q e) (he : s.Inv → e < 2 ^ s.cfg.xlen) :
      CommandEffect i s (s.loadKey (builtKey p q e))

/-- A successful pseudocode has one of these effects. -/
theorem pseudo_effect {i : Instr} {s t : State} (h : pseudo i s = .ok t) : CommandEffect i s t := by
  cases i
  case mctx rs1 =>
    obtain ⟨c, hc, rfl⟩ := mctx_eq_ok.1 h
    obtain ⟨hM, rfl⟩ := buildCtx_eq_ok.1 hc
    exact .userCtx rs1 _ rfl hM
  case tomont =>
    obtain ⟨hv, rfl⟩ := tomont_eq_ok.1 h
    exact .register _ _ fun hi => (hi.ctxGood hv).toMont_lt _
  case frommont =>
    obtain ⟨hv, rfl⟩ := frommont_eq_ok.1 h
    exact .register _ _ fun hi => (fromMont_lt (hi.ctxGood hv).toCtxLaws _).trans (hi.ctxGood hv).fits
  case montmul =>
    obtain ⟨hv, rfl⟩ := montmul_eq_ok.1 h
    exact .register _ _ fun hi => (hi.ctxGood hv).montMul_lt _ _
  case ctxrd =>
    obtain ⟨-, hv, v, hf, rfl⟩ := ctxrd_eq_ok.1 h
    exact .register _ _ fun hi => (hi.ctxGood hv).ctxField_lt hf
  case modpow =>
    obtain ⟨hv, rfl⟩ := modpow_eq_ok.1 h
    exact .register _ _ fun hi => (modPow_lt (hi.ctxGood hv).toCtxLaws _ _).trans (hi.ctxGood hv).fits
  case loadkey rs1 rs2 rs3 =>
    obtain ⟨b, hb, rfl⟩ := loadkey_eq_ok.1 h
    obtain ⟨hk, rfl⟩ := keyBuild_eq_ok.1 hb
    exact .keyPair _ _ _ rfl rfl hk fun hi => hi.x rs3
  case loadkeyd =>
    obtain ⟨b, hb, rfl⟩ := loadkeyd_eq_ok.1 h
    obtain ⟨hk, rfl⟩ := keyBuild_eq_ok.1 hb
    refine .keyPair _ _ _ rfl rfl hk fun hi => ?_
    obtain ⟨-, -, -, -, he, -⟩ := hi.cfg
    exact he
  case loadpub rs1 rs2 =>
    obtain ⟨c, hc, rfl⟩ := loadpub_eq_ok.1 h
    obtain ⟨hN, rfl⟩ := buildCtx_eq_ok.1 hc
    exact .publicKey rs1 rs2 _ rfl hN
  case keyrd =>
    obtain ⟨-, hpriv, hpub, v, hf, rfl⟩ := keyrd_eq_ok.1 h
    exact .register _ _ fun hi => hi.keyField_lt hpriv hpub hf
  case decrypt =>
    obtain ⟨hv, rfl⟩ := decrypt_eq_ok.1 h
    exact .register _ _ fun hi => hi.decryptVal_lt hv _
  case encrypt =>
    obtain ⟨hv, rfl⟩ := encrypt_eq_ok.1 h
    exact .register _ _ fun hi => hi.encryptVal_lt hv _
  case crtcomb =>
    obtain ⟨-, hlt, rfl⟩ := crtcomb_eq_ok.1 h
    exact .register _ _ fun _ => hlt
  case b2i =>
    obtain ⟨-, v, -, hlt, rfl⟩ := b2i_eq_ok.1 h
    exact .register _ _ fun _ => hlt
  case i2b =>
    obtain ⟨hr, bs, hb, rfl⟩ := i2b_eq_ok.1 h
    exact .memory _ _ _ (by rwa [length_of_toBytes hb])
  case strip =>
    obtain ⟨-, hr, bs, hb, rfl⟩ := strip_eq_ok.1 h
    exact .memory _ _ _ (by rwa [length_of_stripPadding hb])
  case hash =>
    obtain ⟨-, -, hr, rfl⟩ := hash_eq_ok.1 h
    exact .memory _ _ _ (by rwa [length_digest])
  case decbytes =>
    obtain ⟨-, -, hr, c, -, bs, hb, rfl⟩ := decbytes_eq_ok.1 h
    exact .memory _ _ _ (by rwa [length_of_toBytes hb])
  case encbytes =>
    obtain ⟨-, -, hr, bs, hb, rfl⟩ := encbytes_eq_ok.1 h
    exact .memory _ _ _ (by rwa [length_of_encryptBytes hb])
  case sign =>
    obtain ⟨-, -, -, hr, bs, hb, rfl⟩ := sign_eq_ok.1 h
    exact .memory _ _ _ (by rwa [length_of_toBytes hb])
  case verify =>
    obtain ⟨-, -, -, r, -, rfl⟩ := verify_eq_ok.1 h
    exact .verdict r
  case verifymsg =>
    obtain ⟨-, -, -, -, r, -, rfl⟩ := verifymsg_eq_ok.1 h
    exact .verdict r

/-! ### Code 4 is never raised -/

/-- A part of a pseudocode that never raises the reserved code 4 (60_exceptions.md R212). -/
def NoCode4 {α : Type} (r : Except Err α) : Prop := r ≠ .error .malformedKeyRecord

theorem NoCode4.bind {α β : Type} {x : Except Err α} {f : α → Except Err β} (hx : NoCode4 x)
    (hf : ∀ a, NoCode4 (f a)) : NoCode4 (x >>= f) := by
  intro h
  rcases bind_eq_error.1 h with hx' | ⟨a, -, hf'⟩
  · exact hx hx'
  · exact hf a hf'

theorem noCode4_ok {α : Type} (a : α) : NoCode4 (.ok a) := nofun

theorem noCode4_check (p : Bool) {e : Err} (he : .malformedKeyRecord ≠ e) : NoCode4 (check p e) :=
  fun h => he (check_eq_error.1 h).2

theorem noCode4_needRegion (s : State) (a n : Nat) : NoCode4 (s.needRegion a n) := noCode4_check _ nofun

theorem noCode4_needPub (s : State) : NoCode4 s.needPub := noCode4_check _ nofun

theorem noCode4_needPriv (s : State) : NoCode4 s.needPriv := noCode4_check _ nofun

theorem noCode4_needDigest (s : State) : NoCode4 s.needDigest := noCode4_check _ nofun

theorem noCode4_getCtx (s : State) (c : CtxSlot) : NoCode4 (s.getCtx c) :=
  fun h => nomatch (getCtx_eq_error.1 h).2

theorem noCode4_needInverse (x m : Nat) : NoCode4 (needInverse x m) :=
  fun h => nomatch (needInverse_eq_error.1 h).2

theorem noCode4_buildCtx (M : Nat) : NoCode4 (buildCtx M) := fun h => nomatch (buildCtx_eq_error.1 h).2

theorem noCode4_toInteger (b : List Byte) (bound : Option Nat) : NoCode4 (toInteger b bound) := by
  cases bound with
  | none => exact noCode4_ok _
  | some n => exact fun h => nomatch (toInteger_some_eq_error.1 h).2

theorem noCode4_toBytes (v L : Nat) : NoCode4 (toBytes v L) := by
  by_cases h : v < 256 ^ L
  · rw [toBytes_of_lt h]; exact nofun
  · rw [toBytes_of_le (Nat.le_of_not_lt h)]; exact nofun

theorem noCode4_stripPadding (b : List Byte) (n : Nat) : NoCode4 (stripPadding b n) := by
  unfold stripPadding
  split <;> exact nofun

theorem noCode4_ctxField (c : Ctx) (sel : BitVec 4) : NoCode4 (ctxField c sel) := by
  unfold ctxField
  split <;> exact nofun

theorem noCode4_keyField (s : State) (sel : BitVec 4) : NoCode4 (s.keyField sel) := by
  unfold State.keyField
  split <;> exact nofun

theorem noCode4_keyBuild (cfg : Config) (p q e : Nat) : NoCode4 (keyBuild cfg p q e) :=
  .bind (noCode4_check _ nofun) fun _ => .bind (noCode4_check _ nofun) fun _ =>
  .bind (noCode4_needInverse _ _) fun _ => .bind (noCode4_needInverse _ _) fun _ =>
  .bind (noCode4_buildCtx _) fun _ => .bind (noCode4_buildCtx _) fun _ => .bind (noCode4_buildCtx _) fun _ =>
  .bind (noCode4_check _ nofun) fun _ => noCode4_ok _

theorem noCode4_encryptBytes (s : State) (b : List Byte) : NoCode4 (s.encryptBytes b) :=
  .bind (noCode4_toInteger _ _) fun _ => noCode4_toBytes _ _

theorem noCode4_verifyVal (s : State) (sig dig : List Byte) : NoCode4 (s.verifyVal sig dig) :=
  .bind (noCode4_toInteger _ _) fun _ => .bind (noCode4_toBytes _ _) fun _ =>
  .bind (noCode4_stripPadding _ _) fun _ => noCode4_ok _

/-- No command raises code 4. -/
theorem noCode4_pseudo (s : State) : (i : Instr) → NoCode4 (pseudo i s)
  | .mctx _ => .bind (noCode4_buildCtx _) fun _ => noCode4_ok _
  | .tomont _ _ _ | .frommont _ _ _ | .montmul _ _ _ _ | .modpow _ _ _ _ =>
    .bind (noCode4_getCtx _ _) fun _ => noCode4_ok _
  | .ctxrd _ _ _ => .bind (noCode4_check _ nofun) fun _ => .bind (noCode4_getCtx _ _) fun _ =>
    .bind (noCode4_ctxField _ _) fun _ => noCode4_ok _
  | .loadkey _ _ _ | .loadkeyd _ _ => .bind (noCode4_keyBuild _ _ _ _) fun _ => noCode4_ok _
  | .loadpub _ _ => .bind (noCode4_buildCtx _) fun _ => noCode4_ok _
  | .keyrd _ _ => .bind (noCode4_check _ nofun) fun _ => .bind (noCode4_check _ nofun) fun _ =>
    .bind (noCode4_check _ nofun) fun _ => .bind (noCode4_keyField _ _) fun _ => noCode4_ok _
  | .decrypt _ _ => .bind (noCode4_needPriv _) fun _ => noCode4_ok _
  | .encrypt _ _ => .bind (noCode4_needPub _) fun _ => noCode4_ok _
  | .crtcomb _ _ _ => .bind (noCode4_needPriv _) fun _ => .bind (noCode4_check _ nofun) fun _ => noCode4_ok _
  | .b2i _ _ => .bind (noCode4_needRegion _ _ _) fun _ => .bind (noCode4_toInteger _ _) fun _ =>
    .bind (noCode4_check _ nofun) fun _ => noCode4_ok _
  | .i2b _ => .bind (noCode4_needRegion _ _ _) fun _ => .bind (noCode4_toBytes _ _) fun _ => noCode4_ok _
  | .strip => .bind (noCode4_needRegion _ _ _) fun _ => .bind (noCode4_needRegion _ _ _) fun _ =>
    .bind (noCode4_stripPadding _ _) fun _ => noCode4_ok _
  | .hash => .bind (noCode4_needDigest _) fun _ => .bind (noCode4_needRegion _ _ _) fun _ =>
    .bind (noCode4_needRegion _ _ _) fun _ => noCode4_ok _
  | .decbytes => .bind (noCode4_needPriv _) fun _ => .bind (noCode4_needRegion _ _ _) fun _ =>
    .bind (noCode4_needRegion _ _ _) fun _ => .bind (noCode4_toInteger _ _) fun _ =>
    .bind (noCode4_toBytes _ _) fun _ => noCode4_ok _
  | .encbytes => .bind (noCode4_needPub _) fun _ => .bind (noCode4_needRegion _ _ _) fun _ =>
    .bind (noCode4_needRegion _ _ _) fun _ => .bind (noCode4_encryptBytes _ _) fun _ => noCode4_ok _
  | .sign => .bind (noCode4_needDigest _) fun _ => .bind (noCode4_needPriv _) fun _ =>
    .bind (noCode4_needRegion _ _ _) fun _ => .bind (noCode4_needRegion _ _ _) fun _ =>
    .bind (noCode4_toBytes _ _) fun _ => noCode4_ok _
  | .verify => .bind (noCode4_needPub _) fun _ => .bind (noCode4_needRegion _ _ _) fun _ =>
    .bind (noCode4_needRegion _ _ _) fun _ => .bind (noCode4_verifyVal _ _ _) fun _ => noCode4_ok _
  | .verifymsg => .bind (noCode4_needDigest _) fun _ => .bind (noCode4_needPub _) fun _ =>
    .bind (noCode4_needRegion _ _ _) fun _ => .bind (noCode4_needRegion _ _ _) fun _ =>
    .bind (noCode4_verifyVal _ _ _) fun _ => noCode4_ok _

end Sys2Proof.Machine
end

section
/-!
O58: the invariant through every update a step makes, and through the step.
-/

namespace Sys2Proof.Machine

open Sys2Proof

/-! ### Loads of slots -/

theorem State.Inv.setCtxU {s : State} (hi : s.Inv) {c : Ctx} (hc : CtxGood s.cfg.xlen c) : (s.setCtxU c).Inv :=
  { hi with slotU := fun _ => hc }

/-- PUB and ctx[N] are loaded together, over one modulus (44_public_key.md R160). -/
theorem State.Inv.setPub {s : State} (hi : s.Inv) {k : Pub} {c : Ctx} (hc : CtxGood s.cfg.xlen c)
    (hk : PubGood s.cfg k) (hv : c.valid = k.valid) (hM : c.M = k.N) : (s.setPub k c).Inv :=
  { hi with slotN := fun _ => hc, validN := hv, pub := fun _ => ⟨hk, hM⟩ }

/-- PRIV, ctx[P] and ctx[Q] are loaded together, over the two primes (45_private_key.md R181). -/
theorem State.Inv.setPriv {s : State} (hi : s.Inv) {k : Priv} {cP cQ : Ctx} (hP : CtxGood s.cfg.xlen cP)
    (hQ : CtxGood s.cfg.xlen cQ) (hk : PrivGood s.cfg k) (hvP : cP.valid = k.valid)
    (hvQ : cQ.valid = k.valid) (hMP : cP.M = k.p) (hMQ : cQ.M = k.q) : (s.setPriv k cP cQ).Inv :=
  { hi with
    slotP := fun _ => hP, slotQ := fun _ => hQ, validP := hvP, validQ := hvQ
    priv := fun _ => ⟨hk, hMP, hMQ⟩ }

/-- A context over an odd modulus that fits a register is good: XLEN is a multiple of 32 (00_scope.md R7). -/
theorem State.Inv.oddCtx_good {s : State} (hi : s.Inv) {M : Nat} (hodd : M % 2 = 1) (hM : M < 2 ^ s.cfg.xlen) :
    CtxGood s.cfg.xlen (oddCtx M) := by
  obtain ⟨⟨hx, -⟩, -⟩ := hi.cfg
  have hx8 : s.cfg.maxKeyBits % 8 = 0 := by omega
  exact Machine.oddCtx_good hodd hx8 hM

theorem State.Inv.loadKey {s : State} (hi : s.Inv) {p q e : Nat} (hk : KeyParts s.cfg p q e)
    (he : e < 2 ^ s.cfg.xlen) : (s.loadKey (builtKey p q e)).Inv := by
  have hpriv := hk.privGood he
  obtain ⟨hp, hq, -⟩ := hpriv.fields_lt
  have hN := Nat.odd_mul_odd hk.p_odd hk.q_odd
  have h1 := hi.setPriv (hi.oddCtx_good hk.p_odd hp) (hi.oddCtx_good hk.q_odd hq) hpriv rfl rfl rfl rfl
  have hpub : PubGood s.cfg (builtKey p q e).pub := ⟨hN, hk.N_fits, he, rfl⟩
  exact (h1.setPub (hi.oddCtx_good hN hk.N_fits) hpub rfl rfl).setResult _

/-- Every effect of a successful command keeps the invariant. -/
theorem State.Inv.commandEffect {i : Instr} {s t : State} (hi : s.Inv) (h : CommandEffect i s t) : t.Inv := by
  cases h with
  | register rd v hv => exact hi.setX rd (hv hi)
  | verdict v => exact hi.setResult v
  | memory a v bs h => exact (hi.memWrite h).setResult v
  | userCtx r v hl hM => exact (hi.setCtxU (hi.oddCtx_good hM (hi.x r))).setResult v
  | publicKey rN rE v hl hN =>
    exact (hi.setPub (hi.oddCtx_good hN (hi.x rN)) ⟨hN, hi.x rN, hi.x rE, rfl⟩ rfl rfl).setResult v
  | keyPair p q e hl hl' hk he => exact hi.loadKey hk (he hi)

/-! ### The engine -/

theorem State.Inv.engineTurn {s t : State} (hi : s.Inv) (h : engineTurn s = .next t) : t.Inv := by
  rcases engineTurn_cases s with ⟨-, he⟩ | ⟨-, i, u, -, hu, he⟩ | ⟨-, e, he, hcause⟩
  · cases he.symm.trans h; exact hi
  · cases he.symm.trans h; exact (hi.commandEffect (pseudo_effect hu)).succeed
  · cases he.symm.trans h
    refine hi.fail ?_
    rintro rfl
    rcases hcause with ⟨i, -, hr⟩ | ⟨-, hr⟩
    · exact noCode4_pseudo s i hr
    · cases hr

/-! ### Host accesses and resets -/

/-- The invariant holds after a power-on of a legal configuration (70_reset_and_hazards.md R240). -/
theorem State.powerOn_inv {cfg : Config} {m : Mem} (hc : cfg.wf) (hw : m.wf) (hb : m.below cfg.dmemBytes) :
    (State.powerOn cfg m).Inv where
  cfg := hc
  x i := by simp [State.powerOn, State.getX]
  memWf := hw
  memBelow := hb
  slotU := nofun
  slotP := nofun
  slotQ := nofun
  slotN := nofun
  validP := rfl
  validQ := rfl
  validN := rfl
  priv := nofun
  pub := nofun
  busy := nofun
  errHasCode := nofun
  noCode4 := nofun

theorem State.Inv.softReset {s : State} (hi : s.Inv) : s.softReset.Inv :=
  (powerOn_inv hi.cfg hi.memWf hi.memBelow).modelFields _ _ _

theorem State.Inv.powerOnReset {s : State} (hi : s.Inv) (contents : List Host.Cell) : (s.powerOnReset contents).Inv :=
  (powerOn_inv hi.cfg (Mem.wf_ofCells _ _) (Mem.below_ofCells _ _)).modelFields _ _ _

/-- Clearing DONE and ERR breaks no part: an ERR that stays keeps its code. -/
theorem State.Inv.acknowledge {s : State} (hi : s.Inv) (v : Word) : (s.acknowledge v).Inv :=
  { hi with
    busy := fun hb => by
      obtain ⟨hd, he, hc⟩ := hi.busy hb
      exact ⟨by simp [State.acknowledge, hd], by simp [State.acknowledge, he], hc⟩
    errHasCode := fun he => hi.errHasCode (Bool.and_eq_true_iff.1 he).1 }

theorem State.Inv.setArg {s : State} (hi : s.Inv) (i : Fin 4) (v : Word) : (s.setArg i v).Inv := by
  unfold State.setArg
  split <;> exact { hi with }

/-- A write to an X word keeps the register below 2^XLEN; one above XLEN changes nothing (20_memory.md R55). -/
theorem State.Inv.setXWord_lt {s : State} (hi : s.Inv) (i : XReg) (j : Nat) (v : Word) :
    setXWord s.cfg (s.getX i) j v < 2 ^ s.cfg.xlen := by
  by_cases hj : j < s.cfg.xlen / 32
  · obtain ⟨⟨hx, -⟩, -⟩ := hi.cfg
    exact Machine.setXWord_lt v hx hj (hi.x i)
  · simpa [setXWord, hj] using hi.x i

/-- A DMEM window word lies whole in the array: DMEM_BYTES is a multiple of 4 (00_scope.md R7). -/
theorem State.Inv.dmemWord_fits {s : State} (hi : s.Inv) {off a : Nat} (h4 : off % 4 = 0)
    (ha : winReg s.cfg off = .dmem a) : a + 4 ≤ s.cfg.dmemBytes := by
  obtain ⟨-, ⟨hd, -⟩, -⟩ := hi.cfg
  obtain ⟨hlt, rfl⟩ := winReg_dmem ha
  omega

theorem State.Inv.hostWrite {s : State} (hi : s.Inv) {off : Nat} (h4 : off % 4 = 0) (v : Word) :
    (s.hostWrite off v).Inv := by
  generalize ht : s.hostWrite off v = t
  have he : HostWriteEffect s off v t := ht ▸ s.hostWrite_effect off v
  cases he with
  | ignored => exact hi
  | reset => exact hi.softReset
  | enable => exact { hi with }
  | acknowledge => exact hi.acknowledge v
  | dropped _ => exact { hi with }
  | issue _ => exact hi.issue v
  | arg _ i => exact hi.setArg i v
  | xword _ i j => exact hi.setX i (hi.setXWord_lt i j v)
  | dmem _ a ha => exact hi.memWrite (hi.dmemWord_fits h4 ha)

theorem State.Inv.act {e : Event} {s t : State} (hi : s.Inv) (h : act e s = .next t) : t.Inv := by
  cases e with
  | write w a v =>
    obtain ⟨off, hoff, rfl⟩ := busWrite_eq_next h
    obtain ⟨-, -, -, h4, rfl⟩ := busOffset_eq_ok.1 hoff
    exact hi.hostWrite h4 v
  | read w a =>
    obtain ⟨off, -, rfl⟩ := busRead_eq_next h
    obtain ⟨v, n, hr⟩ := s.hostRead_eq off
    exact hr ▸ hi.modelFields s.sched (v :: s.reads) n
  | engine => exact hi.engineTurn h
  | powerOn contents => cases h; exact hi.powerOnReset contents

/-- Settles O58, by the cases of a step: the engine's turn by the six effects of a command and the errors it raises,
a host write by its effects, and the two resets. -/
theorem everyStepKeepsTheInvariant : Obligations.EveryStepKeepsTheInvariant := by
  unfold Obligations.EveryStepKeepsTheInvariant
  intro s t hi h
  rcases step_cases h with ⟨-, he⟩ | ⟨e, rest, -, ha⟩
  · exact hi.engineTurn he
  · exact (hi.modelFields rest s.reads s.draws).act ha

end Sys2Proof.Machine
end

section
/-!
O59: which slots a step leaves as they are.
-/

namespace Sys2Proof.Machine

open Sys2Proof

/-- The configuration and the context and key slots, grouped by the commands that load them. -/
def State.slots (s : State) : (Config × Ctx) × (Priv × Ctx × Ctx) × (Pub × Ctx) :=
  ((s.cfg, s.ctxU), (s.priv, s.ctxP, s.ctxQ), (s.pub, s.ctxN))

/-- The configuration is as it was, and so is every slot that no command of `loads` loads (10_state.md R26, R29,
R30). -/
structure State.SlotsKept (loads : Instr → Prop) (s t : State) : Prop where
  cfg : t.cfg = s.cfg
  ctxU : t.ctxU = s.ctxU ∨ ∃ i, loads i ∧ loadsUserCtx i = true
  priv : (t.priv = s.priv ∧ t.ctxP = s.ctxP ∧ t.ctxQ = s.ctxQ) ∨ ∃ i, loads i ∧ loadsPriv i = true
  pub : (t.pub = s.pub ∧ t.ctxN = s.ctxN) ∨ ∃ i, loads i ∧ loadsPub i = true

/-- Equal slots are kept, whatever may load them. -/
theorem State.SlotsKept.of_eq {loads : Instr → Prop} {s t : State} (h : t.slots = s.slots) :
    State.SlotsKept loads s t := by
  simp only [State.slots, Prod.mk.injEq] at h
  obtain ⟨⟨hc, hU⟩, hpriv, hpub⟩ := h
  exact ⟨hc, .inl hU, .inl hpriv, .inl hpub⟩

/-- A successful command changes only the slots it loads. -/
theorem CommandEffect.slotsKept {loads : Instr → Prop} {i : Instr} {s t : State} (h : CommandEffect i s t)
    (hi : loads i) : State.SlotsKept loads s t.succeed := by
  cases h with
  | register | verdict | memory => exact .of_eq rfl
  | userCtx r v hl => exact ⟨rfl, .inr ⟨i, hi, hl⟩, .inl ⟨rfl, rfl, rfl⟩, .inl ⟨rfl, rfl⟩⟩
  | publicKey rN rE v hl => exact ⟨rfl, .inl rfl, .inl ⟨rfl, rfl, rfl⟩, .inr ⟨i, hi, hl⟩⟩
  | keyPair p q e hl hl' => exact ⟨rfl, .inl rfl, .inr ⟨i, hi, hl⟩, .inr ⟨i, hi, hl'⟩⟩

/-- The engine's turn changes only the slots that the pending command loads. -/
theorem engineTurn_slotsKept {loads : Instr → Prop} {s t : State}
    (hl : ∀ i, s.phase = .busy → decode s.pend = .ok i → loads i) (h : engineTurn s = .next t) :
    State.SlotsKept loads s t := by
  rcases engineTurn_cases s with ⟨-, he⟩ | ⟨hb, i, u, hd, hu, he⟩ | ⟨-, e, he, -⟩
  all_goals cases he.symm.trans h
  · exact .of_eq rfl
  · exact (pseudo_effect hu).slotsKept (hl i hb hd)
  · exact .of_eq rfl

theorem State.hostRead_slots (s : State) (off : Nat) : (s.hostRead off).slots = s.slots := by
  obtain ⟨v, n, hr⟩ := s.hostRead_eq off
  rw [hr]
  rfl

theorem State.setArg_slots (s : State) (i : Fin 4) (v : Word) : (s.setArg i v).slots = s.slots := by
  unfold State.setArg
  split <;> rfl

theorem State.unlessBusy_slots {s t : State} (h : t.slots = s.slots) : (s.unlessBusy t).slots = s.slots := by
  cases hp : s.phase with
  | busy => rw [State.unlessBusy_busy hp]; rfl
  | idle => rw [State.unlessBusy_idle hp, h]

/-- No host write but the soft reset touches a slot: no window offset names one (20_memory.md R51). -/
theorem State.hostWrite_slots {s : State} {off : Nat} {v : Word} (h : ¬ (off = 0x10 ∧ v.getLsbD 0 = true)) :
    (s.hostWrite off v).slots = s.slots := by
  unfold State.hostWrite
  cases hr : winReg s.cfg off with
  | ctrl =>
    have h0 : ¬ v.getLsbD 0 = true := fun h0 => h ⟨winReg_eq_ctrl hr, h0⟩
    simp only [h0]
    rfl
  | cmd => exact State.unlessBusy_slots rfl
  | arg i => exact State.unlessBusy_slots (s.setArg_slots i v)
  | xword i j => exact State.unlessBusy_slots rfl
  | dmem a => exact State.unlessBusy_slots rfl
  | id | cfg | dmemsz | status | errcode | result | reserved => rfl

theorem State.hostWrite_cfg (s : State) (off : Nat) (v : Word) : (s.hostWrite off v).cfg = s.cfg := by
  generalize ht : s.hostWrite off v = t
  have he : HostWriteEffect s off v t := ht ▸ s.hostWrite_effect off v
  cases he with
  | arg _ i => exact congrArg (fun l => l.1.1) (s.setArg_slots i v)
  | ignored | reset | enable | acknowledge | dropped | issue | xword | dmem => rfl

/-- A step is a reset, or keeps every slot that it does not complete the load of. -/
theorem step_slotsKept {s t : State} (h : step s = .next t) :
    (t.cfg = s.cfg ∧ s.nextResets) ∨ State.SlotsKept s.completes s t := by
  rcases step_cases h with ⟨hs, he⟩ | ⟨e, rest, hs, ha⟩
  · exact .inr (engineTurn_slotsKept (fun i hb hd => ⟨.inl hs, hb, hd⟩) he)
  cases e with
  | write w a v =>
    obtain ⟨off, hoff, rfl⟩ := busWrite_eq_next ha
    obtain ⟨rfl, hbase, -, -, rfl⟩ := busOffset_eq_ok.1 hoff
    by_cases hr : a - s.cfg.base = 0x10 ∧ v.getLsbD 0 = true
    · obtain ⟨h10, h0⟩ := hr
      have ha : a = s.cfg.base + 0x10 := by
        have : s.cfg.base ≤ a := hbase
        omega
      exact .inl ⟨State.hostWrite_cfg _ _ _, _, rest, hs, rfl, ha, h0⟩
    · exact .inr (.of_eq (State.hostWrite_slots hr))
  | read w a =>
    obtain ⟨off, -, rfl⟩ := busRead_eq_next ha
    exact .inr (.of_eq (State.hostRead_slots _ _))
  | engine =>
    have hk : State.SlotsKept s.completes { s with sched := rest } t :=
      engineTurn_slotsKept (fun i hb hd => ⟨.inr ⟨rest, hs⟩, hb, hd⟩) ha
    exact .inr ⟨hk.cfg, hk.ctxU, hk.priv, hk.pub⟩
  | powerOn contents =>
    cases ha
    exact .inl ⟨rfl, _, rest, hs, trivial⟩

/-- Settles O59: a host access or an idle turn moves no slot, a completed command only those it loads, and the two
events left are the resets. -/
theorem keysAndContextsChangeOnlyByLoads : Obligations.KeysAndContextsChangeOnlyByLoads := by
  unfold Obligations.KeysAndContextsChangeOnlyByLoads
  intro s t h
  rcases step_slotsKept h with ⟨hc, hr⟩ | ⟨hc, hU, hpriv, hpub⟩
  · exact ⟨hc, .inl hr⟩
  · exact ⟨hc, .inr ⟨hU, hpriv, hpub⟩⟩

end Sys2Proof.Machine
end

section
/-!
O60: the commands over PRIV read nothing of PUB and ctx[N], those over PUB nothing of PRIV, ctx[P] and ctx[Q].
Each such command commutes with a load of the other side.
-/

namespace Sys2Proof.Machine

open Sys2Proof

/-- The commands over PRIV that never see PUB (10_state.md R31, 45_private_key.md R189). -/
inductive PrivSide : Instr → Prop where
  | decrypt (rd rs1 : XReg) : PrivSide (.decrypt rd rs1)
  | crtcomb (rd rs1 rs2 : XReg) : PrivSide (.crtcomb rd rs1 rs2)
  | decbytes : PrivSide .decbytes
  | sign : PrivSide .sign

/-- The commands over PUB that never see PRIV (10_state.md R31). -/
inductive PubSide : Instr → Prop where
  | encrypt (rd rs1 : XReg) : PubSide (.encrypt rd rs1)
  | encbytes : PubSide .encbytes
  | verify : PubSide .verify
  | verifymsg : PubSide .verifymsg

/-- With another PUB each part of the pseudocode answers the same, and the load stays in place behind it. -/
theorem PrivSide.pseudo_setPub {i : Instr} (hi : PrivSide i) (s : State) (k : Pub) (c : Ctx) :
    pseudo i (s.setPub k c) = (fun t => t.setPub k c) <$> pseudo i s := by
  cases hi with
  | decrypt rd rs1 => simp only [pseudo, Machine.decrypt, map_bind, map_pure]; rfl
  | crtcomb rd rs1 rs2 => simp only [pseudo, Machine.crtcomb, map_bind, map_pure]; rfl
  | decbytes => simp only [pseudo, Machine.decbytes, map_bind, map_pure]; rfl
  | sign => simp only [pseudo, Machine.sign, map_bind, map_pure]; rfl

/-- With another PRIV each part of the pseudocode answers the same, and the load stays in place behind it. -/
theorem PubSide.pseudo_setPriv {i : Instr} (hi : PubSide i) (s : State) (k : Priv) (cP cQ : Ctx) :
    pseudo i (s.setPriv k cP cQ) = (fun t => t.setPriv k cP cQ) <$> pseudo i s := by
  cases hi with
  | encrypt rd rs1 => simp only [pseudo, Machine.encrypt, map_bind, map_pure]; rfl
  | encbytes => simp only [pseudo, Machine.encbytes, map_bind, map_pure]; rfl
  | verify => simp only [pseudo, Machine.verify, map_bind, map_pure]; rfl
  | verifymsg => simp only [pseudo, Machine.verifymsg, map_bind, map_pure]; rfl

/-- A command whose pseudocode commutes with a load completes with that load in place: neither branch of the completion
step touches a slot (60_exceptions.md R215). -/
theorem exec_of_pseudo_map {i : Instr} {s t : State} {g : State → State}
    (hp : pseudo i (g s) = g <$> pseudo i s) (hok : ∀ u, (g u).succeed = g u.succeed)
    (herr : ∀ e, (g s).fail e = g (s.fail e)) (h : exec i s = .next t) : exec i (g s) = .next (g t) := by
  rw [exec_eq_complete] at h ⊢
  rw [hp]
  rcases complete_cases h with ⟨u, hu, rfl⟩ | ⟨e, he, rfl⟩
  · rw [hu, ← hok u]; rfl
  · rw [he, ← herr e]; rfl

/-- Settles O60, by the commutation of each side's commands with a load of the other side. -/
theorem keySidesDoNotMix : Obligations.KeySidesDoNotMix := by
  unfold Obligations.KeySidesDoNotMix
  intro s s' t i h
  refine ⟨fun hs hi => ?_, fun hs hi => ?_⟩
  · have hside : PrivSide i := by
      rcases hi with ⟨rd, rs1, rfl⟩ | ⟨rd, rs1, rs2, rfl⟩ | rfl | rfl
      · exact .decrypt rd rs1
      · exact .crtcomb rd rs1 rs2
      · exact .decbytes
      · exact .sign
    have := exec_of_pseudo_map (g := fun t => t.setPub s'.pub s'.ctxN)
      (hside.pseudo_setPub s s'.pub s'.ctxN) (fun _ => rfl) (fun _ => rfl) h
    rwa [← (show s' = s.setPub s'.pub s'.ctxN from hs)] at this
  · have hside : PubSide i := by
      rcases hi with ⟨rd, rs1, rfl⟩ | rfl | rfl | rfl
      · exact .encrypt rd rs1
      · exact .encbytes
      · exact .verify
      · exact .verifymsg
    have := exec_of_pseudo_map (g := fun t => t.setPriv s'.priv s'.ctxP s'.ctxQ)
      (hside.pseudo_setPriv s s'.priv s'.ctxP s'.ctxQ) (fun _ => rfl) (fun _ => rfl) h
    rwa [← (show s' = s.setPriv s'.priv s'.ctxP s'.ctxQ from hs)] at this

end Sys2Proof.Machine
end

section
/-!
O48, O52, O54: the control registers of the window, one access a step.
-/

namespace Sys2Proof.Machine

open Sys2Proof

/-! ### Accesses to the named registers -/

/-- A read of a register that has its value while BUSY too answers that value (20_memory.md R68). -/
theorem step_onRead_fixed (s : State) {off : Nat} {r : WinReg} (h1 : off < 0x10000) (h2 : off % 4 = 0)
    (hr : winReg s.cfg off = r) (hf : r.freeWhileBusy = false) :
    step (s.onRead off) = .next (s.gaveHost (s.regValue r)) := by
  subst hr
  rw [step_onRead s h1 h2, State.hostRead_fixed off hf]

/-- A read while IDLE answers the register's value. -/
theorem step_onRead_idle {s : State} (hp : s.phase = .idle) {off : Nat} {r : WinReg} (h1 : off < 0x10000)
    (h2 : off % 4 = 0) (hr : winReg s.cfg off = r) :
    step (s.onRead off) = .next (s.gaveHost (s.regValue r)) := by
  subst hr
  rw [step_onRead s h1 h2, State.hostRead_idle hp]

/-- A write to an ARG register while IDLE sets it. -/
theorem step_onWrite_arg {s : State} (hp : s.phase = .idle) {off : Nat} {i : Fin 4} (h1 : off < 0x10000)
    (h2 : off % 4 = 0) (hr : winReg s.cfg off = .arg i) (v : Word) :
    step (s.onWrite off v) = .next (s.setArg i v) := by
  rw [step_onWrite s h1 h2, ← State.unlessBusy_idle hp (t := s.setArg i v)]
  unfold State.hostWrite
  rw [hr]

/-! ### The words they read as -/

theorem State.ctrlWord_eq (s : State) : s.ctrlWord = if s.ie then 2 else 0 := by
  unfold State.ctrlWord
  cases s.ie <;> rfl

theorem State.statusWord_idle {s : State} (hp : s.phase = .idle) :
    s.statusWord = BitVec.ofNat 32 (2 * s.done.toNat + 4 * s.err.toNat + 8 * s.ovr.toNat) := by
  have hb : s.busy = false := by simp [State.busy, hp]
  simp only [State.statusWord, hb, Bool.toNat_false, Nat.shiftLeft_eq]
  congr 1
  omega

/-- The fields of CFG (10_state.md R41), for a legal configuration: none overlaps the next. -/
theorem cfgWord_fields {c : Config} (h : c.wf) :
    (cfgWord c).toNat % 2 ^ 16 = c.maxKeyBits ∧ (cfgWord c).toNat / 2 ^ 16 % 2 ^ 8 = c.dlen ∧
      (cfgWord c).toNat / 2 ^ 24 % 2 = (if c.digestPresent then 1 else 0) ∧
      (cfgWord c).toNat / 2 ^ 25 % 2 ^ 3 = 7 ∧ (cfgWord c).toNat / 2 ^ 28 = 0 := by
  obtain ⟨⟨-, -, hk⟩, -, ⟨-, hd⟩, -⟩ := h
  have hp : c.digestPresent.toNat = if c.digestPresent then 1 else 0 := by cases c.digestPresent <;> rfl
  have hp1 : c.digestPresent.toNat ≤ 1 := Bool.toNat_le _
  rw [← hp]
  simp only [cfgWord, BitVec.toNat_ofNat, Nat.shiftLeft_eq]
  omega

/-- Settles O48: ID, CFG and DMEMSZ have their values while BUSY too, the fields of CFG do not overlap, and a write to
the three offsets is ignored. -/
theorem identityAndConfigurationReads : Obligations.IdentityAndConfigurationReads := by
  unfold Obligations.IdentityAndConfigurationReads
  intro s hi
  have read {off : Nat} (r : WinReg) (h : off < 0x10000 ∧ off % 4 = 0) (hr : winReg s.cfg off = r)
      (hf : r.freeWhileBusy = false) := step_onRead_fixed s h.1 h.2 hr hf
  have hcfg := read .cfg (off := 0x04) (by decide) rfl rfl
  have hsize := read .dmemsz (off := 0x08) (by decide) rfl rfl
  refine ⟨read .id (by decide) rfl rfl, hsize, ?_, ⟨_, hcfg, cfgWord_fields hi.cfg⟩, fun hc => ⟨?_, ?_⟩, fun v => ?_⟩
  · obtain ⟨-, ⟨-, -, hle⟩, -⟩ := hi.cfg
    rw [BitVec.toNat_ofNat, Nat.mod_eq_of_lt (by omega)]
  · rw [hcfg]
    simp only [State.regValue, hc]
    rfl
  · rw [hsize]
    simp only [State.regValue, hc]
    rfl
  · exact ⟨step_onWrite s (by decide) (by decide) v, step_onWrite s (by decide) (by decide) v,
      step_onWrite s (by decide) (by decide) v⟩

/-- Settles O52: each offset names its register, and an idle block reads and writes that register alone. -/
theorem statusAndArgumentRegisters : Obligations.StatusAndArgumentRegisters := by
  unfold Obligations.StatusAndArgumentRegisters
  intro s v _
  refine ⟨fun hp => ?_, step_onWrite s (by decide) (by decide) v⟩
  have read {off : Nat} (r : WinReg) (h : off < 0x10000 ∧ off % 4 = 0) (hr : winReg s.cfg off = r) :=
    step_onRead_idle hp h.1 h.2 hr
  have write {off : Nat} (i : Fin 4) (h : off < 0x10000 ∧ off % 4 = 0) (hr : winReg s.cfg off = .arg i) :=
    step_onWrite_arg hp h.1 h.2 hr v
  have hstatus := read .status (off := 0x18) (by decide) rfl
  have herr := read .errcode (off := 0x1C) (by decide) rfl
  refine ⟨read (.arg 0) (by decide) rfl, read (.arg 1) (by decide) rfl, read (.arg 2) (by decide) rfl,
    read (.arg 3) (by decide) rfl, read .result (by decide) rfl, read .cmd (by decide) rfl, ?_, ?_, ?_,
    write 0 (by decide) rfl, write 1 (by decide) rfl, write 2 (by decide) rfl, write 3 (by decide) rfl⟩
  · rw [hstatus]
    simp only [State.regValue, State.statusWord_idle hp]
  · intro hn
    rw [herr]
    simp only [State.regValue, State.errcodeWord, hn]
    rfl
  · intro e code hmem he
    have hcode : code = BitVec.ofNat 32 e.code := by
      cases e <;> simpa [Err.code] using hmem
    rw [herr, hcode]
    simp only [State.regValue, State.errcodeWord, he]

/-- Settles O54: the soft reset leaves an idle engine, whose turn changes nothing (70_reset_and_hazards.md R242). -/
theorem controlWritesAndAbandonedCommands : Obligations.ControlWritesAndAbandonedCommands := by
  unfold Obligations.ControlWritesAndAbandonedCommands
  intro s v _
  have hw : step (s.onWrite 0x10 v) = .next (if v.getLsbD 0 then s.softReset else { s with ie := v.getLsbD 1 }) :=
    step_onWrite s (by decide) (by decide) v
  refine ⟨fun h0 _ => ⟨s.softReset, ?_, rfl, rfl, rfl, rfl, rfl, rfl⟩, fun h0 => ?_, ?_⟩
  · rw [hw, if_pos h0]
  · rw [hw, h0]
    rfl
  · rw [← State.ctrlWord_eq]
    exact step_onRead_fixed s (by decide) (by decide) (r := .ctrl) rfl rfl

end Sys2Proof.Machine
end

section
/-!
O43, O44, O46, O47, O49, O50: the register window, access by access (spec/20_memory.md).
-/

namespace Sys2Proof.Machine

open Sys2Proof

/-! ### Accesses the block does not take -/

theorem busOffset_of_outside {cfg : Config} {w : Width} {a : Nat}
    (h : a < cfg.base ∨ cfg.base + 0x10000 ≤ a) : busOffset cfg w a = .error (.fault .outsideWindow) := by
  unfold busOffset
  rw [if_pos h]

theorem busOffset_of_unsupported {cfg : Config} {w : Width} {a : Nat} (hlo : cfg.base ≤ a)
    (hhi : a < cfg.base + 0x10000) (h : w ≠ .word ∨ (a - cfg.base) % 4 ≠ 0) :
    busOffset cfg w a = .error (.refused .unsupportedAccess) := by
  unfold busOffset
  rw [if_neg (by omega), if_pos h]

/-- An access without a window offset stops the model, a write and a read alike. -/
theorem step_of_busOffset_error {s : State} {w : Width} {a : Nat} {stop : Host.Outcome State Fault Refusal}
    (h : busOffset s.cfg w a = .error stop) (v : Word) (rest : List Event) :
    step { s with sched := .write w a v :: rest } = stop ∧ step { s with sched := .read w a :: rest } = stop := by
  constructor
  · show busWrite w a v { s with sched := rest } = stop
    unfold busWrite
    rw [h]
  · show busRead w a { s with sched := rest } = stop
    unfold busRead
    rw [h]

/-- Settles O43: such an access has no window offset. -/
theorem accessesTheBlockDoesNotTake : Obligations.AccessesTheBlockDoesNotTake := by
  unfold Obligations.AccessesTheBlockDoesNotTake
  intro s w a v rest
  exact ⟨fun hlo hhi h => step_of_busOffset_error (busOffset_of_unsupported hlo hhi h) v rest,
    fun h => step_of_busOffset_error (busOffset_of_outside h) v rest⟩

/-! ### Which register an offset names -/

/-- The DMEM window ends inside the block's 64 KiB: DMEM_BYTES is at most 57344 (00_scope.md R7). -/
theorem State.Inv.dmemWindow_lt {s : State} (hi : s.Inv) {off : Nat} (h : off < 0x2000 + s.cfg.dmemBytes) :
    off < 0x10000 := by
  obtain ⟨-, ⟨-, -, hle⟩, -⟩ := hi.cfg
  omega

theorem winReg_of_xRange (cfg : Config) {off : Nat} (hlo : 0x1000 ≤ off) (hhi : off < 0x1800) :
    ∃ i j, winReg cfg off = .xword i j := by
  unfold winReg
  rw [if_neg (by omega), if_pos hhi]
  exact ⟨_, _, rfl⟩

theorem winReg_of_dmemRange {cfg : Config} {off : Nat} (hlo : 0x2000 ≤ off) (hhi : off < 0x2000 + cfg.dmemBytes) :
    ∃ a, winReg cfg off = .dmem a := by
  obtain ⟨a, rfl⟩ := Nat.exists_eq_add_of_le hlo
  exact ⟨a, winReg_dmemWord (by omega)⟩

/-- The gaps between the named registers below 0x1000 (20_memory.md R51). -/
theorem controlReg_of_gap {off : Nat} (h4 : off % 4 = 0)
    (h : off = 0x0C ∨ (0x24 ≤ off ∧ off < 0x30) ∨ 0x40 ≤ off) : controlReg off = .reserved := by
  unfold controlReg
  split
  case h_13 => rfl
  all_goals omega

theorem winReg_of_reservedOffset {cfg : Config} {off : Nat} (h4 : off % 4 = 0) (h : reservedOffset cfg off) :
    winReg cfg off = .reserved := by
  unfold reservedOffset at h
  unfold winReg
  by_cases h1 : off < 0x1000
  · rw [if_pos h1]
    exact controlReg_of_gap h4 (by omega)
  · rw [if_neg h1, if_neg (by omega)]
    by_cases h2 : off < 0x2000
    · rw [if_pos h2]
    · rw [if_neg h2, if_neg (by omega)]

/-! ### The words of a big register -/

/-- `BitVec.ofNat` cuts to 32 bits itself. -/
theorem xWord_of_lt {cfg : Config} {j : Nat} (h : j < cfg.xlen / 32) (v : Nat) :
    xWord cfg v j = BitVec.ofNat 32 (v / 2 ^ (32 * j) % 2 ^ 32) := by
  unfold xWord
  rw [if_pos h, Nat.shiftRight_eq_div_pow]
  apply BitVec.eq_of_toNat_eq
  simp only [BitVec.toNat_ofNat, Nat.mod_mod]

theorem xWord_of_le {cfg : Config} {j : Nat} (h : cfg.xlen / 32 ≤ j) (v : Nat) : xWord cfg v j = 0 := by
  unfold xWord
  rw [if_neg (by omega)]

theorem setXWord_of_le {cfg : Config} {j : Nat} (h : cfg.xlen / 32 ≤ j) (v : Nat) (w : Word) :
    setXWord cfg v j w = v := by
  unfold setXWord
  rw [if_neg (by omega)]

theorem State.setX_getX (s : State) (i : XReg) : s.setX i (s.getX i) = s := by
  simp only [State.setX, State.getX, Fin.getElem_fin, Vector.set_getElem_self]

/-- A write to an X word while IDLE (20_memory.md R54). -/
theorem State.hostWrite_xword {s : State} (hp : s.phase = .idle) {off j : Nat} {i : XReg}
    (hr : winReg s.cfg off = .xword i j) (v : Word) :
    s.hostWrite off v = s.setX i (setXWord s.cfg (s.getX i) j v) := by
  unfold State.hostWrite
  rw [hr]
  exact State.unlessBusy_idle hp

/-- Settles O44: word j of X[i] stands at 0x1000 + 0x100·i + 4·j, and what a write of it does is `setXWord`. -/
theorem xWindowWords : Obligations.XWindowWords := by
  unfold Obligations.XWindowWords
  intro s i j v _ hp hj
  have hoff : 0x1000 + 0x100 * i.val + 4 * j < 0x10000 ∧ (0x1000 + 0x100 * i.val + 4 * j) % 4 = 0 := by
    have := i.isLt
    omega
  have hreg := winReg_xword s.cfg i hj
  have hread := step_onRead_idle hp hoff.1 hoff.2 hreg
  have hwrite := step_onWrite s hoff.1 hoff.2 v
  rw [State.hostWrite_xword hp hreg] at hwrite
  refine ⟨fun hlt => ⟨?_, _, hwrite, setXWord_spec v hlt⟩, fun hle => ⟨?_, ?_⟩⟩
  · rw [hread, State.regValue, xWord_of_lt hlt]
  · rw [hread, State.regValue, xWord_of_le hle]
  · rw [hwrite, setXWord_of_le hle, State.setX_getX]

/-! ### The byte lanes of DMEM -/

/-- Lane l of a DMEM word is the byte at a + l (20_memory.md R56). -/
theorem dmemWord_lane (m : Mem) (a : Nat) {l : Nat} (hl : l < 4) :
    (dmemWord m a).toNat / 256 ^ l % 256 = (m.read (a + l)).toNat := by
  have h0 := (m.read a).isLt
  have h0' : (m.read (a + 0)).toNat = (m.read a).toNat := rfl
  have h1 := (m.read (a + 1)).isLt
  have h2 := (m.read (a + 2)).isLt
  have h3 := (m.read (a + 3)).isLt
  simp only [dmemWord, BitVec.toNat_ofNat, Nat.shiftLeft_eq]
  interval_cases l <;> omega

/-- The byte of a written word in lane l. -/
theorem getD_laneBytes (w : Word) {l : Nat} (hl : l < 4) :
    (laneBytes w).getD l 0 = BitVec.ofNat 8 (w.toNat / 256 ^ l) := by
  apply BitVec.eq_of_toNat_eq
  interval_cases l <;> simp [laneBytes, BitVec.extractLsb'_toNat, Nat.shiftRight_eq_div_pow]

/-- A write to a DMEM word while IDLE (20_memory.md R56). -/
theorem State.hostWrite_dmem {s : State} (hp : s.phase = .idle) {off a : Nat}
    (hr : winReg s.cfg off = .dmem a) (v : Word) : s.hostWrite off v = s.memWrite a (laneBytes v) := by
  unfold State.hostWrite
  rw [hr]
  exact State.unlessBusy_idle hp

/-- Settles O46: the word at 0x2000 + a is made of the bytes a to a + 3, and a write puts its four lanes there. -/
theorem dmemWindowLanes : Obligations.DmemWindowLanes := by
  unfold Obligations.DmemWindowLanes
  intro s a v hi hp h4 ha
  have hoff : 0x2000 + a < 0x10000 := hi.dmemWindow_lt (by omega)
  have hreg := winReg_dmemWord ha
  have hwrite := step_onWrite s hoff (by omega) v
  rw [State.hostWrite_dmem hp hreg] at hwrite
  exact ⟨⟨_, step_onRead_idle hp hoff (by omega) hreg, fun l hl => dmemWord_lane s.dmem a hl⟩,
    _, hwrite, Mem.wf_writeBytes hi.memWf a _,
    memBecomes_writeBytes hi.memWf a (laneBytes v) _ fun l hl => getD_laneBytes v hl⟩

/-! ### Reserved offsets and bits -/

theorem State.ctrlWord_lt (s : State) : s.ctrlWord.toNat < 4 := by
  rw [State.ctrlWord_eq]
  cases s.ie <;> decide

theorem State.statusWord_lt (s : State) : s.statusWord.toNat < 16 := by
  have hb := Bool.toNat_le s.busy
  have hd := Bool.toNat_le s.done
  have he := Bool.toNat_le s.err
  have ho := Bool.toNat_le s.ovr
  simp only [State.statusWord, BitVec.toNat_ofNat, Nat.shiftLeft_eq]
  omega

theorem State.errcodeWord_lt (s : State) : s.errcodeWord.toNat < 256 := by
  unfold State.errcodeWord
  cases s.errcode with
  | none => decide
  | some e => cases e <;> decide

/-- Settles O47: the offsets between the named registers name none, and every word a register reads as is below its
reserved bits. -/
theorem reservedAndReadOnlyOffsets : Obligations.ReservedAndReadOnlyOffsets := by
  unfold Obligations.ReservedAndReadOnlyOffsets
  intro s off v hi h4 hoff
  have read {o : Nat} (r : WinReg) (h : o < 0x10000 ∧ o % 4 = 0) (hr : winReg s.cfg o = r)
      (hf : r.freeWhileBusy = false) := step_onRead_fixed s h.1 h.2 hr hf
  refine ⟨fun hres => ?_, ?_, ⟨_, read .cfg (by decide) rfl rfl, ?_⟩, ⟨_, read .ctrl (by decide) rfl rfl, ?_⟩,
    ⟨_, read .status (by decide) rfl rfl, ?_⟩, ⟨_, read .errcode (by decide) rfl rfl, ?_⟩⟩
  · have hreg := winReg_of_reservedOffset h4 hres
    refine ⟨read .reserved ⟨hoff, h4⟩ hreg rfl, ?_⟩
    rw [step_onWrite s hoff h4]
    unfold State.hostWrite
    rw [hreg]
  · rintro (rfl | rfl | rfl | rfl | rfl) <;> exact step_onWrite s (by decide) (by decide) v
  · obtain ⟨-, -, -, -, h⟩ := cfgWord_fields hi.cfg
    exact h
  · exact Nat.div_eq_of_lt s.ctrlWord_lt
  · exact Nat.div_eq_of_lt s.statusWord_lt
  · exact Nat.div_eq_of_lt s.errcodeWord_lt

/-! ### Reads while BUSY -/

/-- A read of X, DMEM or RESULT while BUSY draws the next free word (20_memory.md R68). -/
theorem State.hostRead_free {s : State} (hp : s.phase = .busy) {off : Nat}
    (hf : (winReg s.cfg off).freeWhileBusy = true) :
    s.hostRead off = { s with reads := Config.freeWord s.draws :: s.reads, draws := s.draws + 1 } := by
  unfold State.hostRead
  simp [State.busy, hp, hf]

theorem State.Inv.statusWord_busy {s : State} (hi : s.Inv) (hp : s.phase = .busy) :
    s.statusWord = if s.ovr then 9 else 1 := by
  obtain ⟨hd, he, -⟩ := hi.busy hp
  simp only [State.statusWord, State.busy, hp, hd, he]
  cases s.ovr <;> rfl

theorem State.Inv.errcodeWord_busy {s : State} (hi : s.Inv) (hp : s.phase = .busy) : s.errcodeWord = 0 := by
  obtain ⟨-, -, hn⟩ := hi.busy hp
  simp only [State.errcodeWord, hn]
  rfl

/-- Settles O49: an offset names an X word, a DMEM word or RESULT, whose read is a free draw, or a register that reads
as while IDLE. -/
theorem readsWhileBusy : Obligations.ReadsWhileBusy := by
  unfold Obligations.ReadsWhileBusy
  intro s off hi hp h4
  have read {o : Nat} (r : WinReg) (h : o < 0x10000 ∧ o % 4 = 0) (hr : winReg s.cfg o = r)
      (hf : r.freeWhileBusy = false) := step_onRead_fixed s h.1 h.2 hr hf
  have free (h : off < 0x10000) (hf : (winReg s.cfg off).freeWhileBusy = true) :=
    (step_onRead s h h4).trans (congrArg _ (State.hostRead_free hp hf))
  refine ⟨?_, ?_, read .cmd (by decide) rfl rfl, ?_, ?_, read (.arg 0) (by decide) rfl rfl,
    read (.arg 1) (by decide) rfl rfl, read (.arg 2) (by decide) rfl rfl, read (.arg 3) (by decide) rfl rfl⟩
  · rintro (rfl | ⟨hlo, hhi⟩ | ⟨hlo, hhi⟩)
    · exact free (by decide) rfl
    · obtain ⟨i, j, hr⟩ := winReg_of_xRange s.cfg hlo hhi
      exact free (by omega) (by rw [hr]; rfl)
    · obtain ⟨a, hr⟩ := winReg_of_dmemRange hlo hhi
      exact free (hi.dmemWindow_lt hhi) (by rw [hr]; rfl)
  · rw [← State.ctrlWord_eq]
    exact read .ctrl (by decide) rfl rfl
  · rw [← hi.statusWord_busy hp]
    exact read .status (by decide) rfl rfl
  · rw [← hi.errcodeWord_busy hp]
    exact read .errcode (by decide) rfl rfl

/-! ### Writes while BUSY -/

/-- A dropped write sets OVR alone (20_memory.md R69). -/
theorem State.hostWrite_dropped {s : State} (hp : s.phase = .busy) {off : Nat} (h : droppedWhileBusy s.cfg off)
    (v : Word) : s.hostWrite off v = s.drop := by
  unfold State.hostWrite
  rcases h with rfl | rfl | rfl | rfl | rfl | ⟨hlo, hhi⟩ | ⟨hlo, hhi⟩
  iterate 5 exact State.unlessBusy_busy hp
  · obtain ⟨i, j, hr⟩ := winReg_of_xRange s.cfg hlo hhi
    rw [hr]
    exact State.unlessBusy_busy hp
  · obtain ⟨a, hr⟩ := winReg_of_dmemRange hlo hhi
    rw [hr]
    exact State.unlessBusy_busy hp

theorem State.Inv.lt_of_droppedWhileBusy {s : State} (hi : s.Inv) {off : Nat} (h : droppedWhileBusy s.cfg off) :
    off < 0x10000 := by
  obtain ⟨-, ⟨-, -, hle⟩, -⟩ := hi.cfg
  unfold droppedWhileBusy at h
  omega

/-- While BUSY a host write that is no soft reset changes IE and the flags of STATUS at most (20_memory.md R69). -/
theorem State.hostWrite_busy {s : State} (hp : s.phase = .busy) {off : Nat} {v : Word}
    (h : ¬ (off = 0x10 ∧ v.getLsbD 0 = true)) :
    ∃ ie done err ovr, s.hostWrite off v = { s with ie := ie, done := done, err := err, ovr := ovr } := by
  have dropped (t : State) : ∃ ie done err ovr,
      s.unlessBusy t = { s with ie := ie, done := done, err := err, ovr := ovr } :=
    ⟨_, _, _, _, State.unlessBusy_busy hp⟩
  unfold State.hostWrite
  cases hr : winReg s.cfg off with
  | ctrl =>
    have h0 : ¬ v.getLsbD 0 = true := fun h0 => h ⟨winReg_eq_ctrl hr, h0⟩
    exact ⟨_, _, _, _, if_neg h0⟩
  | cmd | arg | xword | dmem => exact dropped _
  | status => exact ⟨_, _, _, _, rfl⟩
  | id | cfg | dmemsz | errcode | result | reserved => exact ⟨_, _, _, _, rfl⟩

/-- While BUSY an access the block takes, short of a reset, changes IE, the flags of STATUS, the read log and the draw
counter at most. -/
theorem step_access_busy {s : State} (hp : s.phase = .busy) {e : Event} (hl : e.legal s.cfg)
    (hr : ¬ e.resets s.cfg) (he : e ≠ .engine) :
    ∃ ie done err ovr reads draws, step { s with sched := e :: s.sched } =
      .next { s with ie := ie, done := done, err := err, ovr := ovr, reads := reads, draws := draws } := by
  cases e with
  | write w a v =>
    obtain ⟨rfl, hlo, hhi, h4⟩ := hl
    obtain ⟨off, rfl⟩ := Nat.exists_eq_add_of_le hlo
    rw [Nat.add_sub_cancel_left] at h4
    have hno : ¬ (off = 0x10 ∧ v.getLsbD 0 = true) := by
      rintro ⟨rfl, h0⟩
      exact hr ⟨rfl, rfl, h0⟩
    obtain ⟨ie, done, err, ovr, hw⟩ := State.hostWrite_busy hp hno
    exact ⟨ie, done, err, ovr, _, _, (step_onWrite s (by omega) h4 v).trans (congrArg _ hw)⟩
  | read w a =>
    obtain ⟨rfl, hlo, hhi, h4⟩ := hl
    obtain ⟨off, rfl⟩ := Nat.exists_eq_add_of_le hlo
    rw [Nat.add_sub_cancel_left] at h4
    obtain ⟨v, n, hw⟩ := s.hostRead_eq off
    exact ⟨_, _, _, _, _, _, (step_onRead s (by omega) h4).trans (congrArg _ hw)⟩
  | engine => exact absurd rfl he
  | powerOn contents => exact absurd trivial hr

/-- Settles O50: no field that a command reads is among those an access while BUSY can change. -/
theorem writesWhileBusyAreDropped : Obligations.WritesWhileBusyAreDropped := by
  unfold Obligations.WritesWhileBusyAreDropped
  refine ⟨fun s off v hi hp h4 h => ?_, fun s e _ hp hl hr he => ?_⟩
  · rw [step_onWrite s (hi.lt_of_droppedWhileBusy h) h4, State.hostWrite_dropped hp h]
    rfl
  · obtain ⟨ie, done, err, ovr, reads, draws, ht⟩ := step_access_busy hp hl hr he
    exact ⟨_, ht, hp, rfl, rfl, rfl, rfl, rfl, rfl, rfl, rfl, rfl, rfl, rfl, rfl, rfl, rfl, rfl⟩

end Sys2Proof.Machine
end

section
/-!
O1 to O6: the decoder and the encoder (spec/30_encoding.md). The opcode table fixes whole fields of R81, so a word
fits a row when it has the row's pattern in the fields its mask covers.
-/

namespace Sys2Proof

/-! ### The fields of a word -/

/-- The fields of 30_encoding.md R81, reserved bits last: highest bit and lowest bit. -/
def layout : List (Nat × Nat) :=
  [(7, 0), (10, 8), (13, 11), (16, 14), (19, 17), (21, 20), (22, 22), (26, 23), (31, 27)]

theorem testBit_field (w : Word) {hi lo k : Nat} (hlo : lo ≤ k) (hhi : k ≤ hi) :
    (field w hi lo).testBit (k - lo) = w.getLsbD k := by
  rw [field, Nat.testBit_mod_two_pow, Nat.testBit_shiftRight, decide_eq_true (by omega), Bool.true_and,
    Nat.add_sub_cancel' hlo, BitVec.testBit_toNat]

/-- Every bit of a word is in a field. -/
theorem exists_field_of_bit : ∀ k < 32, ∃ p ∈ layout, p.2 ≤ k ∧ k ≤ p.1 := by decide

theorem eq_of_fields {v w : Word} (h : ∀ p ∈ layout, field v p.1 p.2 = field w p.1 p.2) : v = w := by
  refine BitVec.eq_of_getLsbD_eq fun k hk => ?_
  obtain ⟨p, hp, hlo, hhi⟩ := exists_field_of_bit k hk
  rw [← testBit_field v hlo hhi, ← testBit_field w hlo hhi, h p hp]

theorem field_and (v w : Word) (hi lo : Nat) : field (v &&& w) hi lo = field v hi lo &&& field w hi lo := by
  simp only [field, BitVec.toNat_and, Nat.shiftRight_and_distrib, Nat.and_mod_two_pow]

theorem field_lt (w : Word) (hi lo : Nat) : field w hi lo < 2 ^ (hi - lo + 1) := Nat.mod_lt _ (Nat.two_pow_pos _)

/-- A whole field under a mask of ones. -/
theorem field_and_ones (w : Word) (hi lo : Nat) : field w hi lo &&& 2 ^ (hi - lo + 1) - 1 = field w hi lo := by
  rw [Nat.and_two_pow_sub_one_eq_mod, Nat.mod_eq_of_lt (field_lt w hi lo)]

/-- The operand fields as numbers, in the order of `layout`. -/
def Fields.numbers (x : Fields) : List Nat :=
  [x.rd.val, x.rs1.val, x.rs2.val, x.rs3.val, x.ctx.number, x.f.toNat, x.sel.toNat]

theorem CtxSlot.number_lt (c : CtxSlot) : c.number < 4 := by cases c <;> decide

theorem CtxSlot.number_injective : Function.Injective CtxSlot.number := by
  intro c d
  cases c <;> cases d <;> decide

theorem boolToNat_injective : Function.Injective Bool.toNat := by decide

theorem Fields.numbers_inj {x y : Fields} (h : x.numbers = y.numbers) : x = y := by
  simp only [Fields.numbers, List.cons.injEq, Fin.val_inj, BitVec.toNat_inj, CtxSlot.number_injective.eq_iff,
    boolToNat_injective.eq_iff] at h
  obtain ⟨hrd, hrs1, hrs2, hrs3, hctx, hf, hsel, -⟩ := h
  cases x
  cases y
  simp_all only

theorem CtxSlot.number_ctxSlot : ∀ k < 4, (ctxSlot k).number = k := by decide

theorem toNat_beq_one : ∀ k < 2, (k == 1).toNat = k := by decide

theorem map_field (w : Word) :
    layout.map (fun p => field w p.1 p.2) = field w 7 0 :: (fieldsOf w).numbers ++ [field w 31 27] := by
  have reg (lo : Nat) : field w (lo + 2) lo % 8 = field w (lo + 2) lo :=
    Nat.mod_eq_of_lt (by simpa using field_lt w (lo + 2) lo)
  have hctx := CtxSlot.number_ctxSlot _ (field_lt w 21 20)
  have hf := toNat_beq_one _ (field_lt w 22 22)
  have hsel : field w 26 23 % 16 = field w 26 23 := Nat.mod_eq_of_lt (field_lt w 26 23)
  simp [layout, Fields.numbers, fieldsOf, regField, reg, hctx, hf, hsel]

/-- The word with the operand fields `x` and the opcode `op`. -/
def Fields.word (x : Fields) (op : Nat) : Word := mkWord op x.rd x.rs1 x.rs2 x.rs3 x.ctx x.f x.sel

theorem map_field_word (x : Fields) {op : Nat} (hop : op < 256) :
    layout.map (fun p => field (x.word op) p.1 p.2) = op :: x.numbers ++ [0] := by
  have hc := x.ctx.number_lt
  have hf := x.f.toNat_lt
  have hsel := x.sel.isLt
  simp only [Fields.word, Fields.numbers, layout, List.map_cons, List.map_nil, field, mkWord_toNat hop,
    Nat.shiftRight_eq_div_pow, List.cons_append, List.nil_append, List.cons.injEq, and_true]
  omega

theorem fieldsOf_word (x : Fields) {op : Nat} (hop : op < 256) : fieldsOf (x.word op) = x := by
  have h := (map_field (x.word op)).symm.trans (map_field_word x hop)
  exact Fields.numbers_inj (List.append_inj_left' (List.cons.inj h).2 rfl)

theorem fieldsOf_mkWord {op : Nat} (hop : op < 256) (rd rs1 rs2 rs3 : XReg) (c : CtxSlot) (f : Bool) (sel : BitVec 4) :
    fieldsOf (mkWord op rd rs1 rs2 rs3 c f sel) = ⟨rd, rs1, rs2, rs3, c, f, sel⟩ :=
  fieldsOf_word ⟨rd, rs1, rs2, rs3, c, f, sel⟩ hop

theorem word_fieldsOf {w : Word} (h : field w 31 27 = 0) : (fieldsOf w).word (field w 7 0) = w := by
  have hw := map_field w
  rw [h, ← map_field_word _ (field_lt w 7 0)] at hw
  exact (eq_of_fields (List.map_inj_left.1 hw)).symm

/-! ### The rows of the table -/

/-- A mask covers a field whole or not at all, and a pattern is 0 where the mask does not cover it. -/
theorem whole_fields : ∀ r ∈ opcodeTable, ∀ p ∈ layout,
    field r.mask p.1 p.2 = 0 ∧ field r.pattern p.1 p.2 = 0 ∨ field r.mask p.1 p.2 = 2 ^ (p.1 - p.2 + 1) - 1 := by
  decide

/-- A word of a row has the row's pattern in a field of ones of the mask. -/
theorem field_eq_of_fits {r : Row} {w : Word} (h : r.fits w = true) {hi lo : Nat}
    (hm : field r.mask hi lo = 2 ^ (hi - lo + 1) - 1) : field w hi lo = field r.pattern hi lo := by
  rw [← fits_field h, hm, field_and_ones]

/-- A word of a row has the row's pattern in the fields that the mask covers. -/
theorem fits_iff_fields {r : Row} (hr : r ∈ opcodeTable) {w : Word} :
    r.fits w = true ↔ ∀ p ∈ layout, field r.mask p.1 p.2 ≠ 0 → field w p.1 p.2 = field r.pattern p.1 p.2 := by
  constructor
  · intro h p hp h0
    obtain ⟨hm, -⟩ | hm := whole_fields r hr p hp
    · exact absurd hm h0
    · exact field_eq_of_fits h hm
  · intro h
    refine beq_iff_eq.2 (eq_of_fields fun p hp => ?_)
    rw [field_and]
    obtain ⟨hm, h0⟩ | hm := whole_fields r hr p hp
    · rw [hm, h0, Nat.and_zero]
    · rw [hm, field_and_ones, h p hp (by rw [hm]; exact Nat.sub_ne_zero_of_lt (Nat.one_lt_two_pow (by omega)))]

/-- The patterns of two rows differ under the mask that both have. -/
theorem rows_disjoint : ∀ i j : Fin opcodeTable.length, (opcodeTable.get i).pattern &&& (opcodeTable.get j).mask =
    (opcodeTable.get j).pattern &&& (opcodeTable.get i).mask → i = j := by
  decide

/-- Settles O4: with a word that fits two rows, their patterns agree wherever both masks reach. -/
theorem opcodeRowsArePairwiseDisjoint : Obligations.OpcodeRowsArePairwiseDisjoint := by
  unfold Obligations.OpcodeRowsArePairwiseDisjoint
  refine ⟨rfl, fun w i j hi hj => rows_disjoint i j ?_⟩
  simp only [Row.fits, beq_iff_eq] at hi hj
  rw [← hi, ← hj, BitVec.and_assoc, BitVec.and_assoc, BitVec.and_comm (opcodeTable.get i).mask]

theorem row_unique {q r : Row} (hq : q ∈ opcodeTable) (hr : r ∈ opcodeTable) {w : Word} (hqw : q.fits w = true)
    (hrw : r.fits w = true) : q = r := by
  obtain ⟨i, rfl⟩ := List.mem_iff_get.1 hq
  obtain ⟨j, rfl⟩ := List.mem_iff_get.1 hr
  obtain ⟨-, unique⟩ := opcodeRowsArePairwiseDisjoint
  rw [unique w i j hqw hrw]

/-- The opcode and the reserved bits are fixed in every row. -/
theorem mask_op_rsv : ∀ r ∈ opcodeTable, field r.mask 7 0 = 2 ^ 8 - 1 ∧ field r.mask 31 27 = 2 ^ 5 - 1 := by decide

theorem pattern_rsv : ∀ r ∈ opcodeTable, field r.pattern 31 27 = 0 := by decide

/-- The decoder takes the words of the rows whose command is well formed (30_encoding.md R84). -/
theorem decode_eq_ok_iff {w : Word} {i : Instr} : decode w = .ok i ↔
    ∃ r ∈ opcodeTable, r.fits w = true ∧ i = r.build (fieldsOf w) ∧ i.wellFormed = true := by
  refine ⟨fun h => (decode_eq_ok_row h).2, ?_⟩
  rintro ⟨r, hr, hfit, rfl, hwf⟩
  have hrsv : field w 31 27 = 0 := (field_eq_of_fits hfit (mask_op_rsv r hr).2).trans (pattern_rsv r hr)
  have hfind : opcodeTable.find? (fun q => q.fits w) = some r := by
    cases hq : opcodeTable.find? (fun q => q.fits w) with
    | none => exact absurd hfit (List.find?_eq_none.1 hq r hr)
    | some q => rw [row_unique (List.mem_of_find?_eq_some hq) hr (by simpa using List.find?_some hq) hfit]
  simp only [decode, hrsv, hfind, hwf, ne_eq, not_true_eq_false, if_true, if_false]

/-! ### Rows and encodings -/

/-- The operand fields of a word of the row: those of `x` that the mask leaves open, the pattern's elsewhere. -/
def Row.fill (r : Row) (x : Fields) : Fields where
  rd := if field r.mask 10 8 = 0 then x.rd else (fieldsOf r.pattern).rd
  rs1 := if field r.mask 13 11 = 0 then x.rs1 else (fieldsOf r.pattern).rs1
  rs2 := if field r.mask 16 14 = 0 then x.rs2 else (fieldsOf r.pattern).rs2
  rs3 := if field r.mask 19 17 = 0 then x.rs3 else (fieldsOf r.pattern).rs3
  ctx := if field r.mask 21 20 = 0 then x.ctx else (fieldsOf r.pattern).ctx
  f := if field r.mask 22 22 = 0 then x.f else (fieldsOf r.pattern).f
  sel := if field r.mask 26 23 = 0 then x.sel else (fieldsOf r.pattern).sel

/-- The word of the row with the operand fields `x`. -/
def Row.word (r : Row) (x : Fields) : Word := (r.fill x).word (field r.pattern 7 0)

/-- The encoder agrees with the table, row by row, in the used fields and in the unused ones (30_encoding.md R83,
R85). -/
theorem encode_build {r : Row} (hr : r ∈ opcodeTable) (x : Fields) : encode (r.build x) = r.word x := by
  fin_cases hr <;> rfl

theorem fill_fieldsOf {r : Row} (hr : r ∈ opcodeTable) {w : Word} (h : r.fits w = true) :
    r.fill (fieldsOf w) = fieldsOf w := by
  have key : ∀ p ∈ layout, ¬ field r.mask p.1 p.2 = 0 → field r.pattern p.1 p.2 = field w p.1 p.2 :=
    fun p hp h0 => ((fits_iff_fields hr).1 h p hp h0).symm
  simp only [layout, List.forall_mem_cons] at key
  obtain ⟨-, hrd, hrs1, hrs2, hrs3, hctx, hf, hsel, -⟩ := key
  simp only [Row.fill, fieldsOf, Fields.mk.injEq, ite_eq_left_iff]
  exact ⟨fun h0 => congrArg _ (hrd h0), fun h0 => congrArg _ (hrs1 h0), fun h0 => congrArg _ (hrs2 h0),
    fun h0 => congrArg _ (hrs3 h0), fun h0 => congrArg _ (hctx h0), fun h0 => congrArg (· == 1) (hf h0),
    fun h0 => congrArg _ (hsel h0)⟩

theorem fits_word {r : Row} (hr : r ∈ opcodeTable) (x : Fields) : r.fits (r.word x) = true := by
  have hw := map_field_word (r.fill x) (field_lt r.pattern 7 0)
  have hp := map_field r.pattern
  simp only [layout, Fields.numbers, List.map_cons, List.map_nil, List.cons_append, List.nil_append,
    List.cons.injEq, and_true, true_and] at hw hp
  obtain ⟨hrd, hrs1, hrs2, hrs3, hctx, hf, hsel⟩ := hp
  rw [fits_iff_fields hr, Row.word]
  simp only [layout, List.forall_mem_cons, hw, pattern_rsv r hr]
  simp +contextual only [Row.fill, if_false, hrd, hrs1, hrs2, hrs3, hctx, hf, hsel, implies_true,
    List.not_mem_nil, false_implies, and_self]

/-! ### Decoding is inverse to encoding -/

theorem word_fieldsOf_of_fits {r : Row} (hr : r ∈ opcodeTable) {w : Word} (h : r.fits w = true) :
    r.word (fieldsOf w) = w := by
  obtain ⟨hop, hrsv⟩ := mask_op_rsv r hr
  rw [Row.word, fill_fieldsOf hr h, ← field_eq_of_fits h hop, word_fieldsOf]
  rw [field_eq_of_fits h hrsv, pattern_rsv r hr]

/-- Every command is built by a row of the table from the fields of its word, which are its operands. -/
theorem exists_row (i : Instr) : ∃ r ∈ opcodeTable, r.build (fieldsOf (encode i)) = i := by
  cases i <;> simp [opcodeTable, montgomeryRows, keyRows, byteRows, encode, fieldsOf_mkWord]

/-- The decoder takes the words of the well-formed commands and no others (30_encoding.md R85). -/
theorem decode_eq_ok_iff_encode {w : Word} {i : Instr} : decode w = .ok i ↔ i.wellFormed = true ∧ encode i = w := by
  rw [decode_eq_ok_iff]
  constructor
  · rintro ⟨r, hr, hfit, rfl, hwf⟩
    exact ⟨hwf, (encode_build hr _).trans (word_fieldsOf_of_fits hr hfit)⟩
  · rintro ⟨hwf, rfl⟩
    obtain ⟨r, hr, hi⟩ := exists_row i
    have hfit := fits_word hr (fieldsOf (encode i))
    rw [← encode_build hr, hi] at hfit
    exact ⟨r, hr, hfit, hi.symm, hwf⟩

/-- Settles O2: the word of a command fits the row that builds it, and no other row. -/
theorem decodeOfEncodeIsTheCommand : Obligations.DecodeOfEncodeIsTheCommand := by
  unfold Obligations.DecodeOfEncodeIsTheCommand
  exact fun i hi => decode_eq_ok_iff_encode.2 ⟨hi, rfl⟩

/-- Settles O3: a word that fits a row is the row's word with the word's own fields. -/
theorem decodedWordIsItsEncoding : Obligations.DecodedWordIsItsEncoding := by
  unfold Obligations.DecodedWordIsItsEncoding
  exact fun _ _ => decode_eq_ok_iff_encode.1

/-- Settles O1: each word is the encoding of its command. -/
theorem specCommandWordsDecode : Obligations.SpecCommandWordsDecode := by
  unfold Obligations.SpecCommandWordsDecode
  simp only [decode_eq_ok_iff_encode]
  decide

end Sys2Proof

namespace Sys2Proof.Machine

open Sys2Proof

/-! ### Words that are no command -/

/-- A pending word that is no command completes with IllegalCommand (30_encoding.md R84, 60_exceptions.md R216). -/
theorem step_onEngine_illegal {s : State} (hp : s.phase = .busy) (h : ∀ i, decode s.pend ≠ .ok i) :
    step s.onEngine = .next (s.failed .illegalCommand) := by
  have hstep : step s.onEngine = engineTurn s := rfl
  cases hd : decode s.pend with
  | ok i => exact absurd hd (h i)
  | error e =>
    simp only [hstep, engineTurn, hp, completePending, hd]
    rfl

theorem field_eq_div_mod (w : Word) (lo : Nat) {n : Nat} (hn : 0 < n) :
    field w (lo + n - 1) lo = w.toNat / 2 ^ lo % 2 ^ n := by
  rw [field, Nat.shiftRight_eq_div_pow, show lo + n - 1 - lo + 1 = n by omega]

theorem opcode_of_fits {r : Row} (hr : r ∈ opcodeTable) {w : Word} (h : r.fits w = true) :
    w.toNat % 256 = field r.pattern 7 0 := by
  rw [← field_eq_of_fits h (mask_op_rsv r hr).1, field]
  rfl

theorem pattern_op_used : ∀ r ∈ opcodeTable, field r.pattern 7 0 ∈ usedOpcodes := by decide

/-- The rows with opcode 0x05 and 0x12 build CTXRD and KEYRD, whose selectors are bounded (30_encoding.md R84). -/
theorem sel_le_of_wellFormed {x : Fields} : ∀ r ∈ opcodeTable, (r.build x).wellFormed = true →
    (field r.pattern 7 0 = 0x05 → x.sel.toNat ≤ 4) ∧ (field r.pattern 7 0 = 0x12 → x.sel.toNat ≤ 9) := by
  simp [opcodeTable, montgomeryRows, keyRows, byteRows, field, Instr.wellFormed, ctxSelLegal, keySelLegal]

theorem not_reservedWord_of_decode {w : Word} {i : Instr} (h : decode w = .ok i) : ¬ reservedWord w := by
  obtain ⟨hrsv, r, hr, hfit, rfl, hwf⟩ := decode_eq_ok_row h
  obtain ⟨hctx, hkey⟩ := sel_le_of_wellFormed r hr hwf
  have hsel : (fieldsOf w).sel.toNat = w.toNat / 2 ^ 23 % 16 := by
    simp [fieldsOf, field, Nat.shiftRight_eq_div_pow]
  unfold reservedWord
  rw [opcode_of_fits hr hfit, ← hsel]
  rintro (h | h | ⟨hop, h⟩ | ⟨hop, h⟩)
  · exact h hrsv
  · exact h (pattern_op_used r hr)
  · exact absurd (hctx hop) (Nat.not_le.2 h)
  · exact absurd (hkey hop) (Nat.not_le.2 h)

/-- The fields that an opcode's commands do not use are fixed at 0 in its rows (30_encoding.md R85). -/
theorem unusedFields_fixed : ∀ e ∈ unusedFields, ∀ r ∈ opcodeTable, field r.pattern 7 0 = e.1 → ∀ f ∈ e.2,
    0 < f.2 ∧ field r.mask (f.1 + f.2 - 1) f.1 = 2 ^ (f.1 + f.2 - 1 - f.1 + 1) - 1 ∧
      field r.pattern (f.1 + f.2 - 1) f.1 = 0 := by
  decide

/-- LOADKEY and LOADKEYD differ in f, and LOADKEYD has rs3 fixed at 0 (30_encoding.md R85). -/
theorem loadkeyd_rs3_fixed : ∀ r ∈ opcodeTable, field r.pattern 7 0 = 0x10 → field r.mask 22 22 = 2 ^ 1 - 1 ∧
    (field r.pattern 22 22 = 1 → field r.mask 19 17 = 2 ^ 3 - 1 ∧ field r.pattern 19 17 = 0) := by
  decide

theorem not_unusedFieldSet_of_decode {w : Word} {i : Instr} (h : decode w = .ok i) : ¬ unusedFieldSet w := by
  obtain ⟨r, hr, hfit, -, -⟩ := decode_eq_ok_iff.1 h
  unfold unusedFieldSet
  rw [opcode_of_fits hr hfit]
  rintro (⟨op, fs, he, hop, f, hf, h0⟩ | ⟨hop, hflag, h0⟩)
  · obtain ⟨hn, hm, hz⟩ := unusedFields_fixed _ he r hr hop f hf
    rw [← field_eq_div_mod w f.1 hn, field_eq_of_fits hfit hm] at h0
    exact h0 hz
  · obtain ⟨hm, hd⟩ := loadkeyd_rs3_fixed r hr hop
    have hf : field r.pattern 22 22 = 1 :=
      (field_eq_of_fits hfit hm).symm.trans ((field_eq_div_mod w 22 Nat.one_pos).trans hflag)
    obtain ⟨hm3, hz⟩ := hd hf
    exact h0 ((field_eq_div_mod w 17 (n := 3) (by decide)).symm.trans ((field_eq_of_fits hfit hm3).trans hz))

/-- Settles O5: a word that decodes has no reserved bit, a used opcode and a legal selector. -/
theorem reservedWordsAreIllegal : Obligations.ReservedWordsAreIllegal := by
  unfold Obligations.ReservedWordsAreIllegal
  exact fun s hp hw => step_onEngine_illegal hp fun i hi => not_reservedWord_of_decode hi hw

/-- Settles O6: the rows fix every unused field at 0. -/
theorem unusedFieldsMustBeZero : Obligations.UnusedFieldsMustBeZero := by
  unfold Obligations.UnusedFieldsMustBeZero
  refine ⟨fun s hp hw => step_onEngine_illegal hp fun i hi => not_unusedFieldSet_of_decode hi hw, fun i hi w => ?_⟩
  rw [decode_eq_ok_iff_encode, and_iff_right hi, eq_comm]

end Sys2Proof.Machine
end

section
/-!
O45: the host's LDX (spec/30_encoding.md R91). After its first m words the register agrees with the value in the low
32·m bits, and after the last one it is the value.
-/

namespace Sys2Proof.Machine

open Sys2Proof

theorem State.setX_setX (s : State) (i : XReg) (u v : Nat) : (s.setX i u).setX i v = s.setX i v := by
  simp only [State.setX, Vector.set_set]

theorem run_succ_of_step {M : Host.Core} {s t : M.State} (h : M.step s = .next t) (k : Nat) :
    M.run (k + 1) s = M.run k t := by
  rw [Host.Core.run, h]

/-- Word j of `v`, as LDX writes it. -/
def ldxWord (v j : Nat) : Word := BitVec.ofNat 32 (v >>> (32 * j))

theorem ldxWord_toNat (v j : Nat) : (ldxWord v j).toNat = v / 2 ^ (32 * j) % 2 ^ 32 := by
  rw [ldxWord, BitVec.toNat_ofNat, Nat.shiftRight_eq_div_pow]

/-- The write of word j in `LDX xi, v`. -/
def ldxWrite (cfg : Config) (i : XReg) (v j : Nat) : Event :=
  evW cfg (0x1000 + 0x100 * i.val + 4 * j) (ldxWord v j)

theorem evLdx_eq (cfg : Config) (i : XReg) (v : Nat) :
    evLdx cfg i v = (List.range' 0 (cfg.xlen / 32)).map (ldxWrite cfg i v) := by
  rw [← List.range_eq_range']
  rfl

/-- Word j written over a register that agrees with `v` below it. -/
theorem setXWord_mod {cfg : Config} {x v j : Nat} (hj : j < cfg.xlen / 32) (h : x % 2 ^ (32 * j) = v % 2 ^ (32 * j)) :
    setXWord cfg x j (ldxWord v j) % 2 ^ (32 * (j + 1)) = v % 2 ^ (32 * (j + 1)) := by
  obtain ⟨hword, hlow, -⟩ := setXWord_spec (v := x) (ldxWord v j) hj
  rw [Nat.mul_succ, Nat.pow_add, Nat.mod_mul, Nat.mod_mul, hlow, h, hword, ldxWord_toNat]

/-- One write of LDX on an idle block. -/
theorem step_ldxWrite {s : State} (hi : s.Inv) (hp : s.phase = .idle) (i : XReg) (v : Nat) {j : Nat}
    (hj : j < s.cfg.xlen / 32) (rest : List Event) : step { s with sched := ldxWrite s.cfg i v j :: rest } =
      .next { s.setX i (setXWord s.cfg (s.getX i) j (ldxWord v j)) with sched := rest } := by
  obtain ⟨⟨-, -, hle⟩, -⟩ := hi.cfg
  have hn : s.cfg.xlen / 32 ≤ 64 := Nat.div_le_div_right hle
  have hi8 := i.isLt
  have hr := winReg_xword s.cfg i (j := j) (by omega)
  refine (step_onWrite { s with sched := rest } (by omega) (by omega) _).trans ?_
  rw [State.hostWrite_xword (s := { s with sched := rest }) hp hr]
  rfl

/-- The writes of words m to m + k - 1. -/
theorem run_ldxWrites (i : XReg) (v k : Nat) : ∀ (m : Nat) (s : State), s.Inv → s.phase = .idle →
    m + k ≤ s.cfg.xlen / 32 → s.getX i % 2 ^ (32 * m) = v % 2 ^ (32 * m) →
    ∃ y < 2 ^ s.cfg.xlen, y % 2 ^ (32 * (m + k)) = v % 2 ^ (32 * (m + k)) ∧
      core.run k { s with sched := (List.range' m k).map (ldxWrite s.cfg i v) ++ s.sched } = .next (s.setX i y) := by
  induction k with
  | zero => exact fun m s hi hp hk hm => ⟨s.getX i, hi.x i, hm, congrArg _ (s.setX_getX i).symm⟩
  | succ k ih =>
    intro m s hi hp hk hm
    obtain ⟨⟨hdvd, -⟩, -⟩ := hi.cfg
    have hj : m < s.cfg.xlen / 32 := by omega
    have hlt := setXWord_lt (ldxWord v m) hdvd hj (hi.x i)
    obtain ⟨y, hy, hmod, hrun⟩ := ih (m + 1) (s.setX i _) (hi.setX i hlt) hp (by rw [State.setX_cfg]; omega)
      (by rw [State.getX_setX_same]; exact setXWord_mod hj hm)
    rw [Nat.add_right_comm, Nat.add_assoc] at hmod
    refine ⟨y, hy, hmod, ?_⟩
    rw [State.setX_setX] at hrun
    refine (run_succ_of_step (M := core) ?_ k).trans hrun
    exact step_ldxWrite hi hp i v hj _

/-- Settles O45: the words of `v` are XLEN bits, all of the register. -/
theorem loadingARegisterWordByWord : Obligations.LoadingARegisterWordByWord := by
  unfold Obligations.LoadingARegisterWordByWord
  intro s i v hi hp hv
  obtain ⟨⟨hdvd, -⟩, -⟩ := hi.cfg
  obtain ⟨y, hy, hmod, hrun⟩ := run_ldxWrites i v (s.cfg.xlen / 32) 0 s hi hp (by omega) (by simp [Nat.mod_one])
  rw [Nat.zero_add, Nat.mul_div_cancel' (Nat.dvd_of_mod_eq_zero hdvd), Nat.mod_eq_of_lt hy, Nat.mod_eq_of_lt hv] at hmod
  rw [evLdx_eq, hrun, hmod]
  rfl

end Sys2Proof.Machine
end

section
/-!
O37 to O42: the codec (spec/41_codec.md). A command is settled by the value its pseudocode answers: what the completion
step makes of a written register, and of a written region, is said once.
-/

namespace Sys2Proof.Machine

open Sys2Proof

/-! ### The completion of a pseudocode's writes -/

theorem exec_of_pseudo_setX {i : Instr} {s : State} {rd : XReg} {v : Nat} (h : pseudo i s = .ok (s.setX rd v)) :
    exec i s = .next (s.wroteX rd v) := by
  rw [exec_eq_complete, h]
  rfl

theorem exec_of_pseudo_memWrite {i : Instr} {s : State} {a n : Nat} {bs : List Byte}
    (h : pseudo i s = .ok ((s.memWrite a bs).setResult n)) :
    exec i s = .next (s.wroteMem (s.dmem.writeBytes a bs) n) := by
  rw [exec_eq_complete, h]
  rfl

theorem State.getX_wroteX_same (s : State) (rd : XReg) (v : Nat) : (s.wroteX rd v).getX rd = v :=
  State.getX_setX_same (s := s) rd v

/-- A command that writes a string of `n` bytes `f` over the region at `a`, and RESULT := n. -/
theorem exec_memBecomes {i : Instr} {s : State} (hw : s.dmem.wf) {a n : Nat} {bs : List Byte} {f : Nat → Byte}
    (hlen : bs.length = n) (hbs : ∀ j < n, bs.getD j 0 = f j)
    (h : pseudo i s = .ok ((s.memWrite a bs).setResult n)) :
    ∃ m, exec i s = .next (s.wroteMem m n) ∧ m.wf ∧ s.MemBecomes m a n f := by
  subst hlen
  exact ⟨_, exec_of_pseudo_memWrite h, Mem.wf_writeBytes hw a bs, memBecomes_writeBytes hw a bs f hbs⟩

/-! ### The functions of the codec -/

/-- toInteger of a string within its bound, if there is one (41_codec.md R100). -/
theorem toInteger_of_le {b : List Byte} {bound : Option Nat} (h : ∀ n, bound = some n → b.length ≤ n) :
    toInteger b bound = .ok (intBe b) := by
  cases bound with
  | none => exact toInteger_none b
  | some n => exact toInteger_some_eq_ok.2 ⟨h n rfl, rfl⟩

/-- toBytes undoes the value of a string (41_codec.md R108). -/
theorem toBytes_intBe (b : List Byte) : toBytes (intBe b) b.length = .ok b := by
  rw [toBytes_of_lt (intBe_lt b), beBytes_intBe]

/-- stripPadding of a string that is long enough (41_codec.md R104). -/
theorem stripPadding_of_le {b : List Byte} {n : Nat} (h : n ≤ b.length) :
    stripPadding b n = .ok (b.drop (b.length - n)) :=
  if_neg (Nat.not_lt.2 h)

/-- The last bytes of a region. -/
theorem getD_drop_readBytes (m : Mem) (a : Nat) {k n j : Nat} (h : k + j < n) (d : Byte) :
    ((m.readBytes a n).drop k).getD j d = m.read (a + k + j) := by
  rw [List.getD_eq_getElem?_getD, List.getElem?_drop, ← List.getD_eq_getElem?_getD, Mem.getD_readBytes m h,
    Nat.add_assoc]

/-- A region of one memory copied into another. -/
theorem read_writeBytes_readBytes {m : Mem} (hm : m.wf) (m' : Mem) (a n x : Nat) :
    (m.writeBytes a (m'.readBytes a n)).read x = if a ≤ x ∧ x < a + n then m'.read x else m.read x := by
  rw [Mem.read_writeBytes hm, Mem.length_readBytes]
  split
  case isTrue h =>
    obtain ⟨hlo, hhi⟩ := h
    rw [Mem.getD_readBytes m' (by omega), Nat.add_sub_cancel' hlo]
  case isFalse => rfl

/-! ### The commands of the codec -/

/-- B2I of a region whose value fits (41_codec.md R101). -/
theorem pseudo_b2i {rd : XReg} {f : Bool} {s : State} (hr : s.arg0.toNat + s.arg1.toNat ≤ s.cfg.dmemBytes)
    (hf : f = true → s.arg1.toNat ≤ s.arg2.toNat) (hv : bytesValue s s.arg0.toNat s.arg1.toNat < 2 ^ s.cfg.xlen) :
    pseudo (.b2i rd f) s = .ok (s.setX rd (bytesValue s s.arg0.toNat s.arg1.toNat)) := by
  refine b2i_eq_ok.2 ⟨hr, _, ?_, hv, rfl⟩
  rw [← intBe_readBytes]
  refine toInteger_of_le fun n hn => ?_
  rw [length_memRead]
  cases f with
  | false => cases hn
  | true => cases hn; exact hf rfl

/-- I2B of a register that fits the region (41_codec.md R103). -/
theorem pseudo_i2b {rs1 : XReg} {s : State} (hr : s.arg0.toNat + s.arg1.toNat ≤ s.cfg.dmemBytes)
    (hv : s.getX rs1 < 256 ^ s.arg1.toNat) : pseudo (.i2b rs1) s =
      .ok ((s.memWrite s.arg0.toNat (beBytes (s.getX rs1) s.arg1.toNat)).setResult s.arg1.toNat) :=
  i2b_eq_ok.2 ⟨hr, _, toBytes_of_lt hv, rfl⟩

/-- STRIP of a source that is long enough: the string is read before the write (41_codec.md R105, 20_memory.md R70). -/
theorem pseudo_strip {s : State} (hsrc : s.arg0.toNat + s.arg1.toNat ≤ s.cfg.dmemBytes)
    (hdst : s.arg2.toNat + s.arg3.toNat ≤ s.cfg.dmemBytes) (hle : s.arg3.toNat ≤ s.arg1.toNat) :
    pseudo .strip s = .ok ((s.memWrite s.arg2.toNat ((s.dmem.readBytes s.arg0.toNat s.arg1.toNat).drop
      (s.arg1.toNat - s.arg3.toNat))).setResult s.arg3.toNat) := by
  have ht := stripPadding_of_le (b := s.memRead s.arg0.toNat s.arg1.toNat) (n := s.arg3.toNat)
    (by rwa [length_memRead])
  rw [length_memRead] at ht
  exact strip_eq_ok.2 ⟨hsrc, hdst, _, ht, rfl⟩

/-- HASH with the digest unit present (41_codec.md R107). -/
theorem pseudo_hash {s : State} (hd : s.cfg.digestPresent = true)
    (hsrc : s.arg0.toNat + s.arg1.toNat ≤ s.cfg.dmemBytes) (hdst : s.arg2.toNat + s.cfg.dlen ≤ s.cfg.dmemBytes) :
    pseudo .hash s = .ok ((s.memWrite s.arg2.toNat
      (digest s.cfg (s.dmem.readBytes s.arg0.toNat s.arg1.toNat))).setResult s.cfg.dlen) :=
  hash_eq_ok.2 ⟨hd, hsrc, hdst, rfl⟩

/-- A register that holds the value of `n` bytes is rendered as these bytes by I2B over a region of `n` bytes. -/
theorem exec_i2b_of_intBe {rs1 : XReg} {s : State} {b : List Byte}
    (hr : s.arg0.toNat + s.arg1.toNat ≤ s.cfg.dmemBytes) (hb : b.length = s.arg1.toNat)
    (hx : s.getX rs1 = intBe b) :
    exec (.i2b rs1) s = .next (s.wroteMem (s.dmem.writeBytes s.arg0.toNat b) s.arg1.toNat) := by
  have hp := pseudo_i2b hr (by rw [hx, ← hb]; exact intBe_lt b)
  rw [hx, ← hb, beBytes_intBe] at hp
  rw [exec_of_pseudo_memWrite hp, hb]

/-- Settles O37: B2I answers the value of its region. -/
theorem b2iOutcome : Obligations.B2iOutcome := by
  unfold Obligations.B2iOutcome
  exact fun rd f s hr hf hv => exec_of_pseudo_setX (pseudo_b2i hr hf hv)

/-- Settles O38: I2B writes the big-endian rendering, byte by byte. -/
theorem i2bOutcome : Obligations.I2bOutcome := by
  unfold Obligations.I2bOutcome
  exact fun rs1 s hi hr hv =>
    exec_memBecomes hi.memWf (length_beBytes _ _) (fun j hj => getD_beBytes _ hj 0) (pseudo_i2b hr hv)

/-- Settles O39: STRIP writes the tail of the string it read, so an overlap plays no part. -/
theorem stripOutcome : Obligations.StripOutcome := by
  unfold Obligations.StripOutcome
  intro s hi hsrc hdst hle
  refine exec_memBecomes hi.memWf ?_ (fun j hj => getD_drop_readBytes _ _ (by omega) 0) (pseudo_strip hsrc hdst hle)
  rw [List.length_drop, Mem.length_readBytes]
  omega

/-- Settles O40: HASH writes the digest, a string of DLEN bytes. -/
theorem hashOutcome : Obligations.HashOutcome := by
  unfold Obligations.HashOutcome
  intro s hi hd hsrc hdst
  have hlen := length_digest s.cfg (s.dmem.readBytes s.arg0.toNat s.arg1.toNat)
  obtain ⟨m, hexec, hwf, hm⟩ := exec_memBecomes hi.memWf hlen (fun _ _ => rfl) (pseudo_hash hd hsrc hdst)
  exact ⟨m, hexec, hwf, hlen, hm⟩

/-- Settles O41: below the bound the string is the rendering, and a string is the rendering of its value. -/
theorem toBytesClosedForm : Obligations.ToBytesClosedForm := by
  unfold Obligations.ToBytesClosedForm
  refine fun v L => ⟨fun hv => ⟨beBytes v L, toBytes_of_lt hv, length_beBytes v L, ?_, ?_⟩, toBytes_of_le⟩
  · rw [intBe_beBytes, Nat.mod_eq_of_lt hv]
  · rintro b rfl rfl
    exact (beBytes_intBe b).symm

/-- Settles O42: B2I leaves the value of the region's bytes, and I2B renders it as these bytes. -/
theorem codecRoundTrip : Obligations.CodecRoundTrip := by
  unfold Obligations.CodecRoundTrip
  refine ⟨fun b => ⟨intBe b, toInteger_some_eq_ok.2 ⟨le_rfl, rfl⟩, toBytes_intBe b⟩, ?_⟩
  intro rd f s m hr hf hv hm
  have hx := (State.getX_wroteX_same s rd _).trans (intBe_readBytes s s.arg0.toNat s.arg1.toNat).symm
  exact ⟨_, _, exec_of_pseudo_setX (pseudo_b2i hr hf hv), exec_i2b_of_intBe hr (Mem.length_readBytes _ _ _) hx,
    read_writeBytes_readBytes hm s.dmem _ _⟩

end Sys2Proof.Machine
end

section
/-!
O13 to O18: montgomery_multiplier (spec/42_montgomery.md). The value before the final reduction, whose product with R is
t + k·M, decides each law of the multiply; a command is settled by the value its pseudocode answers.
-/

namespace Sys2Proof.Machine

open Sys2Proof

/-! ### The multiply before its final reduction -/

/-- `u` of R130 as the shift leaves it, before the conditional final reduction. -/
def unreduced (c : Ctx) (a b : Nat) : Nat :=
  (a * b + ((a * b * c.Mstar) &&& c.Rminus1) * c.M) / 2 ^ c.w

theorem montMul_eq_unreduced (c : Ctx) (a b : Nat) :
    montMul c a b = if unreduced c a b > c.M then unreduced c a b % c.M else unreduced c a b :=
  congrArg (fun u => if u > c.M then u % c.M else u) (Nat.shiftRight_eq_div_pow _ _)

section

variable {c : Ctx} (h : CtxLaws c)

include h

/-- The shift loses nothing (42_montgomery.md R132, law 1), and the multiple of M that is added is below R·M. -/
theorem CtxLaws.unreduced_mul_R (a b : Nat) :
    ∃ k < 2 ^ c.w, unreduced c a b * 2 ^ c.w = a * b + k * c.M :=
  ⟨_, (h.mask_eq (a * b)).trans_lt (Nat.mod_lt _ (Nat.two_pow_pos _)),
    Nat.div_mul_cancel (Nat.dvd_of_mod_eq_zero (h.sum_mod_R (a * b)))⟩

/-- The final reduction answers M for M alone: what it does reduce, it leaves below M. -/
theorem CtxLaws.montMul_eq_M_iff_unreduced (a b : Nat) : montMul c a b = c.M ↔ unreduced c a b = c.M := by
  rw [montMul_eq_unreduced]
  split
  case isTrue hgt =>
    have hlt := Nat.mod_lt (unreduced c a b) h.M_pos
    omega
  case isFalse => rfl

/-- The value before the reduction is M exactly when j + k = R for the quotients j and k of a·b and of the added
multiple by M. -/
theorem CtxLaws.unreduced_eq_M_iff (a b : Nat) :
    unreduced c a b = c.M ↔ ∃ j, 1 ≤ j ∧ j ≤ 2 ^ c.w ∧ a * b = j * c.M := by
  obtain ⟨k, hk, hu⟩ := h.unreduced_mul_R a b
  constructor
  · intro he
    refine ⟨2 ^ c.w - k, by omega, Nat.sub_le _ _, ?_⟩
    rw [he] at hu
    rw [Nat.sub_mul, Nat.mul_comm (2 ^ c.w), hu, Nat.add_sub_cancel]
  · rintro ⟨j, hj1, hjR, hab⟩
    rw [hab, ← Nat.add_mul] at hu
    have hdvd : 2 ^ c.w ∣ j + k := h.coprime_R.dvd_of_dvd_mul_right (hu ▸ Nat.dvd_mul_left _ _)
    have hsum : j + k = 2 ^ c.w := Nat.eq_of_dvd_of_lt_two_mul (by omega) hdvd (by omega)
    rw [hsum, Nat.mul_comm] at hu
    exact Nat.eq_of_mul_eq_mul_left (Nat.two_pow_pos _) hu

/-! ### The laws of the multiply (42_montgomery.md R132) -/

/-- Law 2. -/
theorem CtxLaws.montMul_mod (a b : Nat) : montMul c a b % c.M = a * b * c.Rinv % c.M :=
  (h.fromMont_eq (h.montMul_mul_R a b).symm).symm

/-- Law 4. -/
theorem CtxLaws.montMul_eq_M_iff (a b : Nat) :
    montMul c a b = c.M ↔ ∃ j, 1 ≤ j ∧ j ≤ 2 ^ c.w ∧ a * b = j * c.M :=
  (h.montMul_eq_M_iff_unreduced a b).trans (h.unreduced_eq_M_iff a b)

/-- Law 5, the range of u over reduced inputs. -/
theorem CtxLaws.unreduced_lt {a b : Nat} (ha : a < c.M) (hb : b < c.M) : unreduced c a b < 2 * c.M := by
  obtain ⟨k, hk, hu⟩ := h.unreduced_mul_R a b
  have hab : a * b < c.M * 2 ^ c.w := Nat.mul_lt_mul'' ha (hb.trans h.M_lt)
  have hkM : k * c.M ≤ c.M * 2 ^ c.w := by
    rw [Nat.mul_comm]
    exact Nat.mul_le_mul_left _ hk.le
  refine Nat.lt_of_mul_lt_mul_right (a := 2 ^ c.w) ?_
  rw [hu, Nat.mul_assoc]
  omega

/-- Law 5, the reduction is one subtraction. -/
theorem CtxLaws.montMul_eq_sub {a b : Nat} (ha : a < c.M) (hb : b < c.M) :
    montMul c a b = if unreduced c a b > c.M then unreduced c a b - c.M else unreduced c a b := by
  have hlt := h.unreduced_lt ha hb
  rw [montMul_eq_unreduced]
  split
  case isTrue hgt => rw [Nat.mod_eq_sub_mod hgt.le, Nat.mod_eq_of_lt (by omega)]
  case isFalse => rfl

/-- Law 5, when M occurs over reduced inputs: the quotient of a·b by M is below M already. -/
theorem CtxLaws.montMul_eq_M_iff_of_lt {a b : Nat} (ha : a < c.M) (hb : b < c.M) :
    montMul c a b = c.M ↔ ∃ j, 1 ≤ j ∧ a * b = j * c.M := by
  rw [h.montMul_eq_M_iff]
  constructor
  · rintro ⟨j, hj1, -, hab⟩
    exact ⟨j, hj1, hab⟩
  · rintro ⟨j, hj1, hab⟩
    have hjM : j < c.M := Nat.lt_of_mul_lt_mul_right (hab ▸ Nat.mul_lt_mul'' ha hb)
    exact ⟨j, hj1, (hjM.trans h.M_lt).le, hab⟩

/-- Law 6: a prime divides no product of two positive numbers below it. -/
theorem CtxLaws.montMul_ne_M_of_prime (hp : c.M.Prime) {a b : Nat} (ha : a < c.M) (hb : b < c.M) :
    montMul c a b ≠ c.M := by
  intro he
  obtain ⟨j, hj1, hab⟩ := (h.montMul_eq_M_iff_of_lt ha hb).1 he
  have hpos : 0 < a * b := hab ▸ Nat.mul_pos hj1 h.M_pos
  rcases hp.dvd_mul.1 (Dvd.intro_left j hab.symm) with hd | hd
  · exact Nat.not_dvd_of_pos_of_lt (Nat.pos_of_mul_pos_right hpos) ha hd
  · exact Nat.not_dvd_of_pos_of_lt (Nat.pos_of_mul_pos_left hpos) hb hd

/-- Law 7: over a composite M the product of two proper factors is 1·M. -/
theorem CtxLaws.exists_montMul_eq_M (h1 : 1 < c.M) (hp : ¬ c.M.Prime) :
    ∃ a b, a < c.M ∧ b < c.M ∧ montMul c a b = c.M := by
  obtain ⟨a, b, ha, hb, hab⟩ := (Nat.not_prime_iff_exists_mul_eq h1).1 hp
  exact ⟨a, b, ha, hb, (h.montMul_eq_M_iff_of_lt ha hb).2 ⟨1, le_rfl, by rw [hab, Nat.one_mul]⟩⟩

/-! ### The domain transforms -/

/-- `fromMont` divides by R (42_montgomery.md R128). -/
theorem CtxLaws.fromMont_mul_R (a : Nat) : fromMont c a * 2 ^ c.w ≡ a [MOD c.M] := by
  calc fromMont c a * 2 ^ c.w ≡ a * c.Rinv * 2 ^ c.w [MOD c.M] := (Nat.mod_modEq _ _).mul_right _
    _ = a * (2 ^ c.w * c.Rinv) := by ring
    _ ≡ a * 1 [MOD c.M] := Nat.ModEq.mul_left _ h.Rinv_eq
    _ = a := Nat.mul_one a

/-- The product of two transformed numbers is the transformed product: one factor R is left (42_montgomery.md R134). -/
theorem CtxLaws.montMul_toMont (a b : Nat) :
    montMul c (toMont c a) (toMont c b) ≡ a * b * 2 ^ c.w [MOD c.M] := by
  refine Nat.ModEq.cancel_right_of_coprime h.coprime_R.symm ?_
  calc montMul c (toMont c a) (toMont c b) * 2 ^ c.w ≡ toMont c a * toMont c b [MOD c.M] := h.montMul_mul_R _ _
    _ ≡ a * 2 ^ c.w * (b * 2 ^ c.w) [MOD c.M] := (Nat.mod_modEq _ _).mul (Nat.mod_modEq _ _)
    _ = a * b * 2 ^ c.w * 2 ^ c.w := by ring

/-- The Montgomery property (42_montgomery.md R134). -/
theorem CtxLaws.fromMont_montMul_toMont (a b : Nat) :
    fromMont c (montMul c (toMont c a) (toMont c b)) = a * b % c.M :=
  h.fromMont_eq (h.montMul_toMont a b)

end

/-! ### The commands -/

theorem exec_of_pseudo_error {i : Instr} {s : State} {e : Err} (h : pseudo i s = .error e) :
    exec i s = .next (s.failed e) := by
  rw [exec_eq_complete, h]
  rfl

/-- A pseudocode that reads an invalid slot stops there (42_montgomery.md R135). -/
theorem getCtx_bind_of_invalid {α : Type} {s : State} {c : CtxSlot} (hv : (s.ctx c).valid = false)
    (f : Ctx → Except Err α) : (s.getCtx c >>= f) = .error .notReady :=
  bind_eq_error.2 (.inl (getCtx_eq_error.2 ⟨hv, rfl⟩))

@[simp] theorem State.wroteX_ctx (s : State) (rd : XReg) (v : Nat) (c : CtxSlot) : (s.wroteX rd v).ctx c = s.ctx c := by
  cases c <;> rfl

theorem State.getX_wroteX_other (s : State) {rd r : XReg} (v : Nat) (h : r ≠ rd) :
    (s.wroteX rd v).getX r = s.getX r :=
  State.getX_setX_other (s := s) v h

theorem exec_mctx_of_odd {rs1 : XReg} {s : State} (h : s.getX rs1 % 2 = 1) :
    exec (.mctx rs1) s = .next (s.wroteCtxU (oddCtx (s.getX rs1))) := by
  have hp : pseudo (.mctx rs1) s = .ok _ := mctx_eq_ok.2 ⟨_, buildCtx_of_odd h, rfl⟩
  rw [exec_eq_complete, hp]
  rfl

theorem exec_mctx_of_even {rs1 : XReg} {s : State} (h : s.getX rs1 % 2 = 0) :
    exec (.mctx rs1) s = .next (s.failed .invalidModulus) :=
  exec_of_pseudo_error (bind_eq_error.2 (.inl (buildCtx_of_even h)))

section

variable {s : State} {c : CtxSlot} (hv : (s.ctx c).valid = true) (rd rs1 rs2 : XReg)

include hv

theorem exec_tomont : exec (.tomont rd rs1 c) s = .next (s.wroteX rd (toMont (s.ctx c) (s.getX rs1))) :=
  exec_of_pseudo_setX (tomont_eq_ok.2 ⟨hv, rfl⟩)

theorem exec_frommont : exec (.frommont rd rs1 c) s = .next (s.wroteX rd (fromMont (s.ctx c) (s.getX rs1))) :=
  exec_of_pseudo_setX (frommont_eq_ok.2 ⟨hv, rfl⟩)

theorem exec_montmul : exec (.montmul rd rs1 rs2 c) s =
    .next (s.wroteX rd (montMul (s.ctx c) (s.getX rs1) (s.getX rs2))) :=
  exec_of_pseudo_setX (montmul_eq_ok.2 ⟨hv, rfl⟩)

end

/-- The constants in the order of their selectors (42_montgomery.md R133). -/
theorem ctxField_of_le (c : Ctx) {sel : BitVec 4} (h : sel.toNat ≤ 4) :
    ctxField c sel = .ok ([c.M, c.w, c.Rinv, c.Rminus1, c.Mstar].getD sel.toNat 0) := by
  unfold ctxField
  generalize sel.toNat = n at h
  interval_cases n <;> rfl

/-- Settles O13: the odd moduli have a context, and it is good. -/
theorem mctxOutcome : Obligations.MctxOutcome := by
  unfold Obligations.MctxOutcome
  intro rs1 s hi
  refine ⟨fun hodd => ?_, exec_mctx_of_even⟩
  exact ⟨oddCtx (s.getX rs1), exec_mctx_of_odd hodd, rfl, rfl, hi.oddCtx_good hodd (hi.x rs1)⟩

/-- Settles O14: the transforms multiply by R and by its inverse. -/
theorem domainTransformOutcome : Obligations.DomainTransformOutcome := by
  unfold Obligations.DomainTransformOutcome
  intro rd rs1 c s hi
  constructor
  · intro hv
    have hc := (hi.ctxGood hv).toCtxLaws
    exact ⟨exec_tomont hv rd rs1, _, exec_frommont hv rd rs1, rfl, fromMont_lt hc _, hc.fromMont_mul_R _⟩
  · intro hv
    exact ⟨exec_of_pseudo_error (getCtx_bind_of_invalid hv _), exec_of_pseudo_error (getCtx_bind_of_invalid hv _)⟩

/-- Settles O15: by laws 3 and 4 of the multiply, and the residue of its product with R. -/
theorem montmulOutcome : Obligations.MontmulOutcome := by
  unfold Obligations.MontmulOutcome
  intro rd rs1 rs2 c s hi
  constructor
  · intro hv
    have hc := (hi.ctxGood hv).toCtxLaws
    exact ⟨_, exec_montmul hv rd rs1 rs2, hc.montMul_le _ _, hc.montMul_mul_R _ _, hc.montMul_eq_M_iff _ _⟩
  · exact fun hv => exec_of_pseudo_error (getCtx_bind_of_invalid hv _)

/-- Settles O16: the seven laws, in order. -/
theorem montMulLaws : Obligations.MontMulLaws := by
  unfold Obligations.MontMulLaws
  intro xlen c hg
  have hc := hg.toCtxLaws
  refine ⟨fun a b => ⟨hc.sum_mod_R _, hc.montMul_mod a b, hc.montMul_le a b, hc.montMul_eq_M_iff a b, ?_, ?_⟩,
    hc.exists_montMul_eq_M⟩
  · exact fun ha hb => ⟨hc.unreduced_lt ha hb, hc.montMul_eq_sub ha hb, hc.montMul_eq_M_iff_of_lt ha hb⟩
  · exact fun hp ha hb => hc.montMul_ne_M_of_prime hp ha hb

/-- Settles O18: the commands run the functions, and each operand is still there when it is read. -/
theorem montgomeryProperty : Obligations.MontgomeryProperty := by
  unfold Obligations.MontgomeryProperty
  refine ⟨fun xlen c hg => hg.toCtxLaws.fromMont_montMul_toMont, ?_⟩
  intro s c ra rb rx ry rz ro hi hv hxb hxy
  refine ⟨_, _, _, _, exec_tomont hv rx ra, exec_tomont ?_ ry rb, exec_montmul ?_ rz rx ry,
    exec_frommont ?_ ro rz, ?_⟩
  case refine_4 =>
    simp only [State.wroteX_ctx, State.getX_wroteX_same, State.getX_wroteX_other _ _ hxy,
      State.getX_wroteX_other _ _ hxb.symm]
    exact (hi.ctxGood hv).toCtxLaws.fromMont_montMul_toMont _ _
  all_goals simpa only [State.wroteX_ctx] using hv

/-- Settles O17: a legal selector names a constant of the slot. -/
theorem ctxrdOutcome : Obligations.CtxrdOutcome := by
  unfold Obligations.CtxrdOutcome
  intro rd c sel s hsel
  have hlegal : ctxSelLegal sel = true := decide_eq_true hsel
  constructor
  · exact fun hv => exec_of_pseudo_setX (ctxrd_eq_ok.2 ⟨hlegal, hv, _, ctxField_of_le _ hsel, rfl⟩)
  · intro hv
    exact exec_of_pseudo_error (bind_eq_error.2 (.inr ⟨(), check_eq_ok.2 hlegal, getCtx_bind_of_invalid hv _⟩))

end Sys2Proof.Machine
end

section
/-!
O20 and O21: modular_exponentiator (spec/43_modexp.md). In the loop the accumulator has the residue of b^q·R, for q the
bits of the exponent already consumed; MODPOW writes what the loop leaves, transformed back.
-/

namespace Sys2Proof.Machine

open Sys2Proof

section

variable {c : Ctx} (h : CtxLaws c)

include h

/-- The multiply keeps Montgomery form, over operands that need not be reduced: the accumulator may be M
(43_modexp.md R150). -/
theorem CtxLaws.montMul_modEq {x y a b : Nat} (hx : x ≡ a * 2 ^ c.w [MOD c.M]) (hy : y ≡ b * 2 ^ c.w [MOD c.M]) :
    montMul c x y ≡ a * b * 2 ^ c.w [MOD c.M] := by
  refine Nat.ModEq.cancel_right_of_coprime h.coprime_R.symm ?_
  calc montMul c x y * 2 ^ c.w ≡ x * y [MOD c.M] := h.montMul_mul_R x y
    _ ≡ a * 2 ^ c.w * (b * 2 ^ c.w) [MOD c.M] := hx.mul hy
    _ = a * b * 2 ^ c.w * 2 ^ c.w := by ring

/-- One turn of the loop: the square doubles the exponent `q`, and the multiply adds the next bit. -/
theorem CtxLaws.squareMultiply_modEq {bBar x b q : Nat} (hb : bBar ≡ b * 2 ^ c.w [MOD c.M])
    (hx : x ≡ b ^ q * 2 ^ c.w [MOD c.M]) (bit : Bool) :
    (if bit then montMul c (montMul c x x) bBar else montMul c x x) ≡
      b ^ (2 * q + bit.toNat) * 2 ^ c.w [MOD c.M] := by
  have hsq : montMul c x x ≡ b ^ (2 * q) * 2 ^ c.w [MOD c.M] := by
    rw [two_mul, pow_add]
    exact h.montMul_modEq hx hx
  cases bit with
  | false => exact hsq
  | true => exact h.montMul_modEq hsq hb

/-- The loop's invariant: after the bits above the low `n`, the accumulator has the power to the exponent they make. -/
theorem CtxLaws.modPowLoop_modEq {bBar b : Nat} (hb : bBar ≡ b * 2 ^ c.w [MOD c.M]) (e n x : Nat)
    (hx : x ≡ b ^ (e / 2 ^ n) * 2 ^ c.w [MOD c.M]) :
    modPowLoop c bBar e n x ≡ b ^ e * 2 ^ c.w [MOD c.M] := by
  induction n generalizing x with
  | zero =>
    rw [pow_zero, Nat.div_one] at hx
    exact hx
  | succ i ih =>
    have hbits : 2 * (e / 2 ^ (i + 1)) + (e.testBit i).toNat = e / 2 ^ i := by
      rw [Nat.toNat_testBit, pow_succ, ← Nat.div_div_eq_div_mul, Nat.div_add_mod]
    exact ih _ (hbits ▸ h.squareMultiply_modEq hb hx (e.testBit i))

/-- `modPow` is modular exponentiation (43_modexp.md R152). -/
theorem CtxLaws.modPow_eq (b e : Nat) : modPow c b e = b ^ e % c.M := by
  have hstart : toMont c 1 ≡ b ^ (e / 2 ^ bitLength e) * 2 ^ c.w [MOD c.M] := by
    rw [Nat.div_eq_of_lt (lt_two_pow_bitLength e), pow_zero]
    exact Nat.mod_modEq _ _
  exact h.fromMont_eq (h.modPowLoop_modEq (Nat.mod_modEq _ _) e (bitLength e) (toMont c 1) hstart)

end

theorem exec_modpow {s : State} {c : CtxSlot} (hv : (s.ctx c).valid = true) (rd rs1 rs2 : XReg) :
    exec (.modpow rd rs1 rs2 c) s = .next (s.wroteX rd (modPow (s.ctx c) (s.getX rs1) (s.getX rs2))) :=
  exec_of_pseudo_setX (modpow_eq_ok.2 ⟨hv, rfl⟩)

/-- Settles O20: the closed form names M alone, so neither the width nor the other constants play a part. -/
theorem modPowIsExponentiation : Obligations.ModPowIsExponentiation := by
  unfold Obligations.ModPowIsExponentiation
  refine fun c hc b e => ⟨hc.modPow_eq b e, pow_zero b ▸ hc.modPow_eq b 0, ?_⟩
  intro c' hc' hM
  rw [hc'.modPow_eq, hc.modPow_eq, hM]

/-- Settles O21: a valid slot of the invariant is a context of R152. -/
theorem modpowOutcome : Obligations.ModpowOutcome := by
  unfold Obligations.ModpowOutcome
  intro rd rs1 rs2 c s hi
  constructor
  · intro hv
    rw [exec_modpow hv, (hi.ctxGood hv).toCtxLaws.modPow_eq]
  · exact fun hv => exec_of_pseudo_error (getCtx_bind_of_invalid hv _)

end Sys2Proof.Machine
end

section
/-!
O22 to O26: the public-key side of rsa_sign_verify_engine (spec/44_public_key.md). ENCRYPT, ENCBYTES, VERIFY and
VERIFYMSG all run `encryptVal`, whose closed form is said once; VERIFY and VERIFYMSG share `verifyVal`.
-/

namespace Sys2Proof.Machine

open Sys2Proof

/-! ### Strings of equal length -/

theorem eq_of_intBe_eq {a b : List Byte} (hlen : a.length = b.length) (h : intBe a = intBe b) : a = b := by
  rw [← beBytes_intBe a, hlen, h, beBytes_intBe]

theorem beBytes_eq_iff {v n : Nat} {b : List Byte} (hlen : b.length = n) :
    beBytes v n = b ↔ intBe b = v % 256 ^ n := by
  constructor
  · rintro rfl
    exact intBe_beBytes v n
  · intro h
    refine eq_of_intBe_eq ?_ ?_
    · rw [length_beBytes, hlen]
    · rw [intBe_beBytes, h]

theorem beBytes_add (v k n : Nat) : beBytes v (k + n) = beBytes (v / 256 ^ n) k ++ beBytes v n := by
  induction n generalizing v with
  | zero => simp [beBytes]
  | succ n ih =>
    rw [← Nat.add_assoc, beBytes, ih, Nat.div_div_eq_div_mul, ← Nat.pow_succ', beBytes, List.append_assoc]

/-- The last n bytes of a rendering are the rendering at n bytes (41_codec.md R104, 44_public_key.md R166). -/
theorem stripPadding_beBytes (v : Nat) {n L : Nat} (h : n ≤ L) :
    stripPadding (beBytes v L) n = .ok (beBytes v n) := by
  obtain ⟨k, rfl⟩ := Nat.exists_eq_add_of_le' h
  rw [stripPadding_of_le (by rwa [length_beBytes]), length_beBytes, Nat.add_sub_cancel, beBytes_add,
    List.drop_left' (length_beBytes _ _)]

/-! ### The public transform -/

section

variable {s : State} (hi : s.Inv) (hv : s.pub.valid = true)

include hi hv

/-- The transform is exponentiation over PUB (44_public_key.md R162): ctx[N] is over its modulus. -/
theorem State.Inv.encryptVal_eq (m : Nat) : s.encryptVal m = m ^ s.pub.e % s.pub.N := by
  obtain ⟨-, hM⟩ := hi.pub hv
  have hc := (hi.slotN (hi.validN.trans hv)).toCtxLaws
  exact hM ▸ hc.modPow_eq m s.pub.e

/-- The value fits k bytes, so rendering it never raises (44_public_key.md R164). -/
theorem State.Inv.encryptVal_lt_pow (m : Nat) : s.encryptVal m < 256 ^ s.pub.k := by
  obtain ⟨hg, -⟩ := hi.pub hv
  have hpos : 0 < s.pub.N := by have := hg.N_odd; omega
  rw [hi.encryptVal_eq hv, hg.k_eq]
  exact (Nat.mod_lt _ hpos).trans (lt_pow_byteLen _)

/-- `encryptBytes` of a string within its bound (44_public_key.md R164). -/
theorem State.Inv.encryptBytes_eq {b : List Byte} (h : b.length ≤ s.pub.k) :
    s.encryptBytes b = .ok (beBytes (intBe b ^ s.pub.e % s.pub.N) s.pub.k) := by
  refine bind_eq_ok.2 ⟨intBe b, toInteger_some_eq_ok.2 ⟨h, rfl⟩, ?_⟩
  rw [toBytes_of_lt (hi.encryptVal_lt_pow hv _), hi.encryptVal_eq hv]

/-- `verify` of a signature within its bound: the comparison of strings is one of values (44_public_key.md R166). -/
theorem State.Inv.verifyVal_eq {sig dig : List Byte} (h : sig.length ≤ s.pub.k) :
    s.verifyVal sig dig = .ok (if dig.length = s.cfg.dlen ∧
      intBe dig = intBe sig ^ s.pub.e % s.pub.N % 256 ^ s.cfg.dlen then 1 else 0) := by
  have hfits : s.encryptVal (intBe sig) < 256 ^ max s.pub.k s.cfg.dlen :=
    (hi.encryptVal_lt_pow hv _).trans_le (Nat.pow_le_pow_right (by decide) (le_max_left _ _))
  refine bind_eq_ok.2 ⟨_, toInteger_some_eq_ok.2 ⟨h, rfl⟩, bind_eq_ok.2 ⟨_, toBytes_of_lt hfits,
    bind_eq_ok.2 ⟨_, stripPadding_beBytes _ (le_max_right _ _), congrArg Except.ok ?_⟩⟩⟩
  rw [hi.encryptVal_eq hv]
  exact if_congr (and_congr_right beBytes_eq_iff) rfl rfl

end

/-! ### The commands -/

theorem exec_of_pseudo_setResult {i : Instr} {s : State} {v : Nat} (h : pseudo i s = .ok (s.setResult v)) :
    exec i s = .next (s.wroteResult v) := by
  rw [exec_eq_complete, h]
  rfl

theorem exec_loadpub_of_odd {rs1 : XReg} (rs2 : XReg) {s : State} (h : s.getX rs1 % 2 = 1) :
    exec (.loadpub rs1 rs2) s = .next (s.wrotePub ⟨true, s.getX rs1, s.getX rs2, byteLen (s.getX rs1)⟩
      (oddCtx (s.getX rs1))) := by
  have hp : pseudo (.loadpub rs1 rs2) s = .ok _ := loadpub_eq_ok.2 ⟨_, buildCtx_of_odd h, rfl⟩
  rw [exec_eq_complete, hp]
  rfl

/-- The value of the digest of the data region, which SIGN and VERIFYMSG compute alike (44_public_key.md R169,
45_private_key.md R192). -/
def State.dataDigest (s : State) : Nat := intBe (digest s.cfg (s.dmem.readBytes s.arg0.toNat s.arg1.toNat))

theorem State.dataDigest_lt (s : State) : s.dataDigest < 256 ^ s.cfg.dlen := by
  have h := intBe_lt (digest s.cfg (s.dmem.readBytes s.arg0.toNat s.arg1.toNat))
  rwa [length_digest] at h

/-- VERIFYMSG compares a digest that always has DLEN bytes (44_public_key.md R169). -/
theorem pseudo_verifymsg {s : State} (hi : s.Inv) (hd : s.cfg.digestPresent = true) (hv : s.pub.valid = true)
    (hdata : s.arg0.toNat + s.arg1.toNat ≤ s.cfg.dmemBytes) (hsig : s.arg2.toNat + s.arg3.toNat ≤ s.cfg.dmemBytes)
    (hle : s.arg3.toNat ≤ s.pub.k) :
    pseudo .verifymsg s = .ok (s.setResult
      (if s.dataDigest = bytesValue s s.arg2.toNat s.arg3.toNat ^ s.pub.e % s.pub.N % 256 ^ s.cfg.dlen
        then 1 else 0)) := by
  have hr := hi.verifyVal_eq hv (sig := s.memRead s.arg2.toNat s.arg3.toNat)
    (dig := digest s.cfg (s.memRead s.arg0.toNat s.arg1.toNat)) (by rwa [length_memRead])
  simp only [length_digest, true_and, State.memRead, intBe_readBytes] at hr
  exact verifymsg_eq_ok.2 ⟨hd, hv, hdata, hsig, _, hr, rfl⟩

/-- Settles O22: the odd moduli have a context, and it is good. -/
theorem loadpubOutcome : Obligations.LoadpubOutcome := by
  unfold Obligations.LoadpubOutcome
  intro rs1 rs2 s hi
  constructor
  · exact fun hodd => ⟨_, exec_loadpub_of_odd rs2 hodd, rfl, rfl, hi.oddCtx_good hodd (hi.x rs1)⟩
  · exact fun heven => exec_of_pseudo_error (bind_eq_error.2 (.inl (buildCtx_of_even heven)))

/-- Settles O23: ENCRYPT writes the public transform of its register. -/
theorem encryptOutcome : Obligations.EncryptOutcome := by
  unfold Obligations.EncryptOutcome
  intro rd rs1 s hi
  constructor
  · intro hv
    rw [← hi.encryptVal_eq hv]
    exact exec_of_pseudo_setX (encrypt_eq_ok.2 ⟨hv, rfl⟩)
  · exact fun hv => exec_of_pseudo_error (bind_eq_error.2 (.inl (needPub_eq_error.2 ⟨hv, rfl⟩)))

/-- Settles O24: ENCBYTES writes the rendering of the transform of the bytes it read. -/
theorem encbytesOutcome : Obligations.EncbytesOutcome := by
  unfold Obligations.EncbytesOutcome
  intro s hi hv hsrc hdst hle
  have hb := hi.encryptBytes_eq hv (b := s.memRead s.arg0.toNat s.arg1.toNat) (by rwa [length_memRead])
  simp only [State.memRead, intBe_readBytes] at hb
  exact exec_memBecomes hi.memWf (length_beBytes _ _) (fun j hj => getD_beBytes _ hj 0)
    (encbytes_eq_ok.2 ⟨hv, hsrc, hdst, _, hb, rfl⟩)

/-- Settles O25: RESULT is the answer of `verify`, which raises nothing for a signature within its bound. -/
theorem verifyOutcome : Obligations.VerifyOutcome := by
  unfold Obligations.VerifyOutcome
  intro s hi hv hsig hdig hle
  have hr := hi.verifyVal_eq hv (sig := s.memRead s.arg0.toNat s.arg1.toNat)
    (dig := s.memRead s.arg2.toNat s.arg3.toNat) (by rwa [length_memRead])
  simp only [State.memRead, intBe_readBytes, Mem.length_readBytes] at hr
  exact exec_of_pseudo_setResult (verify_eq_ok.2 ⟨hv, hsig, hdig, _, hr, rfl⟩)

/-- Settles O26: a digest has DLEN bytes whatever function it is, so the values alone decide. -/
theorem verifymsgOutcome : Obligations.VerifymsgOutcome := by
  unfold Obligations.VerifymsgOutcome
  exact fun s hi hd hv hdata hsig hle => exec_of_pseudo_setResult (pseudo_verifymsg hi hd hv hdata hsig hle)

end Sys2Proof.Machine
end

section
/-!
O36: what SIGN writes, VERIFYMSG accepts (spec/44_public_key.md R168, law 1). The CRT path of SIGN has the residues
c^dp mod p and c^dq mod q, each of which the exponent e takes back to c by Fermat's theorem.
-/

namespace Sys2Proof.Machine

open Sys2Proof

/-! ### Regions after a write -/

theorem Mem.readBytes_congr {m m' : Mem} {a n : Nat} (h : ∀ j < n, m'.read (a + j) = m.read (a + j)) :
    m'.readBytes a n = m.readBytes a n :=
  List.map_congr_left fun j hj => h j (List.mem_range.1 hj)

/-- A region just written reads as the string. -/
theorem Mem.readBytes_writeBytes_same {m : Mem} (hm : m.wf) (a : Nat) (bs : List Byte) :
    (m.writeBytes a bs).readBytes a bs.length = bs := by
  refine List.ext_getElem (by rw [Mem.length_readBytes]) fun j hj hbs => ?_
  rw [← List.getD_eq_getElem _ 0 hj, ← List.getD_eq_getElem _ 0 hbs, Mem.getD_readBytes _ hbs,
    Mem.read_writeBytes hm, if_pos (by omega), Nat.add_sub_cancel_left]

/-- A region apart from the written one reads as before. -/
theorem Mem.readBytes_writeBytes_apart {m : Mem} (hm : m.wf) {a b n : Nat} {bs : List Byte}
    (h : b + n ≤ a ∨ a + bs.length ≤ b) : (m.writeBytes a bs).readBytes b n = m.readBytes b n := by
  refine Mem.readBytes_congr fun j hj => ?_
  rw [Mem.read_writeBytes hm, if_neg (by omega)]

/-! ### The CRT path -/

/-- The combination has the residue `m2` mod q (45_private_key.md R186). -/
theorem crtComb_modEq_q (k : Priv) (m1 m2 : Nat) : crtComb k m1 m2 ≡ m2 [MOD k.q] :=
  Nat.add_mul_mod_self_right m2 _ k.q

/-- The combination has the residue `m1` mod p: `qInv` takes away the factor q (45_private_key.md R186). -/
theorem PrivGood.crtComb_modEq_p {cfg : Config} {k : Priv} (h : PrivGood cfg k) (m1 m2 : Nat) :
    crtComb k m1 m2 ≡ m1 [MOD k.p] := by
  have hp : (k.p : Int) ≠ 0 := by have := h.p_ge; omega
  have hinv : (k.q : Int) * k.qInv ≡ 1 [ZMOD k.p] := by
    exact_mod_cast (Int.natCast_modEq_iff.2 h.qInv_eq : ((k.q * k.qInv : Nat) : Int) ≡ (1 : Nat) [ZMOD k.p])
  refine Int.natCast_modEq_iff.1 ?_
  rw [crtComb, Nat.cast_add, Nat.cast_mul, Int.toNat_of_nonneg (Int.emod_nonneg _ hp)]
  calc (m2 : Int) + k.qInv * ((m1 : Int) - m2) % k.p * k.q
      ≡ m2 + k.qInv * ((m1 : Int) - m2) * k.q [ZMOD k.p] := ((Int.mod_modEq _ _).mul_right _).add_left _
    _ = m2 + k.q * k.qInv * ((m1 : Int) - m2) := by ring
    _ ≡ m2 + 1 * ((m1 : Int) - m2) [ZMOD k.p] := (hinv.mul_right _).add_left _
    _ = m1 := by ring

section

variable {s : State} (hi : s.Inv) (hv : s.priv.valid = true) (c : Nat)

include hi hv

/-- The residues of the CRT path (45_private_key.md R188). -/
theorem State.Inv.decryptVal_modEq :
    s.decryptVal c ≡ c ^ s.priv.dp [MOD s.priv.p] ∧ s.decryptVal c ≡ c ^ s.priv.dq [MOD s.priv.q] := by
  obtain ⟨hg, hP, hQ⟩ := hi.priv hv
  have hm1 := (hi.slotP (hi.validP.trans hv)).toCtxLaws.modPow_eq c s.priv.dp
  have hm2 := (hi.slotQ (hi.validQ.trans hv)).toCtxLaws.modPow_eq c s.priv.dq
  rw [State.decryptVal, hm1, hm2, hP, hQ]
  exact ⟨(hg.crtComb_modEq_p _ _).trans (Nat.mod_modEq _ _), (crtComb_modEq_q _ _ _).trans (Nat.mod_modEq _ _)⟩

theorem State.Inv.decryptVal_lt_N : s.decryptVal c < s.priv.N := by
  obtain ⟨hg, -, hQ⟩ := hi.priv hv
  have hm2 := modPow_lt (hi.slotQ (hi.validQ.trans hv)).toCtxLaws c s.priv.dq
  rw [hg.N_eq]
  exact crtComb_lt (by have := hg.p_ge; omega) _ (hQ ▸ hm2)

theorem State.Inv.decryptVal_lt_pow : s.decryptVal c < 256 ^ s.priv.k := by
  obtain ⟨hg, -⟩ := hi.priv hv
  rw [hg.k_eq]
  exact (hi.decryptVal_lt_N hv c).trans (lt_pow_byteLen _)

end

/-! ### The exponents undo each other -/

/-- The reduced exponents are inverses of e (45_private_key.md R180). -/
theorem PrivGood.reduced_mul_e {cfg : Config} {k : Priv} (h : PrivGood cfg k) :
    k.dp * k.e ≡ 1 [MOD k.p - 1] ∧ k.dq * k.e ≡ 1 [MOD k.q - 1] := by
  have hd : k.d * k.e ≡ 1 [MOD (k.p - 1) * (k.q - 1)] := h.d_eq
  rw [h.dp_eq, h.dq_eq]
  exact ⟨((Nat.mod_modEq _ _).mul_right _).trans (hd.of_mul_right _),
    ((Nat.mod_modEq _ _).mul_right _).trans (hd.of_mul_left _)⟩

/-- Fermat's theorem for inverse exponents mod p - 1. The exponent d·e is not 0, so this holds of multiples of p
too. -/
theorem pow_pow_modEq_self {p d e : Nat} (hp : p.Prime) (h3 : 3 ≤ p) (h : d * e ≡ 1 [MOD p - 1]) (c : Nat) :
    (c ^ d) ^ e ≡ c [MOD p] := by
  have hpos : 1 ≤ d * e := by
    refine Nat.one_le_iff_ne_zero.2 fun h0 => ?_
    have hdvd : p - 1 ∣ 1 := (Nat.modEq_zero_iff_dvd).1 (h0 ▸ h).symm
    have := Nat.le_of_dvd one_pos hdvd
    omega
  have := Int.ModEq.pow_eq_pow hp ((Nat.modEq_iff_dvd' hpos).1 h.symm) hpos one_pos c
  rw [pow_one, pow_mul] at this
  exact_mod_cast this

/-- The public transform undoes the CRT path (45_private_key.md R193). -/
theorem State.Inv.encryptVal_decryptVal {s : State} (hi : s.Inv) (hk : s.PrimeKey) (c : Nat) :
    s.encryptVal (s.decryptVal c) = c % s.priv.N := by
  obtain ⟨hv, hp, hq, hpub, hN, he⟩ := hk
  obtain ⟨hg, -⟩ := hi.priv hv
  obtain ⟨hdp, hdq⟩ := hg.reduced_mul_e
  obtain ⟨hresP, hresQ⟩ := hi.decryptVal_modEq hv c
  rw [hi.encryptVal_eq hpub, hN, he, hg.N_eq]
  refine (Nat.modEq_and_modEq_iff_modEq_mul (Nat.Coprime.symm hg.coprime)).1 ⟨?_, ?_⟩
  · exact (hresP.pow _).trans (pow_pow_modEq_self hp hg.p_ge hdp c)
  · exact (hresQ.pow _).trans (pow_pow_modEq_self hq hg.q_ge hdq c)

/-- PUB, when it is derived from PRIV, has its k (10_state.md R30). -/
theorem State.Inv.pub_k_eq_priv_k {s : State} (hi : s.Inv) (hk : s.PrimeKey) : s.pub.k = s.priv.k := by
  obtain ⟨hv, -, -, hpub, hN, -⟩ := hk
  obtain ⟨hgPriv, -⟩ := hi.priv hv
  obtain ⟨hgPub, -⟩ := hi.pub hpub
  rw [hgPub.k_eq, hgPriv.k_eq, hN]

/-! ### SIGN, then VERIFYMSG -/

/-- The bytes SIGN writes: the CRT path of the data's digest (45_private_key.md R192). -/
def State.signature (s : State) : List Byte := beBytes (s.decryptVal s.dataDigest) s.priv.k

theorem State.length_signature (s : State) : s.signature.length = s.priv.k := length_beBytes _ _

/-- The signature is never too wide (45_private_key.md R192). -/
theorem pseudo_sign {s : State} (hi : s.Inv) (hd : s.cfg.digestPresent = true) (hv : s.priv.valid = true)
    (hdata : s.arg0.toNat + s.arg1.toNat ≤ s.cfg.dmemBytes) (hsig : s.arg2.toNat + s.priv.k ≤ s.cfg.dmemBytes) :
    pseudo .sign s = .ok ((s.memWrite s.arg2.toNat s.signature).setResult s.priv.k) :=
  sign_eq_ok.2 ⟨hd, hv, hdata, hsig, _, toBytes_of_lt (hi.decryptVal_lt_pow hv _), rfl⟩

theorem State.Inv.intBe_signature {s : State} (hi : s.Inv) (hv : s.priv.valid = true) :
    intBe s.signature = s.decryptVal s.dataDigest := by
  rw [State.signature, intBe_beBytes, Nat.mod_eq_of_lt (hi.decryptVal_lt_pow hv _)]

/-- Law 1 as a function: the transform of the signature's value is the digest (44_public_key.md R168). -/
theorem State.Inv.dataDigest_eq_of_signature {s : State} (hi : s.Inv) (hk : s.PrimeKey)
    (hlt : s.dataDigest < s.priv.N) :
    s.dataDigest = intBe s.signature ^ s.pub.e % s.pub.N % 256 ^ s.cfg.dlen := by
  have ⟨hv, _, _, hpub, _⟩ := hk
  rw [hi.intBe_signature hv, ← hi.encryptVal_eq hpub, hi.encryptVal_decryptVal hk, Nat.mod_eq_of_lt hlt,
    Nat.mod_eq_of_lt s.dataDigest_lt]

/-- Settles O36: VERIFYMSG reads the data as SIGN did and the signature as SIGN wrote it, and the transform of its
value is the digest. -/
theorem signedMessageVerifies : Obligations.SignedMessageVerifies := by
  unfold Obligations.SignedMessageVerifies
  intro s hi hk hd hdata hsig hapart hlt
  have ⟨hv, _, _, hpub, _⟩ := hk
  refine ⟨_, exec_of_pseudo_memWrite (pseudo_sign hi hd hv hdata hsig), ?_⟩
  intro u
  have hu : u.Inv := by
    have hmem := hi.memWrite (a := s.arg2.toNat) (b := s.signature) (by rwa [s.length_signature])
    exact (hmem.setResult s.priv.k).succeed.setArg 3 _
  have harg3 : u.arg3.toNat = s.priv.k := by
    obtain ⟨-, ⟨-, -, hle⟩, -⟩ := hi.cfg
    exact (BitVec.toNat_ofNat _ _).trans (Nat.mod_eq_of_lt (by omega))
  have hdigest : u.dataDigest = s.dataDigest :=
    congrArg (fun b => intBe (digest s.cfg b)) (Mem.readBytes_writeBytes_apart hi.memWf (by rwa [s.length_signature]))
  have hvalue : bytesValue u u.arg2.toNat u.arg3.toNat = intBe s.signature := by
    rw [← intBe_readBytes, harg3, ← s.length_signature]
    exact congrArg intBe (Mem.readBytes_writeBytes_same hi.memWf _ _)
  have hmatch : u.dataDigest =
      bytesValue u u.arg2.toNat u.arg3.toNat ^ u.pub.e % u.pub.N % 256 ^ u.cfg.dlen := by
    rw [hdigest, hvalue]
    exact hi.dataDigest_eq_of_signature hk hlt
  have hverify := pseudo_verifymsg hu hd hpub hdata (harg3 ▸ hsig) (harg3 ▸ (hi.pub_k_eq_priv_k hk).ge)
  rw [if_pos hmatch] at hverify
  exact exec_of_pseudo_setResult hverify

end Sys2Proof.Machine
end

section
/-!
O27 to O35: key loads, decryption and signing (spec/45_private_key.md). What a key load answers is decided by `keyLoadError`.
DECRYPT, DECBYTES and SIGN all run `decryptVal`, which over primes is the exponentiation R191 takes as its oracle.
-/

namespace Sys2Proof.Machine

open Sys2Proof

/-! ### Key loads -/

theorem bind_of_error {α β : Type} {x : Except Err α} {e : Err} (h : x = .error e) (f : α → Except Err β) :
    (x >>= f) = .error e :=
  bind_eq_error.2 (.inl h)

theorem bind_of_ok_of_error {α β : Type} {x : Except Err α} {f : α → Except Err β} {a : α} {e : Err}
    (hx : x = .ok a) (hf : f a = .error e) : (x >>= f) = .error e :=
  bind_eq_error.2 (.inr ⟨a, hx, hf⟩)

theorem check_bind_of_false {α : Type} {p : Bool} {e : Err} (hp : p = false) (f : Unit → Except Err α) :
    (check p e >>= f) = .error e :=
  bind_of_error (check_eq_error.2 ⟨hp, rfl⟩) f

theorem check_bind_of_true {α : Type} {p : Bool} {e e' : Err} {f : Unit → Except Err α} (hp : p = true)
    (hf : f () = .error e') : (check p e >>= f) = .error e' :=
  bind_of_ok_of_error (check_eq_ok.2 hp) hf

theorem needInverse_of_coprime {x m : Nat} (h : Nat.gcd x m = 1) : needInverse x m = .ok (modInv x m) :=
  needInverse_eq_ok.2 (inv?_eq_some_modInv.2 ⟨h, rfl⟩)

theorem needInverse_of_not_coprime {x m : Nat} (h : Nat.gcd x m ≠ 1) : needInverse x m = .error .keyNotInvertible :=
  needInverse_eq_error.2 ⟨(inv?_eq_none_iff x m).2 h, rfl⟩

/-- When no check of a key load fails, the key's parts are as `keyBuild` needs them (45_private_key.md R180). -/
theorem KeyParts.of_keyLoadError {cfg : Config} {p q e : Nat} (h : keyLoadError cfg p q e = none) :
    KeyParts cfg p q e := by
  unfold keyLoadError at h
  split_ifs at h with _ hphi he hqp heven hN
  exact ⟨hphi, not_not.1 he, not_not.1 hqp, by omega, by omega, Nat.lt_of_not_le hN⟩

/-- The first failing check decides `keyBuild`, check by check in the order of 45_private_key.md R180. -/
theorem keyBuild_eq_error {cfg : Config} {p q e : Nat} {err : Err} (h : keyLoadError cfg p q e = some err) :
    keyBuild cfg p q e = .error err := by
  unfold keyLoadError at h
  split at h
  case isTrue hzero => cases h; exact check_bind_of_false (by obtain rfl | rfl := hzero <;> simp) _
  case isFalse hzero =>
  obtain ⟨hp0, hq0⟩ := not_or.1 hzero
  refine check_bind_of_true (by simp [hp0, hq0]) ?_
  split at h
  case isTrue hphi => cases h; exact check_bind_of_false (bne_eq_false_iff_eq.2 hphi) _
  case isFalse hphi =>
  refine check_bind_of_true (bne_iff_ne.2 hphi) ?_
  split at h
  case isTrue he => cases h; exact bind_of_error (needInverse_of_not_coprime he) _
  case isFalse he =>
  refine bind_of_ok_of_error (needInverse_of_coprime (not_not.1 he)) ?_
  split at h
  case isTrue hqp => cases h; exact bind_of_error (needInverse_of_not_coprime hqp) _
  case isFalse hqp =>
  refine bind_of_ok_of_error (needInverse_of_coprime (not_not.1 hqp)) ?_
  split at h
  case isTrue heven =>
    cases h
    rcases Nat.mod_two_eq_zero_or_one p with hp | hp
    · exact bind_of_error (buildCtx_of_even hp) _
    · refine bind_of_ok_of_error (buildCtx_of_odd hp) (bind_of_error (buildCtx_of_even ?_) _)
      omega
  case isFalse heven =>
  have hp : p % 2 = 1 := by omega
  have hq : q % 2 = 1 := by omega
  refine bind_of_ok_of_error (buildCtx_of_odd hp) (bind_of_ok_of_error (buildCtx_of_odd hq)
    (bind_of_ok_of_error (buildCtx_of_odd (Nat.odd_mul_odd hp hq)) ?_))
  split at h
  case isTrue hN =>
    cases h
    refine check_bind_of_false (decide_eq_false ?_) _
    rwa [bitLength_le_iff, Nat.not_lt]
  case isFalse => cases h

/-- A command that writes a built key leaves what `KeyLoads` describes (45_private_key.md R181, R182). -/
theorem State.Inv.keyLoads {s : State} (hi : s.Inv) {i : Instr} {p q e : Nat} (hk : KeyParts s.cfg p q e)
    (he : e < 2 ^ s.cfg.xlen) (h : pseudo i s = .ok (s.loadKey (builtKey p q e))) : s.KeyLoads p q e (exec i s) := by
  have hg := hk.privGood he
  obtain ⟨hp, hq, -⟩ := hg.fields_lt
  refine ⟨(builtKey p q e).priv, oddCtx p, oddCtx q, oddCtx (p * q), ?_, rfl, rfl, rfl, rfl, hg, rfl, rfl,
    hi.oddCtx_good hk.p_odd hp, rfl, rfl, hi.oddCtx_good hk.q_odd hq, rfl, rfl,
    hi.oddCtx_good (Nat.odd_mul_odd hk.p_odd hk.q_odd) hk.N_fits⟩
  rw [exec_eq_complete, h]
  rfl

/-- Settles O27: when no check fails `keyBuild` answers the built key, for the exponent of either command. -/
theorem keyLoadsBuildTheKey : Obligations.KeyLoadsBuildTheKey := by
  unfold Obligations.KeyLoadsBuildTheKey
  intro rs1 rs2 rs3 s hi
  constructor
  · intro h
    have hk := KeyParts.of_keyLoadError h
    exact hi.keyLoads hk (hi.x rs3) (loadkey_eq_ok.2 ⟨_, keyBuild_eq_ok.2 ⟨hk, rfl⟩, rfl⟩)
  · intro h
    have hk := KeyParts.of_keyLoadError h
    obtain ⟨-, -, -, -, he, -⟩ := hi.cfg
    exact hi.keyLoads hk he (loadkeyd_eq_ok.2 ⟨_, keyBuild_eq_ok.2 ⟨hk, rfl⟩, rfl⟩)

/-- Settles O28: a load completes with the error of `keyBuild`. -/
theorem keyLoadErrorsInOrder : Obligations.KeyLoadErrorsInOrder := by
  unfold Obligations.KeyLoadErrorsInOrder
  intro rs1 rs2 rs3 s err
  constructor
  · exact fun h => exec_of_pseudo_error (bind_of_error (keyBuild_eq_error h) _)
  · exact fun h => exec_of_pseudo_error (bind_of_error (keyBuild_eq_error h) _)

/-! ### Readback -/

/-- The fields in the order of their selectors (45_private_key.md R184). -/
theorem State.keyField_of_le (s : State) {sel : BitVec 4} (h : sel.toNat ≤ 9) :
    s.keyField sel = .ok ([s.priv.N, s.priv.e, s.priv.p, s.priv.q, s.priv.d, s.priv.dp, s.priv.dq, s.priv.qInv,
      s.pub.N, s.pub.e].getD sel.toNat 0) := by
  unfold State.keyField
  generalize sel.toNat = n at h
  interval_cases n <;> rfl

/-- Settles O29: a legal selector names a field, and its slot is the only one that is checked. -/
theorem keyrdOutcome : Obligations.KeyrdOutcome := by
  unfold Obligations.KeyrdOutcome
  intro rd sel s hsel
  have hlegal : keySelLegal sel = true := decide_eq_true hsel
  have hfield := s.keyField_of_le hsel
  by_cases h7 : sel.toNat ≤ 7
  · rw [if_pos h7]
    constructor
    · exact fun hv => exec_of_pseudo_setX (keyrd_eq_ok.2 ⟨hlegal, .inr hv, .inl h7, _, hfield, rfl⟩)
    · intro hv
      refine exec_of_pseudo_error (check_bind_of_true hlegal (check_bind_of_false ?_ _))
      rw [hv, Bool.or_false, decide_eq_false (by omega)]
  · have h8 : 8 ≤ sel.toNat := by omega
    rw [if_neg h7]
    constructor
    · exact fun hv => exec_of_pseudo_setX (keyrd_eq_ok.2 ⟨hlegal, .inl h8, .inr hv, _, hfield, rfl⟩)
    · intro hv
      refine exec_of_pseudo_error (check_bind_of_true hlegal (check_bind_of_true ?_ (check_bind_of_false ?_ _)))
      · rw [decide_eq_true h8, Bool.true_or]
      · rw [hv, Bool.or_false, decide_eq_false h7]

/-! ### The CRT path -/

/-- A command that needs PRIV checks it first, and fails when it is not valid. -/
theorem needPriv_bind_of_invalid {α : Type} {s : State} (hv : s.priv.valid = false) (f : Unit → Except Err α) :
    (s.needPriv >>= f) = .error .notReady :=
  check_bind_of_false hv f

/-- The multiple of q that the combination adds to `m2` (45_private_key.md R186). -/
def crtQuotient (k : Priv) (m1 m2 : Nat) : Nat := ((k.qInv : Int) * ((m1 : Int) - (m2 : Int)) % (k.p : Int)).toNat

theorem crtComb_eq (k : Priv) (m1 m2 : Nat) : crtComb k m1 m2 = m2 + crtQuotient k m1 m2 * k.q := rfl

/-- `h` is the floor residue of qInv·(m1 − m2), so no sign is lost when m1 < m2 (45_private_key.md R186). -/
theorem crtQuotient_cast {k : Priv} (hp : 0 < k.p) (m1 m2 : Nat) :
    (crtQuotient k m1 m2 : Int) = (k.qInv : Int) * ((m1 : Int) - (m2 : Int)) % (k.p : Int) :=
  Int.toNat_of_nonneg (Int.emod_nonneg _ (by omega))

theorem crtQuotient_lt {k : Priv} (hp : 0 < k.p) (m1 m2 : Nat) : crtQuotient k m1 m2 < k.p := by
  have h := Int.emod_lt_of_pos ((k.qInv : Int) * ((m1 : Int) - (m2 : Int))) (Int.natCast_pos.2 hp)
  rw [← crtQuotient_cast hp] at h
  exact_mod_cast h

theorem dvd_sub_crtQuotient {k : Priv} (hp : 0 < k.p) (m1 m2 : Nat) :
    (k.p : Int) ∣ (k.qInv : Int) * ((m1 : Int) - (m2 : Int)) - (crtQuotient k m1 m2 : Int) := by
  rw [crtQuotient_cast hp]
  exact Int.dvd_self_sub_emod

/-- The combination of reduced operands (45_private_key.md R187). -/
theorem PrivGood.crtComb_reduced {cfg : Config} {k : Priv} (h : PrivGood cfg k) {m1 m2 : Nat} (h1 : m1 < k.p)
    (h2 : m2 < k.q) : crtComb k m1 m2 < k.N ∧ crtComb k m1 m2 % k.p = m1 ∧ crtComb k m1 m2 % k.q = m2 := by
  refine ⟨h.N_eq ▸ crtComb_lt (by have := h.p_ge; omega) m1 h2, ?_, ?_⟩
  · exact Nat.mod_eq_of_modEq (h.crtComb_modEq_p m1 m2) h1
  · exact Nat.mod_eq_of_modEq (crtComb_modEq_q k m1 m2) h2

/-- Settles O30: CRTCOMB writes the combination or finds it too wide. -/
theorem crtcombOutcome : Obligations.CrtcombOutcome := by
  unfold Obligations.CrtcombOutcome
  intro rd rs1 rs2 s hi
  refine ⟨fun hv => ?_, fun hv => exec_of_pseudo_error (needPriv_bind_of_invalid hv _)⟩
  obtain ⟨hg, -⟩ := hi.priv hv
  have hp : 0 < s.priv.p := by have := hg.p_ge; omega
  refine ⟨crtQuotient s.priv (s.getX rs1) (s.getX rs2), crtQuotient_lt hp _ _, dvd_sub_crtQuotient hp _ _, ?_⟩
  rw [← crtComb_eq]
  refine ⟨fun hlt => exec_of_pseudo_setX (crtcomb_eq_ok.2 ⟨hv, hlt, rfl⟩), fun hle => ?_, hg.crtComb_reduced⟩
  exact exec_of_pseudo_error (check_bind_of_true hv (check_bind_of_false (decide_eq_false hle.not_gt) _))

/-- `decrypt` answers the number R187 and R188 determine. -/
theorem State.Inv.isCrtPower_decryptVal {s : State} (hi : s.Inv) (hv : s.priv.valid = true) (c : Nat) :
    IsCrtPower s.priv c (s.decryptVal c) :=
  ⟨hi.decryptVal_lt_N hv c, hi.decryptVal_modEq hv c⟩

theorem exec_decrypt {s : State} (hv : s.priv.valid = true) (rd rs1 : XReg) :
    exec (.decrypt rd rs1) s = .next (s.wroteX rd (s.decryptVal (s.getX rs1))) :=
  exec_of_pseudo_setX (decrypt_eq_ok.2 ⟨hv, rfl⟩)

theorem exec_encrypt {s : State} (hv : s.pub.valid = true) (rd rs1 : XReg) :
    exec (.encrypt rd rs1) s = .next (s.wroteX rd (s.encryptVal (s.getX rs1))) :=
  exec_of_pseudo_setX (encrypt_eq_ok.2 ⟨hv, rfl⟩)

/-- DECBYTES of a source within its bound: the decryption is never too wide (45_private_key.md R190). -/
theorem pseudo_decbytes {s : State} (hi : s.Inv) (hv : s.priv.valid = true)
    (hsrc : s.arg0.toNat + s.arg1.toNat ≤ s.cfg.dmemBytes) (hdst : s.arg2.toNat + s.priv.k ≤ s.cfg.dmemBytes)
    (hle : s.arg1.toNat ≤ s.priv.k) :
    pseudo .decbytes s = .ok ((s.memWrite s.arg2.toNat (beBytes
      (s.decryptVal (bytesValue s s.arg0.toNat s.arg1.toNat)) s.priv.k)).setResult s.priv.k) :=
  decbytes_eq_ok.2 ⟨hv, hsrc, hdst, _, toInteger_some_eq_ok.2 ⟨by rwa [length_memRead], intBe_readBytes _ _ _⟩, _,
    toBytes_of_lt (hi.decryptVal_lt_pow hv _), rfl⟩

/-- Settles O31: DECRYPT writes what `decrypt` answers. -/
theorem decryptOutcome : Obligations.DecryptOutcome := by
  unfold Obligations.DecryptOutcome
  intro rd rs1 s hi
  constructor
  · exact fun hv => ⟨_, exec_decrypt hv rd rs1, hi.isCrtPower_decryptVal hv _⟩
  · exact fun hv => exec_of_pseudo_error (needPriv_bind_of_invalid hv _)

/-- Settles O32: DECBYTES writes the rendering of the decryption of the bytes it read. -/
theorem decbytesOutcome : Obligations.DecbytesOutcome := by
  unfold Obligations.DecbytesOutcome
  intro s hi hv hsrc hdst hle
  obtain ⟨m, hexec, hwf, hm⟩ := exec_memBecomes hi.memWf (length_beBytes _ _) (fun j hj => getD_beBytes _ hj 0)
    (pseudo_decbytes hi hv hsrc hdst hle)
  exact ⟨m, _, hexec, hwf, hi.isCrtPower_decryptVal hv _, hm⟩

/-- Settles O33: SIGN writes the signature, the rendering of the decryption of the data's digest. -/
theorem signOutcome : Obligations.SignOutcome := by
  unfold Obligations.SignOutcome
  intro s hi hd hv hdata hsig
  obtain ⟨m, hexec, hwf, hm⟩ := exec_memBecomes hi.memWf s.length_signature (fun j hj => getD_beBytes _ hj 0)
    (pseudo_sign hi hd hv hdata hsig)
  exact ⟨m, _, hexec, hwf, hi.isCrtPower_decryptVal hv s.dataDigest, hm⟩

/-! ### CRT correctness and the round trips -/

/-- By Fermat's theorem an exponent may be reduced mod p - 1, multiples of p included, as long as the reduced one is
not 0 (45_private_key.md R191). -/
theorem pow_mod_modEq {p : Nat} (hp : p.Prime) {d : Nat} (hd : 0 < d % (p - 1)) (c : Nat) :
    c ^ (d % (p - 1)) ≡ c ^ d [MOD p] := by
  have := Int.ModEq.pow_eq_pow hp (Nat.dvd_sub_mod d) (Nat.mod_le _ _) hd c
  exact_mod_cast this.symm

/-- An exponent with an inverse mod n is not 0, for n at least 2. -/
theorem pos_of_mul_modEq_one {n d e : Nat} (hn : 2 ≤ n) (h : d * e ≡ 1 [MOD n]) : 0 < d := by
  refine Nat.pos_of_ne_zero ?_
  rintro rfl
  rw [Nat.zero_mul] at h
  have := Nat.le_of_dvd one_pos ((Nat.modEq_zero_iff_dvd).1 h.symm)
  omega

/-- The reduced exponents of a key are not 0, because e inverts them (45_private_key.md R182). -/
theorem PrivGood.reduced_pos {cfg : Config} {k : Priv} (h : PrivGood cfg k) : 0 < k.dp ∧ 0 < k.dq := by
  obtain ⟨hdp, hdq⟩ := h.reduced_mul_e
  exact ⟨pos_of_mul_modEq_one (by have := h.p_ge; omega) hdp, pos_of_mul_modEq_one (by have := h.q_ge; omega) hdq⟩

/-- The CRT path is the exponentiation over N, when p and q are prime (45_private_key.md R191). -/
theorem State.Inv.decryptVal_eq {s : State} (hi : s.Inv) (hv : s.priv.valid = true) (hp : s.priv.p.Prime)
    (hq : s.priv.q.Prime) (c : Nat) : s.decryptVal c = c ^ s.priv.d % s.priv.N := by
  obtain ⟨hg, -⟩ := hi.priv hv
  obtain ⟨hdp, hdq⟩ := hg.reduced_pos
  obtain ⟨hresP, hresQ⟩ := hi.decryptVal_modEq hv c
  rw [hg.dp_eq] at hdp hresP
  rw [hg.dq_eq] at hdq hresQ
  have hN : s.decryptVal c ≡ c ^ s.priv.d [MOD s.priv.p * s.priv.q] :=
    (Nat.modEq_and_modEq_iff_modEq_mul (Nat.Coprime.symm hg.coprime)).1
      ⟨hresP.trans (pow_mod_modEq hp hdp c), hresQ.trans (pow_mod_modEq hq hdq c)⟩
  rw [← hg.N_eq] at hN
  exact (Nat.mod_eq_of_modEq hN.symm (hi.decryptVal_lt_N hv c)).symm

/-- Settles O34: both commands write the same power, DECRYPT by R191 and MODPOW.N by R152. -/
theorem crtDecryptIsDirectExponentiation : Obligations.CrtDecryptIsDirectExponentiation := by
  unfold Obligations.CrtDecryptIsDirectExponentiation
  intro s hi hv hp hq
  have hdec := hi.decryptVal_eq hv hp hq
  have hexec (rd rs1 : XReg) : exec (.decrypt rd rs1) s = .next (s.wroteX rd (s.getX rs1 ^ s.priv.d % s.priv.N)) := by
    rw [exec_decrypt hv, hdec]
  refine ⟨hdec, hexec, ?_⟩
  intro rd rs1 rs2 hpub hN hd
  have hctx : (s.ctx .n).valid = true := hi.validN.trans hpub
  obtain ⟨-, hM⟩ := hi.pub hpub
  have hM' : (s.ctx .n).M = s.priv.N := hM.trans hN
  rw [hexec, exec_modpow hctx, (hi.ctxGood hctx).toCtxLaws.modPow_eq, hM', hd]

/-- The CRT path undoes the public transform: both are powers over N, so they commute (45_private_key.md R193). -/
theorem State.Inv.decryptVal_encryptVal {s : State} (hi : s.Inv) (hk : s.PrimeKey) (m : Nat) :
    s.decryptVal (s.encryptVal m) = m % s.priv.N := by
  rw [← hi.encryptVal_decryptVal hk m]
  obtain ⟨hv, hp, hq, hpub, hN, -⟩ := hk
  simp only [hi.decryptVal_eq hv hp hq, hi.encryptVal_eq hpub, hN, ← Nat.pow_mod]
  rw [pow_right_comm]

/-- Settles O35: the second command reads what the first wrote, over the same key. -/
theorem rsaRoundTrip : Obligations.RsaRoundTrip := by
  unfold Obligations.RsaRoundTrip
  intro s hi hk
  have hde := hi.decryptVal_encryptVal hk
  have hed := hi.encryptVal_decryptVal hk
  obtain ⟨hv, -, -, hpub, -⟩ := hk
  refine ⟨fun m => ⟨hde m, hed m⟩, fun rc ro rm => ⟨?_, ?_⟩⟩
  · refine ⟨_, _, exec_encrypt hpub rc rm, exec_decrypt (s := s.wroteX _ _) hv ro rc, ?_⟩
    rw [State.getX_wroteX_same, State.getX_wroteX_same]
    exact hde _
  · refine ⟨_, _, exec_decrypt hv rc rm, exec_encrypt (s := s.wroteX _ _) hpub ro rc, ?_⟩
    rw [State.getX_wroteX_same, State.getX_wroteX_same]
    exact hed _

end Sys2Proof.Machine
end

section
/-!
O7, O8, O51, O55, O56: the issue and the completion of a command, the IRQ line and STATUS.OVR (spec/60_exceptions.md).
-/

namespace Sys2Proof.Machine

open Sys2Proof

/-! ### Issue and completion -/

/-- While BUSY the engine's turn runs the pending command (60_exceptions.md R215). -/
theorem engineTurn_of_decode {s : State} {i : Instr} (hp : s.phase = .busy) (hd : decode s.pend = .ok i) :
    engineTurn s = exec i s := by
  simp only [engineTurn, hp, completePending, hd]

/-- A write to CMD issues its word, or is dropped (60_exceptions.md R217). -/
theorem step_onWrite_cmd (s : State) (v : Word) : step (s.onWrite 0x14 v) = .next (s.unlessBusy (s.issue v)) :=
  step_onWrite s (by decide) (by decide) v

/-- Settles O7: either step is the engine's turn. -/
theorem stepRunsTheDecodedCommand : Obligations.StepRunsTheDecodedCommand := by
  unfold Obligations.StepRunsTheDecodedCommand
  intro s i hp hd
  refine ⟨engineTurn_of_decode hp hd, fun hs => ?_⟩
  unfold step
  rw [hs]
  exact engineTurn_of_decode hp hd

/-- Settles O8: the placed word is pending at the engine's turn, and it decodes to the command it encodes. -/
theorem placedWordIsTheNextCommand : Obligations.PlacedWordIsTheNextCommand := by
  unfold Obligations.PlacedWordIsTheNextCommand
  intro s i hi
  have hw : BitVec.ofNat 32 ((encode i).toNat % 2 ^ 32) = encode i := by
    rw [Nat.mod_eq_of_lt (encode i).isLt, BitVec.ofNat_toNat, BitVec.setWidth_eq]
  unfold State.withFetchWord
  rw [hw]
  exact engineTurn_of_decode (s := s.issue (encode i)) rfl (decode_eq_ok_iff_encode.2 ⟨hi, rfl⟩)

/-- Settles O51: a write to CMD is dropped while BUSY and issues its word while IDLE. -/
theorem issueOfACommand : Obligations.IssueOfACommand := by
  unfold Obligations.IssueOfACommand
  intro s v _
  rw [step_onWrite_cmd]
  refine ⟨fun hp => ?_, fun hp => ?_, fun hp => ?_⟩
  · rw [State.unlessBusy_busy hp]
    rfl
  · rw [State.unlessBusy_idle hp]
    rfl
  · rw [State.unlessBusy_idle hp]
    exact ⟨_, rfl, Bool.and_false _, rfl⟩

/-! ### The IRQ line -/

/-- A completion raises the line to IE, whether it succeeds or fails (60_exceptions.md R221). -/
theorem engineTurn_irq {s : State} (hp : s.phase = .busy) : ∃ t, engineTurn s = .next t ∧ t.irq = s.ie := by
  rcases engineTurn_cases s with ⟨hidle, -⟩ | ⟨-, i, u, -, hu, ht⟩ | ⟨-, e, ht, -⟩
  · rw [hp] at hidle
    cases hidle
  · refine ⟨_, ht, ?_⟩
    rw [← (pseudo_sameControl hu).ie]
    exact Bool.and_true _
  · exact ⟨_, ht, Bool.and_true _⟩

/-- Settles O55: the level after each event that moves IE or DONE. -/
theorem interruptLine : Obligations.InterruptLine := by
  unfold Obligations.InterruptLine
  refine ⟨fun s => rfl, fun s v _ => ?_⟩
  have hctrl : step (s.onWrite 0x10 v) = .next (if v.getLsbD 0 then s.softReset else { s with ie := v.getLsbD 1 }) :=
    step_onWrite s (by decide) (by decide) v
  refine ⟨engineTurn_irq, fun h0 => ?_, ⟨s.acknowledge v, step_onWrite s (by decide) (by decide) v, ?_⟩,
    fun hp => ?_, fun h0 => ?_⟩
  · exact ⟨_, hctrl, by rw [h0]; rfl⟩
  · exact (Bool.and_assoc _ _ _).symm
  · rw [step_onWrite_cmd, State.unlessBusy_idle hp]
    exact ⟨_, rfl, Bool.and_false _⟩
  · exact ⟨_, hctrl, by rw [h0]; rfl⟩

/-! ### STATUS.OVR -/

/-- The registers whose writes BUSY drops (20_memory.md R69). -/
def WinReg.droppedBusy : WinReg → Bool
  | .cmd | .arg _ | .xword _ _ | .dmem _ => true
  | .id | .cfg | .dmemsz | .ctrl | .status | .errcode | .result | .reserved => false

/-- A write of `v` to the register clears OVR: a soft reset, or W1C (10_state.md R36, R38). -/
def WinReg.clearsOvr (v : Word) : WinReg → Bool
  | .ctrl => v.getLsbD 0
  | .status => v.getLsbD 3
  | .id | .cfg | .dmemsz | .cmd | .errcode | .result | .arg _ | .xword _ _ | .dmem _ | .reserved => false

theorem droppedBusy_winReg {cfg : Config} {off : Nat} :
    (winReg cfg off).droppedBusy = true ↔ droppedWhileBusy cfg off := by
  unfold winReg droppedWhileBusy
  split_ifs with h1 h2 h3 h4
  · unfold controlReg
    split
    case h_13 =>
      simp only [imp_false] at *
      exact ⟨nofun, fun h => by omega⟩
    all_goals simp [WinReg.droppedBusy]
  all_goals simp only [WinReg.droppedBusy, Bool.false_eq_true, false_iff, true_iff]; omega

theorem winReg_eq_status {cfg : Config} {off : Nat} (h : winReg cfg off = .status) : off = 0x18 := by
  unfold winReg at h
  split_ifs at h
  unfold controlReg at h
  split at h
  case h_6 => rfl
  all_goals cases h

theorem clearsOvr_winReg {cfg : Config} {off : Nat} {v : Word} : (winReg cfg off).clearsOvr v = true ↔
    (off = 0x10 ∧ v.getLsbD 0 = true) ∨ (off = 0x18 ∧ v.getLsbD 3 = true) := by
  constructor
  · intro h
    cases hr : winReg cfg off
    case ctrl => exact .inl ⟨winReg_eq_ctrl hr, by rwa [hr] at h⟩
    case status => exact .inr ⟨winReg_eq_status hr, by rwa [hr] at h⟩
    all_goals rw [hr] at h; cases h
  · rintro (⟨rfl, h0⟩ | ⟨rfl, h3⟩)
    · exact h0
    · exact h3

theorem State.unlessBusy_ovr {s t : State} (h : t.ovr = s.ovr) : (s.unlessBusy t).ovr = (s.ovr || s.busy) := by
  cases hp : s.phase with
  | busy => simp [State.unlessBusy_busy hp, State.busy, hp, State.drop]
  | idle => simp [State.unlessBusy_idle hp, State.busy, hp, h]

/-- OVR after a host write, by the register it names (60_exceptions.md R223). -/
theorem State.hostWrite_ovr (s : State) (off : Nat) (v : Word) : (s.hostWrite off v).ovr =
    (s.ovr && !(winReg s.cfg off).clearsOvr v || s.busy && (winReg s.cfg off).droppedBusy) := by
  have kept : s.ovr = (s.ovr && !false || s.busy && false) := by simp
  have dropped {t : State} (h : t.ovr = s.ovr) : (s.unlessBusy t).ovr = (s.ovr && !false || s.busy && true) := by
    simp [State.unlessBusy_ovr h]
  unfold State.hostWrite
  cases winReg s.cfg off with
  | ctrl =>
    show (if v.getLsbD 0 = true then s.softReset else _).ovr = (s.ovr && !v.getLsbD 0 || s.busy && false)
    cases v.getLsbD 0 with
    | true => simp [State.softReset, State.powerOn]
    | false => exact kept
  | status => exact (Bool.or_eq_left_iff_imp.2 (by simp [WinReg.droppedBusy])).symm
  | cmd | xword | dmem => exact dropped rfl
  | arg i => exact dropped (by unfold State.setArg; split <;> rfl)
  | id | cfg | dmemsz | errcode | result | reserved => exact kept

theorem engineTurn_ovr {s t : State} (h : engineTurn s = .next t) : t.ovr = s.ovr := by
  rcases engineTurn_cases s with ⟨-, he⟩ | ⟨-, i, u, -, hu, he⟩ | ⟨-, e, he, -⟩
  all_goals cases he.symm.trans h
  · rfl
  · exact (pseudo_sameControl hu).ovr
  · rfl

theorem State.busy_eq_true {s : State} : s.busy = true ↔ s.phase = .busy := by
  unfold State.busy
  cases s.phase <;> simp

/-- A host write that the block takes clears, sets or keeps OVR (60_exceptions.md R223). -/
theorem State.hostWrite_ovr_iff {s : State} {off : Nat} {v : Word} : (s.hostWrite off v).ovr = true ↔
    (s.ovr = true ∧ ¬ (off = 0x10 ∧ v.getLsbD 0 = true) ∧ ¬ (off = 0x18 ∧ v.getLsbD 3 = true)) ∨
      (s.phase = .busy ∧ droppedWhileBusy s.cfg off) := by
  rw [← not_or, ← clearsOvr_winReg (cfg := s.cfg), ← droppedBusy_winReg, ← State.busy_eq_true,
    State.hostWrite_ovr]
  simp only [Bool.or_eq_true, Bool.and_eq_true, Bool.not_eq_true', Bool.not_eq_true]

/-- A host write has one offset and one value. -/
theorem exists_write_iff {b off : Nat} {v : Word} {P : Nat → Word → Prop} :
    (∃ o u, Event.write .word (b + off) v = .write .word (b + o) u ∧ P o u) ↔ P off v := by
  constructor
  · rintro ⟨o, u, he, h⟩
    obtain ⟨-, ha, rfl⟩ := Event.write.inj he
    rwa [Nat.add_left_cancel ha]
  · exact fun h => ⟨off, v, rfl, h⟩

/-- Settles O56, by the kinds of event: a host write clears, sets or keeps OVR, a reset clears it, and the rest keep
it. -/
theorem overrunIsSticky : Obligations.OverrunIsSticky := by
  unfold Obligations.OverrunIsSticky
  intro s t e _ h
  refine ⟨?_, fun b => rfl⟩
  replace h : act e s = .next t := h
  cases e with
  | write w a v =>
    obtain ⟨_, hoff, rfl⟩ := busWrite_eq_next h
    obtain ⟨rfl, hlo, hhi, h4, rfl⟩ := busOffset_eq_ok.1 hoff
    obtain ⟨off, rfl⟩ := Nat.exists_eq_add_of_le hlo
    rw [Nat.add_sub_cancel_left] at h4 ⊢
    have hlt : off < 0x10000 := by omega
    rw [exists_write_iff, State.hostWrite_ovr_iff]
    simp only [Event.resets, Event.write.injEq, true_and, Nat.add_left_cancel_iff, and_assoc, exists_and_left,
      exists_eq_left', h4, hlt]
  | read w a =>
    obtain ⟨off, -, rfl⟩ := busRead_eq_next h
    obtain ⟨v, n, hr⟩ := s.hostRead_eq off
    simp [hr, Event.resets]
  | engine => simp [engineTurn_ovr h, Event.resets]
  | powerOn contents =>
    cases h
    simp [Event.resets, State.powerOnReset, State.powerOn]

end Sys2Proof.Machine
end

section
/-!
O9, O10, O11: what a completion leaves, and which error it reports (spec/60_exceptions.md). The frame of a success is
that of its pseudocode's writes, in three forms. The error is the one `firstError` names: `raised` reads it off a
pseudocode, one check at a time.
-/

namespace Sys2Proof.Machine

open Sys2Proof

/-! ### The frame of the registers, DMEM and RESULT -/

/-- A write leaves the bytes outside its region, in a memory that need not be canonical. -/
theorem Mem.read_writeBytes_apart (m : Mem) {a x : Nat} {bs : List Byte} (h : x < a ∨ a + bs.length ≤ x) :
    (m.writeBytes a bs).read x = m.read x := by
  induction bs generalizing m a with
  | nil => rfl
  | cons b bs ih =>
    rw [List.length_cons] at h
    rw [Mem.writeBytes, ih _ (by omega), Mem.read_write_other _ _ (by omega)]

/-- Of X, DMEM and RESULT the command `i` changes its destination register, its region and RESULT at most. -/
structure State.DataFrame (i : Instr) (s t : State) : Prop where
  x : ∀ r, destX i ≠ some r → t.getX r = s.getX r
  dmem : ∀ a, (∀ b n, destRegion s i = some (b, n) → a < b ∨ b + n ≤ a) → t.dmem.read a = s.dmem.read a
  result : writesResult i = false → t.result = s.result

theorem State.DataFrame.setX {i : Instr} {rd : XReg} (h : destX i = some rd) (s : State) (v : Nat) :
    State.DataFrame i s (s.setX rd v) where
  x _ hr := State.getX_setX_other (s := s) v fun he => hr (he ▸ h)
  dmem _ _ := rfl
  result _ := rfl

/-- A command that writes RESULT, and neither X nor DMEM. -/
theorem State.DataFrame.of_eq {i : Instr} (h : writesResult i = true) {s t : State} (hx : t.x = s.x)
    (hm : t.dmem = s.dmem) : State.DataFrame i s t where
  x _ _ := by rw [State.getX, hx]; rfl
  dmem _ _ := by rw [hm]
  result hr := by rw [h] at hr; cases hr

theorem State.DataFrame.memWrite {i : Instr} (h : writesResult i = true) {s : State} {a : Nat} {bs : List Byte}
    (v : Nat) (hr : destRegion s i = some (a, bs.length)) : State.DataFrame i s ((s.memWrite a bs).setResult v) where
  x _ _ := rfl
  dmem x hx := Mem.read_writeBytes_apart _ (hx a _ hr)
  result hn := by rw [h] at hn; cases hn

/-- A successful pseudocode changes only what its command's row names (30_encoding.md R88, 60_exceptions.md R213). -/
theorem pseudo_dataFrame {i : Instr} {s t : State} (h : pseudo i s = .ok t) : State.DataFrame i s t := by
  cases i
  case mctx => obtain ⟨c, -, rfl⟩ := mctx_eq_ok.1 h; exact .of_eq rfl rfl rfl
  case tomont => obtain ⟨-, rfl⟩ := tomont_eq_ok.1 h; exact .setX rfl _ _
  case frommont => obtain ⟨-, rfl⟩ := frommont_eq_ok.1 h; exact .setX rfl _ _
  case montmul => obtain ⟨-, rfl⟩ := montmul_eq_ok.1 h; exact .setX rfl _ _
  case ctxrd => obtain ⟨-, -, v, -, rfl⟩ := ctxrd_eq_ok.1 h; exact .setX rfl _ _
  case modpow => obtain ⟨-, rfl⟩ := modpow_eq_ok.1 h; exact .setX rfl _ _
  case loadkey => obtain ⟨b, -, rfl⟩ := loadkey_eq_ok.1 h; exact .of_eq rfl rfl rfl
  case loadkeyd => obtain ⟨b, -, rfl⟩ := loadkeyd_eq_ok.1 h; exact .of_eq rfl rfl rfl
  case loadpub => obtain ⟨c, -, rfl⟩ := loadpub_eq_ok.1 h; exact .of_eq rfl rfl rfl
  case keyrd => obtain ⟨-, -, -, v, -, rfl⟩ := keyrd_eq_ok.1 h; exact .setX rfl _ _
  case decrypt => obtain ⟨-, rfl⟩ := decrypt_eq_ok.1 h; exact .setX rfl _ _
  case encrypt => obtain ⟨-, rfl⟩ := encrypt_eq_ok.1 h; exact .setX rfl _ _
  case crtcomb => obtain ⟨-, -, rfl⟩ := crtcomb_eq_ok.1 h; exact .setX rfl _ _
  case b2i => obtain ⟨-, v, -, -, rfl⟩ := b2i_eq_ok.1 h; exact .setX rfl _ _
  case i2b =>
    obtain ⟨-, bs, hb, rfl⟩ := i2b_eq_ok.1 h
    exact .memWrite rfl _ (by rw [length_of_toBytes hb]; rfl)
  case strip =>
    obtain ⟨-, -, bs, hb, rfl⟩ := strip_eq_ok.1 h
    exact .memWrite rfl _ (by rw [length_of_stripPadding hb]; rfl)
  case hash =>
    obtain ⟨-, -, -, rfl⟩ := hash_eq_ok.1 h
    exact .memWrite rfl _ (by rw [length_digest]; rfl)
  case decbytes =>
    obtain ⟨-, -, -, c, -, bs, hb, rfl⟩ := decbytes_eq_ok.1 h
    exact .memWrite rfl _ (by rw [length_of_toBytes hb]; rfl)
  case encbytes =>
    obtain ⟨-, -, -, bs, hb, rfl⟩ := encbytes_eq_ok.1 h
    exact .memWrite rfl _ (by rw [length_of_encryptBytes hb]; rfl)
  case sign =>
    obtain ⟨-, -, -, -, bs, hb, rfl⟩ := sign_eq_ok.1 h
    exact .memWrite rfl _ (by rw [length_of_toBytes hb]; rfl)
  case verify => obtain ⟨-, -, -, r, -, rfl⟩ := verify_eq_ok.1 h; exact .of_eq rfl rfl rfl
  case verifymsg => obtain ⟨-, -, -, -, r, -, rfl⟩ := verifymsg_eq_ok.1 h; exact .of_eq rfl rfl rfl

theorem exec_of_pseudo_ok {i : Instr} {s u : State} (h : pseudo i s = .ok u) : exec i s = .next u.succeed := by
  rw [exec_eq_complete, h]
  rfl

/-- A slot that the one command `i` may load is kept when `i` does not load it. -/
theorem State.SlotsKept.of_not_loads {i : Instr} {s t : State} (h : State.SlotsKept (Eq i) s t) :
    (loadsUserCtx i = false → t.ctxU = s.ctxU) ∧
    (loadsPriv i = false → t.priv = s.priv ∧ t.ctxP = s.ctxP ∧ t.ctxQ = s.ctxQ) ∧
    (loadsPub i = false → t.pub = s.pub ∧ t.ctxN = s.ctxN) := by
  have kept {loads : Instr → Bool} {P : Prop} (h : P ∨ ∃ j, i = j ∧ loads j = true) (hn : loads i = false) :
      P := by
    rcases h with h | ⟨j, rfl, hl⟩
    · exact h
    · rw [hn] at hl; cases hl
  exact ⟨kept h.ctxU, kept h.priv, kept h.pub⟩

/-- Settles O9: a completion is a failure, or the success of a pseudocode, whose frame has three parts: X, DMEM and
RESULT; the slots; and the control fields. -/
theorem everyCommandSucceedsOrFailsWhole : Obligations.EveryCommandSucceedsOrFailsWhole := by
  unfold Obligations.EveryCommandSucceedsOrFailsWhole
  intro i s
  cases hu : pseudo i s with
  | error e => exact ⟨_, exec_of_pseudo_error hu, .inl ⟨e, rfl⟩⟩
  | ok u =>
    refine ⟨_, exec_of_pseudo_ok hu, .inr ⟨rfl, rfl, rfl, rfl, ?_⟩⟩
    obtain ⟨hx, hmem, hresult⟩ := pseudo_dataFrame hu
    obtain ⟨hU, hpriv, hpub⟩ := ((pseudo_effect hu).slotsKept rfl).of_not_loads
    obtain ⟨hcfg, h0, h1, h2, h3, hovr, hie, hpend, hsched, hreads, hdraws⟩ := pseudo_sameControl hu
    exact ⟨hx, hmem, hresult, hU, hpriv, hpub, h0, h1, h2, h3, hie, hovr, hpend, hcfg, hsched, hreads, hdraws⟩

/-! ### The error a pseudocode raises -/

/-- The error a pseudocode raises, if it raises one. -/
def raised {α : Type} : Except Err α → Option Err
  | .ok _ => none
  | .error e => some e

theorem raised_eq_some {α : Type} {r : Except Err α} {e : Err} : raised r = some e ↔ r = .error e := by
  cases r <;> simp [raised]

theorem raised_eq_none {α : Type} {r : Except Err α} : raised r = none ↔ ∃ a, r = .ok a := by
  cases r <;> simp [raised]

theorem decide_eq_not_decide {p q : Prop} [Decidable p] [Decidable q] (h : p ↔ ¬ q) : decide p = !decide q := by
  rw [← decide_not]
  exact decide_eq_decide.2 h

theorem firstOf_cons (b : Bool) (e : Err) (rest : List (Bool × Err)) :
    firstOf ((b, e) :: rest) = if b then some e else firstOf rest := by
  cases b <;> rfl

/-- A part that raises nothing leaves the error to the rest. -/
theorem raised_bind_of_ok {α β : Type} {x : Except Err α} {a : α} (hx : x = .ok a) (f : α → Except Err β) :
    raised (x >>= f) = raised (f a) := by
  rw [hx]
  rfl

section

variable {α β : Type} {rest : List (Bool × Err)}

/-- A part that raises `e` exactly when `b` is the first check of a list that the rest of the pseudocode
continues. -/
theorem raised_bind {x : Except Err α} {f : α → Except Err β} {b : Bool} {e : Err}
    (hfail : b = true → x = .error e) (hpass : b = false → ∃ a, x = .ok a ∧ raised (f a) = firstOf rest) :
    raised (x >>= f) = firstOf ((b, e) :: rest) := by
  rw [firstOf_cons]
  cases b with
  | true => exact raised_eq_some.2 (bind_of_error (hfail rfl) f)
  | false =>
    obtain ⟨a, ha, hrest⟩ := hpass rfl
    exact (raised_bind_of_ok ha f).trans hrest

/-- A check is the first of a list that has its negation, and the rest may rely on it. -/
theorem raised_check {p b : Bool} {e : Err} {f : Unit → Except Err β} (hb : b = !p)
    (hrest : p = true → raised (f ()) = firstOf rest) : raised (check p e >>= f) = firstOf ((b, e) :: rest) := by
  subst hb
  cases p with
  | true => exact hrest rfl
  | false => rfl

theorem raised_needRegion {s : State} {a n : Nat} {f : Unit → Except Err β}
    (hrest : raised (f ()) = firstOf rest) :
    raised (s.needRegion a n >>= f) = firstOf ((outOfRange s a n, .rangeError) :: rest) :=
  raised_check (decide_eq_not_decide Nat.not_le.symm) fun _ => hrest

theorem raised_getCtx {s : State} {c : CtxSlot} {f : Ctx → Except Err β}
    (hrest : raised (f (s.ctx c)) = firstOf rest) :
    raised (s.getCtx c >>= f) = firstOf ((!(s.ctx c).valid, .notReady) :: rest) := by
  refine raised_bind (fun h => getCtx_eq_error.2 ⟨?_, rfl⟩) fun h => ⟨_, getCtx_eq_ok.2 ⟨?_, rfl⟩, hrest⟩
  · simpa using h
  · simpa using h

theorem raised_buildCtx {M : Nat} {f : Ctx → Except Err β} (hrest : raised (f (oddCtx M)) = firstOf rest) :
    raised (buildCtx M >>= f) = firstOf ((decide (M % 2 = 0), .invalidModulus) :: rest) := by
  refine raised_bind (fun h => buildCtx_of_even (of_decide_eq_true h)) fun h => ⟨_, buildCtx_of_odd ?_, hrest⟩
  have := of_decide_eq_false h
  omega

/-- The bound on the length of a region's bytes (41_codec.md R100). -/
theorem raised_toInteger {s : State} {a n bound : Nat} {f : Nat → Except Err β}
    (hrest : raised (f (bytesValue s a n)) = firstOf rest) :
    raised (toInteger (s.memRead a n) (some bound) >>= f) = firstOf ((decide (bound < n), .inputTooLarge) :: rest) := by
  refine raised_bind (fun h => toInteger_some_eq_error.2 ⟨?_, rfl⟩)
    fun h => ⟨_, toInteger_some_eq_ok.2 ⟨?_, intBe_readBytes _ _ _⟩, hrest⟩
  · rw [length_memRead]
    exact of_decide_eq_true h
  · rw [length_memRead]
    exact Nat.le_of_not_lt (of_decide_eq_false h)

end

/-- `keyLoadError` names the error of `keyBuild` (45_private_key.md R180). -/
theorem raised_keyBuild (cfg : Config) (p q e : Nat) : raised (keyBuild cfg p q e) = keyLoadError cfg p q e := by
  cases h : keyLoadError cfg p q e with
  | none => exact raised_eq_none.2 ⟨_, keyBuild_eq_ok.2 ⟨KeyParts.of_keyLoadError h, rfl⟩⟩
  | some err => exact raised_eq_some.2 (keyBuild_eq_error h)

/-- A last step that raises nothing. -/
theorem raised_bind_pure {α β : Type} (x : Except Err α) (f : α → β) :
    raised (x >>= fun a => pure (f a)) = raised x := by
  cases x <;> rfl

/-- The rendering of a number that fits raises nothing (41_codec.md R109). -/
theorem raised_toBytes {v L : Nat} (h : v < 256 ^ L) : raised (toBytes v L) = firstOf [] := by
  rw [toBytes_of_lt h]
  rfl

/-- A part that raises `e` exactly when `b`. -/
theorem raised_eq_firstOf {α : Type} {r : Except Err α} {b : Bool} {e : Err} (hfail : b = true → r = .error e)
    (hpass : b = false → ∃ a, r = .ok a) : raised r = firstOf [(b, e)] := by
  cases b with
  | true => exact raised_eq_some.2 (hfail rfl)
  | false => exact raised_eq_none.2 (hpass rfl)

/-- Of the parts of `verify` only the bound on the signature can fail (44_public_key.md R166). -/
theorem State.Inv.raised_verifyVal {s : State} (hi : s.Inv) (hv : s.pub.valid = true) (sig dig : List Byte) :
    raised (s.verifyVal sig dig) = firstOf [(decide (s.pub.k < sig.length), .inputTooLarge)] :=
  raised_eq_firstOf (fun h => bind_of_error (toInteger_some_eq_error.2 ⟨of_decide_eq_true h, rfl⟩) _)
    fun h => ⟨_, hi.verifyVal_eq hv (Nat.le_of_not_lt (of_decide_eq_false h))⟩

/-- Of the parts of `encryptBytes` only the bound on the string can fail (44_public_key.md R164). -/
theorem State.Inv.raised_encryptBytes {s : State} (hi : s.Inv) (hv : s.pub.valid = true) (b : List Byte) :
    raised (s.encryptBytes b) = firstOf [(decide (s.pub.k < b.length), .inputTooLarge)] :=
  raised_eq_firstOf (fun h => bind_of_error (toInteger_some_eq_error.2 ⟨of_decide_eq_true h, rfl⟩) _)
    fun h => ⟨_, hi.encryptBytes_eq hv (Nat.le_of_not_lt (of_decide_eq_false h))⟩

/-! ### The error of each command -/

/-- B2I checks its bound in the form B2I.B alone (41_codec.md R101). -/
theorem raised_b2i (rd : XReg) (f : Bool) (s : State) : raised (b2i rd f s) = firstError s (.b2i rd f) := by
  refine raised_needRegion ?_
  have hfits : raised (check (decide (bytesValue s s.arg0.toNat s.arg1.toNat < 2 ^ s.cfg.xlen)) .inputTooLarge >>=
      fun _ => pure (s.setX rd (bytesValue s s.arg0.toNat s.arg1.toNat))) =
      firstOf [(decide (2 ^ s.cfg.xlen ≤ bytesValue s s.arg0.toNat s.arg1.toNat), .inputTooLarge)] :=
    raised_check (decide_eq_not_decide Nat.not_lt.symm) fun _ => rfl
  cases f with
  | true => exact raised_toInteger hfits
  | false =>
    have hread : toInteger (s.memRead s.arg0.toNat s.arg1.toNat) none = _ := congrArg Except.ok (intBe_readBytes _ _ _)
    exact (raised_bind_of_ok hread _).trans hfits

/-- KEYRD checks the slot its selector needs (45_private_key.md R185). -/
theorem raised_keyrd (rd : XReg) {sel : BitVec 4} (s : State) (hsel : keySelLegal sel = true) :
    raised (keyrd rd sel s) = firstError s (.keyrd rd sel) := by
  have hslot : decide (sel.toNat ≤ 7) = !decide (8 ≤ sel.toNat) := decide_eq_not_decide (by omega)
  refine (raised_bind_of_ok (a := ()) (check_eq_ok.2 hsel) _).trans
    (raised_check ?_ fun _ => raised_check ?_ fun _ => ?_)
  · rw [hslot, Bool.not_or]
  · rw [hslot, Bool.not_or, Bool.not_not]
  · exact raised_bind_of_ok (s.keyField_of_le (of_decide_eq_true hsel)) _

theorem raised_strip (s : State) : raised (strip s) = firstError s .strip := by
  refine raised_needRegion (raised_needRegion
    (raised_bind (fun h => if_pos ?_) fun h => ⟨_, stripPadding_of_le ?_, rfl⟩))
  · rw [length_memRead]
    exact of_decide_eq_true h
  · rw [length_memRead]
    exact Nat.le_of_not_lt (of_decide_eq_false h)

/-- A pseudocode raises the error of its first failing check, and none else: the values it renders fit by the
invariant. -/
theorem raised_pseudo {i : Instr} {s : State} (hi : s.Inv) (hw : i.wellFormed = true) :
    raised (pseudo i s) = firstError s i := by
  cases i
  case mctx | loadpub => exact raised_buildCtx rfl
  case tomont | frommont | montmul | modpow => exact raised_getCtx rfl
  case ctxrd rd c sel =>
    refine (raised_bind_of_ok (a := ()) (check_eq_ok.2 hw) _).trans (raised_getCtx ?_)
    exact raised_bind_of_ok (ctxField_of_le _ (of_decide_eq_true hw)) _
  case loadkey | loadkeyd => exact (raised_bind_pure _ _).trans (raised_keyBuild _ _ _ _)
  case keyrd rd sel => exact raised_keyrd rd s hw
  case decrypt | encrypt => exact raised_check rfl fun _ => rfl
  case crtcomb =>
    exact raised_check rfl fun _ => raised_check (decide_eq_not_decide Nat.not_lt.symm) fun _ => rfl
  case b2i rd f => exact raised_b2i rd f s
  case i2b =>
    exact raised_needRegion (raised_bind (fun h => toBytes_of_le (of_decide_eq_true h))
      fun h => ⟨_, toBytes_of_lt (Nat.lt_of_not_le (of_decide_eq_false h)), rfl⟩)
  case strip => exact raised_strip s
  case hash => exact raised_check rfl fun _ => raised_needRegion (raised_needRegion rfl)
  case decbytes =>
    exact raised_check rfl fun hv => raised_needRegion (raised_needRegion (raised_toInteger
      ((raised_bind_pure _ _).trans (raised_toBytes (hi.decryptVal_lt_pow hv _)))))
  case encbytes =>
    refine raised_check rfl fun hv => raised_needRegion (raised_needRegion ((raised_bind_pure _ _).trans ?_))
    rw [hi.raised_encryptBytes hv, length_memRead]
    rfl
  case sign =>
    exact raised_check rfl fun _ => raised_check rfl fun hv => raised_needRegion (raised_needRegion
      ((raised_bind_pure _ _).trans (raised_toBytes (hi.decryptVal_lt_pow hv _))))
  case verify =>
    refine raised_check rfl fun hv => raised_needRegion (raised_needRegion ((raised_bind_pure _ _).trans ?_))
    rw [hi.raised_verifyVal hv, length_memRead]
    rfl
  case verifymsg =>
    refine raised_check rfl fun _ => raised_check rfl fun hv => raised_needRegion (raised_needRegion
      ((raised_bind_pure _ _).trans ?_))
    rw [hi.raised_verifyVal hv, length_memRead]
    rfl

/-- Settles O10: the pseudocode raises what `firstError` names, and the completion step reports it. -/
theorem firstFailingCheckDecides : Obligations.FirstFailingCheckDecides := by
  unfold Obligations.FirstFailingCheckDecides
  intro i s hi hw
  rw [← raised_pseudo hi hw]
  refine ⟨fun e he => exec_of_pseudo_error (raised_eq_some.1 he), fun hn => ?_⟩
  obtain ⟨u, hu⟩ := raised_eq_none.1 hn
  exact ⟨_, exec_of_pseudo_ok hu, rfl, rfl, rfl, rfl⟩

/-- The error named is one of the list. -/
theorem mem_of_firstOf {e : Err} {checks : List (Bool × Err)} (h : firstOf checks = some e) :
    e ∈ checks.map fun c => c.2 := by
  obtain ⟨c, hc, rfl⟩ := Option.map_eq_some_iff.1 h
  exact List.mem_map_of_mem (List.mem_of_find?_eq_some hc)

theorem mem_of_keyLoadError {cfg : Config} {p q e : Nat} {err : Err} (h : keyLoadError cfg p q e = some err) :
    err ∈ [Err.invalidModulus, .keyTooLarge, .keyNotInvertible] := by
  unfold keyLoadError at h
  split_ifs at h <;> cases h <;> decide

/-- The list of a command's checks stays within its row of the matrix (60_exceptions.md R213). -/
theorem firstError_mem_mayRaise {s : State} {i : Instr} {e : Err} (h : firstError s i = some e) : e ∈ mayRaise i := by
  cases i
  case loadkey | loadkeyd => exact mem_of_keyLoadError h
  all_goals
    have hmem := mem_of_firstOf h
    simp only [List.map_cons, List.map_nil, List.mem_cons, List.not_mem_nil, or_false] at hmem
    simp only [mayRaise, List.mem_cons, List.not_mem_nil, or_false]
    tauto

/-- Settles O11: an error is the one `firstError` names, whose lists stay within the rows. -/
theorem errorsAreThoseOfTheMatrix : Obligations.ErrorsAreThoseOfTheMatrix := by
  unfold Obligations.ErrorsAreThoseOfTheMatrix
  intro i s t hi hw h herr
  rw [exec_eq_complete] at h
  rcases complete_cases h with ⟨u, -, rfl⟩ | ⟨e, he, rfl⟩
  · cases herr
  · refine ⟨e, firstError_mem_mayRaise (s := s) ?_, rfl, ?_⟩
    · rw [← raised_pseudo hi hw, he]
      rfl
    · rintro rfl
      exact noCode4_pseudo s i he

end Sys2Proof.Machine
end

section
/-!
O12, O19, O53, O57: the resets, the commands that run before any slot is loaded, and the completion of an issued
command (spec/70_reset_and_hazards.md). A busy engine stays busy through every access short of a reset, and the two
events that end BUSY, its turn and a reset, each leave it idle.
-/

namespace Sys2Proof.Machine

open Sys2Proof

/-! ### What a reset leaves -/

/-- Settles O57: `State.reset` is the power-on of the default configuration with no byte of DMEM listed. -/
theorem invariantHoldsAtReset : Obligations.InvariantHoldsAtReset := by
  unfold Obligations.InvariantHoldsAtReset
  exact ⟨State.powerOn_inv Config.default_wf ⟨.nil, nofun⟩ nofun, fun _ _ => State.powerOn_inv⟩

/-- The power-on column of 70_reset_and_hazards.md R240. -/
theorem State.powerOn_atReset (cfg : Config) (m : Mem) : (State.powerOn cfg m).AtReset where
  x i := by simp [State.powerOn, State.getX]
  slots c := by cases c <;> rfl
  priv := rfl
  pub := rfl
  args := ⟨rfl, rfl, rfl, rfl⟩
  result := rfl
  status := ⟨rfl, rfl, rfl, rfl⟩
  errcode := rfl
  ie := rfl
  pend := rfl
  irq := rfl

/-- The table says nothing of the model's own fields. -/
theorem State.AtReset.modelFields {t : State} (h : t.AtReset) (l : List Event) (r : List Word) (d : Nat) :
    State.AtReset { t with sched := l, reads := r, draws := d } :=
  { h with }

theorem State.softReset_atReset (s : State) : s.softReset.AtReset := (State.powerOn_atReset _ _).modelFields _ _ _

theorem State.powerOnReset_atReset (s : State) (contents : Mem) : (s.powerOnReset contents).AtReset :=
  (State.powerOn_atReset _ _).modelFields _ _ _

/-- A write to CTRL with SRST is a soft reset, idle or busy (70_reset_and_hazards.md R241). -/
theorem step_onWrite_srst (s : State) {v : Word} (h0 : v.getLsbD 0 = true) :
    step (s.onWrite 0x10 v) = .next s.softReset := by
  have hw : step (s.onWrite 0x10 v) = .next (if v.getLsbD 0 then s.softReset else { s with ie := v.getLsbD 1 }) :=
    step_onWrite s (by decide) (by decide) v
  rw [hw, if_pos h0]

/-- Settles O53: either reset is the power-on state but for DMEM and the model's own fields. -/
theorem resetValues : Obligations.ResetValues := by
  unfold Obligations.ResetValues
  refine ⟨State.powerOn_atReset _ _, fun s _ => ⟨fun contents => ?_, fun v h0 => ?_⟩⟩
  · exact ⟨s.powerOnReset contents, rfl, s.powerOnReset_atReset contents, rfl, Mem.read_ofCells _ contents⟩
  · exact ⟨s.softReset, step_onWrite_srst s h0, s.softReset_atReset, rfl, rfl⟩

/-! ### The commands that run while no slot is valid -/

/-- NotReady is in a command's row exactly when the command reads a slot (60_exceptions.md R213,
70_reset_and_hazards.md R243). -/
theorem notReady_mem_mayRaise {i : Instr} : .notReady ∈ mayRaise i ↔ needsSlot i = true := by
  cases i <;> simp [mayRaise, needsSlot]

/-- Without the digest unit SIGN and VERIFYMSG stop before they look at a slot (60_exceptions.md R214). -/
theorem exec_of_no_digest {i : Instr} {s : State} (hi : i = .sign ∨ i = .verifymsg)
    (hd : s.cfg.digestPresent = false) : exec i s = .next (s.failed .digestUnavailable) := by
  obtain rfl | rfl := hi <;> exact exec_of_pseudo_error (check_bind_of_false hd _)

/-- A command that reads a slot fails with NotReady while none is valid, once past its digest check. -/
theorem exec_of_no_slot {i : Instr} {s : State} (hw : i.wellFormed = true) (hslot : needsSlot i = true)
    (hctx : ∀ c, (s.ctx c).valid = false) (hpriv : s.priv.valid = false) (hpub : s.pub.valid = false)
    (hd : i = .sign ∨ i = .verifymsg → s.cfg.digestPresent = true) : exec i s = .next (s.failed .notReady) := by
  cases i
  case tomont | frommont | montmul | modpow => exact exec_of_pseudo_error (getCtx_bind_of_invalid (hctx _) _)
  case ctxrd => exact exec_of_pseudo_error (check_bind_of_true hw (getCtx_bind_of_invalid (hctx _) _))
  case keyrd rd sel => exact (keyrdOutcome rd sel s (of_decide_eq_true hw)).2 (by rw [hpriv, hpub, ite_self])
  case crtcomb | decrypt | decbytes => exact exec_of_pseudo_error (check_bind_of_false hpriv _)
  case encrypt | encbytes | verify => exact exec_of_pseudo_error (check_bind_of_false hpub _)
  case sign => exact exec_of_pseudo_error (check_bind_of_true (hd (.inl rfl)) (check_bind_of_false hpriv _))
  case verifymsg => exact exec_of_pseudo_error (check_bind_of_true (hd (.inr rfl)) (check_bind_of_false hpub _))
  all_goals cases hslot

/-- The error of a command that reads no slot is the one `firstError` names, the invariant or not: none of the values
such a command renders comes from a slot. -/
theorem raised_pseudo_of_slotFree {i : Instr} (hslot : needsSlot i = false) (s : State) :
    raised (pseudo i s) = firstError s i := by
  cases i
  case mctx | loadpub => exact raised_buildCtx rfl
  case loadkey | loadkeyd => exact (raised_bind_pure _ _).trans (raised_keyBuild _ _ _ _)
  case b2i rd f => exact raised_b2i rd f s
  case i2b =>
    exact raised_needRegion (raised_bind (fun h => toBytes_of_le (of_decide_eq_true h))
      fun h => ⟨_, toBytes_of_lt (Nat.lt_of_not_le (of_decide_eq_false h)), rfl⟩)
  case strip => exact raised_strip s
  case hash => exact raised_check rfl fun _ => raised_needRegion (raised_needRegion rfl)
  all_goals cases hslot

/-- Settles O19: a slot-reading command stops at the slot it needs, and NotReady is in no other command's row. -/
theorem afterResetOnlySlotFreeCommandsRun : Obligations.AfterResetOnlySlotFreeCommandsRun := by
  unfold Obligations.AfterResetOnlySlotFreeCommandsRun
  intro i s hw hctx hpriv hpub
  refine ⟨fun hslot => ?_, fun hslot t h herr hcode => ?_⟩
  · split_ifs with hd
    · exact exec_of_no_digest hd.1 hd.2
    · exact exec_of_no_slot hw hslot hctx hpriv hpub fun hi => Bool.eq_true_of_not_eq_false fun hn => hd ⟨hi, hn⟩
  · rw [exec_eq_complete] at h
    rcases complete_cases h with ⟨u, -, rfl⟩ | ⟨e, he, rfl⟩
    · cases herr
    · cases hcode
      have hrow : firstError s i = some .notReady :=
        (raised_pseudo_of_slotFree hslot s).symm.trans (raised_eq_some.2 he)
      rw [notReady_mem_mayRaise.1 (firstError_mem_mayRaise hrow)] at hslot
      cases hslot

/-! ### Every issued command completes -/

/-- The turn of a busy engine completes its command, with success or with an error (60_exceptions.md R215). -/
theorem engineTurn_busy {s : State} (hp : s.phase = .busy) :
    ∃ t, engineTurn s = .next t ∧ t.phase = .idle ∧ t.done = true := by
  rcases engineTurn_cases s with ⟨hidle, -⟩ | ⟨-, i, u, -, -, ht⟩ | ⟨-, e, ht, -⟩
  · rw [hp] at hidle
    cases hidle
  · exact ⟨_, ht, rfl, rfl⟩
  · exact ⟨_, ht, rfl, rfl⟩

/-- An event that resets the block leaves an idle engine (70_reset_and_hazards.md R242). -/
theorem step_reset_idle {s : State} {e : Event} (hr : e.resets s.cfg) :
    ∃ t, step { s with sched := e :: s.sched } = .next t ∧ t.phase = .idle := by
  cases e with
  | write w a v =>
    obtain ⟨rfl, rfl, h0⟩ := hr
    exact ⟨_, step_onWrite_srst s h0, rfl⟩
  | read w a => cases hr
  | engine => cases hr
  | powerOn contents => exact ⟨_, rfl, rfl⟩

/-- An event that the block takes ends BUSY, as a reset or as the engine's turn, or else changes IE, the flags of
STATUS, the read log and the draw counter at most (20_memory.md R69). -/
theorem step_busy_cases {s : State} (hp : s.phase = .busy) {e : Event} (hl : e.legal s.cfg) :
    (∃ t, step { s with sched := e :: s.sched } = .next t ∧ t.phase = .idle ∧
      (¬ e.resets s.cfg → t.done = true)) ∨
    ∃ ie done err ovr reads draws, step { s with sched := e :: s.sched } =
      .next { s with ie := ie, done := done, err := err, ovr := ovr, reads := reads, draws := draws } := by
  by_cases hreset : e.resets s.cfg
  · obtain ⟨t, ht, hidle⟩ := step_reset_idle hreset
    exact .inl ⟨t, ht, hidle, fun hno => absurd hreset hno⟩
  · by_cases hturn : e = .engine
    · subst hturn
      obtain ⟨t, ht, hidle, hdone⟩ := engineTurn_busy hp
      exact .inl ⟨t, ht, hidle, fun _ => hdone⟩
    · exact .inr (step_access_busy hp hl hreset hturn)

theorem core_run_succ {s t : State} (h : step s = .next t) (k : Nat) : core.run (k + 1) s = core.run k t :=
  run_succ_of_step (M := core) (s := s) (t := t) h k

/-- A busy engine is idle within one step more than there are events, by induction on the events: either the first one
ends BUSY or the rest do, and when none is left the engine moves (70_reset_and_hazards.md R252). -/
theorem run_busy_idle {events : List Event} {s : State} (hp : s.phase = .busy) (hl : ∀ e ∈ events, e.legal s.cfg) :
    ∃ k t, k ≤ events.length + 1 ∧ core.run k { s with sched := events } = .next t ∧ t.phase = .idle ∧
      ((∀ e ∈ events, ¬ e.resets s.cfg) → t.done = true) := by
  induction events generalizing s with
  | nil =>
    obtain ⟨t, ht, hidle, hdone⟩ := engineTurn_busy (s := { s with sched := [] }) hp
    exact ⟨1, t, le_rfl, core_run_succ (s := { s with sched := [] }) ht 0, hidle, fun _ => hdone⟩
  | cons e rest ih =>
    obtain ⟨he, hrest⟩ := List.forall_mem_cons.1 hl
    rcases step_busy_cases (s := { s with sched := rest }) hp he with
      ⟨t, ht, hidle, hdone⟩ | ⟨ie, done, err, ovr, reads, draws, hu⟩
    · exact ⟨1, t, Nat.le_add_left 1 _, core_run_succ ht 0, hidle, fun hno => hdone (List.forall_mem_cons.1 hno).1⟩
    · obtain ⟨k, t, hk, hrun, hidle, hdone⟩ := ih
        (s := { s with ie := ie, done := done, err := err, ovr := ovr, reads := reads, draws := draws }) hp hrest
      exact ⟨k + 1, t, Nat.succ_le_succ hk, (core_run_succ hu k).trans hrun, hidle,
        fun hno => hdone (List.forall_mem_cons.1 hno).2⟩

/-- Settles O12: the events are those of the state's own schedule. -/
theorem issuedCommandCompletes : Obligations.IssuedCommandCompletes := by
  unfold Obligations.IssuedCommandCompletes
  exact fun _ => run_busy_idle

end Sys2Proof.Machine
end
